-- ==== Sys2Proof/Word.lean ====
section
/-! DEFINITION. The word types of HLL-CORE (00_scope.md R9, R10) and the frame, a finite list of words (30_encoding.md R60). -/

namespace Sys2Proof

/-- `u32`: a frame word, a hash, a seed, an INDEX, a RANK (R10). -/
abbrev Word := BitVec 32

/-- `u8`: a register cell, a byte of a data item (R10). -/
abbrev Byte := BitVec 8

/-- `f64`: the 64 bits of an IEEE 754 binary64 value, sign bit 63, exponent bits 62:52, fraction bits 51:0 (R10, R146). -/
abbrev F64 := BitVec 64

/-- A command frame or a response frame: a finite list of 32-bit words, the first word first (R60). -/
abbrev Frame := List Word

end Sys2Proof
end

