-- ==== Sys2Proof/Config.lean ====
section
/-! DEFINITION. The parameters of the block: those the source fixes (00_scope.md R6), those it leaves open with the default the spec
names (R7; 92_eei_decisions.md, open parameters), and the one free value (42_estimator.md R142). The parameter `LN` of R7 is
`Sys2Proof.Machine.LN` in Machine/Log.lean. `Params` collects the open ones, `Sys2Proof.Machine.defaults` is their default. -/

namespace Sys2Proof

/-- The eleven Murmur3-32 parameters of 40_hash.md R92. The functions of Machine/Hash.lean take them as an argument. -/
structure HashParams where
  c1 : Word
  c2 : Word
  r1 : Nat
  r2 : Nat
  mul5 : Word
  addn : Word
  fm1 : Word
  fm2 : Word
  fs1 : Nat
  fs2 : Nat
  fs3 : Nat
deriving DecidableEq, Repr

/-- The parameters the source leaves open (R7), which 10_state.md R31 makes parameters of `step`: the Murmur3 constants, the logarithm,
the longest data item, the arbiter's lanes. `decodeWith`, `execWith` and `stepWith` take them; the block itself is their instance at
`Machine.defaults`. -/
structure Params where
  hash : HashParams
  ln : F64 → F64
  maxLen : Nat
  lanes : Nat

namespace Config

/-- The default constants of R92. PRESUMED (the spec itself takes them from general knowledge, G1): log 1, unsafe. -/
def hash : HashParams where
  c1 := 0xCC9E2D51
  c2 := 0x1B873593
  r1 := 15
  r2 := 13
  mul5 := 5
  addn := 0xE6546B64
  fm1 := 0x85EBCA6B
  fm2 := 0xC2B2AE35
  fs1 := 16
  fs2 := 13
  fs3 := 16

/-- `K_MIN`, `K_MAX` of R6: the legal precisions. -/
def kMin : Nat := 2
def kMax : Nat := 16

/-- `RANK_MAX` of R6: the largest legal register value. -/
def rankMax : Nat := 32

/-- `SEED_DEFAULT` of R6, 314. -/
def seedDefault : Word := 314

/-- The cells of the physical memory behind the register store (10_state.md R24). -/
def physicalCells : Nat := 65536

/-- `MAX_LEN` of R7: the longest data item, at its default `2^32 - 1`. DESIGN CHOICE (the spec's default is taken): log 3, unsafe. -/
def maxLen : Nat := 2 ^ 32 - 1

/-- `LANES` of R7: how many items the arbiter takes at once, at its default 1. DESIGN CHOICE (the spec's default is taken; it is not
observable): log 4, safe. -/
def lanes : Nat := 1

/-- FREE VALUE (log 5): the sign and the 51 payload bits of the n-th NaN estimate. The spec fixes only that the estimate is a quiet
NaN (R142, U8), and R144 excludes a NaN from repeatability, so each draw is its own. -/
opaque freeNaN : Nat → BitVec 52

end Config

end Sys2Proof
end

