-- ==== Sys2Proof/Syntax.lean ====
section
/-! DEFINITION. The commands of HLL-CORE, one constructor per row of spec/opcode_table.json (30_encoding.md R62), the opcode map, and
the pseudo-instructions of R76. -/

namespace Sys2Proof

/-- The ten defined opcodes (R62). -/
inductive Opcode where
  | init | add | addv | hash | card | merge | rdregs | setreg | getseed | getsize
deriving DecidableEq, Repr

/-- A command with its operands. A seed operand is `some w` when the frame carries a seed word (`S = 1`) and `none` when it does not
(`S = 0`, the default 314 applies): the two are different command values, as R71 asks of a model that wants a bijection. -/
inductive Instr where
  /-- INIT (R186): `k` is the 16-bit `ARG`, any value. -/
  | init (k : BitVec 16) (seed : Option Word)
  /-- ADD (R115): one data item. -/
  | add (data : List Byte)
  /-- ADDV (R117): `N` data items, `N` is the length of the list. -/
  | addv (items : List (List Byte))
  /-- HASH (R100): an optional seed word and one data item. -/
  | hash (seed : Option Word) (data : List Byte)
  /-- CARD (R145). -/
  | card
  /-- MERGE (R161): the operand's precision `OK` and its `2^OK` register bytes in index order. -/
  | merge (ok : BitVec 16) (operand : List Byte)
  /-- RDREGS (R171). -/
  | rdregs
  /-- SETREG (R174): INDEX and RANK, full words. -/
  | setreg (index : Word) (rank : Word)
  /-- GETSEED (R178). -/
  | getseed
  /-- GETSIZE (R179). -/
  | getsize
deriving DecidableEq, Repr

/-- The opcode a command is sent under. -/
def Instr.opcode : Instr → Opcode
  | .init _ _ => .init
  | .add _ => .add
  | .addv _ => .addv
  | .hash _ _ => .hash
  | .card => .card
  | .merge _ _ => .merge
  | .rdregs => .rdregs
  | .setreg _ _ => .setreg
  | .getseed => .getseed
  | .getsize => .getsize

/-- The pseudo-instructions (R76). -/
inductive Pseudo where
  /-- RESTORE: a sketch of precision `k` under `seed` with these cells. -/
  | restore (k : BitVec 16) (seed : Word) (cells : List Byte)
  /-- GETK: the host takes log2 of the answer. -/
  | getk
deriving DecidableEq, Repr

/-- One SETREG per cell in rising index from `i` on (R76). -/
def replayCells : Nat → List Byte → List Instr
  | _, [] => []
  | i, b :: bs => .setreg (BitVec.ofNat 32 i) (b.setWidth 32) :: replayCells (i + 1) bs

/-- The expansion of a pseudo-instruction (R76). -/
def Pseudo.expand : Pseudo → List Instr
  | .restore k seed cells => .init k (some seed) :: replayCells 0 cells
  | .getk => [.getsize]

end Sys2Proof
end

