-- ==== Sys2Proof/WellFormed.lean ====
section
/-! DEFINITION. Which command values a frame can carry (30_encoding.md R63 to R67, R71). -/

namespace Sys2Proof

/-- A data item has at most `MAX_LEN` bytes (R66). -/
def itemWf (maxLen : Nat) (data : List Byte) : Bool := decide (data.length ≤ maxLen)

/-- The operand checks the encoding itself makes, for a block with this `MAX_LEN`. `k`, seeds, INDEX and RANK are not restricted (R63, R64, R65); an ADDV has at most
65535 items (its count is the 16-bit `ARG`); a MERGE operand has a precision in 2 .. 16 and exactly `2^OK` bytes (R71, R72). -/
def Instr.wfWith (maxLen : Nat) : Instr → Bool
  | .init _ _ => true
  | .add data => itemWf maxLen data
  | .addv items => decide (items.length < 2 ^ 16) && items.all (itemWf maxLen)
  | .hash _ data => itemWf maxLen data
  | .card => true
  | .merge ok operand =>
      decide (Config.kMin ≤ ok.toNat) && decide (ok.toNat ≤ Config.kMax) && decide (operand.length = 2 ^ ok.toNat)
  | .rdregs => true
  | .setreg _ _ => true
  | .getseed => true
  | .getsize => true

/-- The same for this block's `MAX_LEN`. -/
def Instr.wf (i : Instr) : Bool := i.wfWith Config.maxLen

end Sys2Proof
end

