-- ==== Sys2Proof/Decode.lean ====
section
/-! DEFINITION. The decoder of 30_encoding.md R71, total on every list of words, and the encoder of R61 to R67 after it. -/

namespace Sys2Proof

/-! ## Bytes and words (R66, R67, 20_memory.md R44) -/

/-- `le32` (R11): four bytes, the first least significant. -/
def le32 (b0 b1 b2 b3 : Byte) : Word :=
  b0.setWidth 32 ||| (b1.setWidth 32 <<< 8) ||| (b2.setWidth 32 <<< 16) ||| (b3.setWidth 32 <<< 24)

/-- The four bytes of a word, least significant first. -/
def wordBytes (w : Word) : List Byte :=
  [w.extractLsb' 0 8, w.extractLsb' 8 8, w.extractLsb' 16 8, w.extractLsb' 24 8]

/-- A byte string packed four bytes to a word, first byte in bits 7:0, the padding of the last word 0 (R66, R67). -/
def packBytes : List Byte → List Word
  | [] => []
  | [a] => [le32 a 0 0 0]
  | [a, b] => [le32 a b 0 0]
  | [a, b, c] => [le32 a b c 0]
  | a :: b :: c :: d :: rest => le32 a b c d :: packBytes rest

/-- The bytes of a list of words in order. -/
def unpackWords : List Word → List Byte
  | [] => []
  | w :: ws => wordBytes w ++ unpackWords ws

/-! ## The header (R61) -/

/-- `OPC`, bits 31:24. -/
def headerOpc (h : Word) : Byte := h.extractLsb' 24 8
/-- `RSV`, bits 23:17. -/
def headerRsv (h : Word) : BitVec 7 := h.extractLsb' 17 7
/-- `S`, bit 16. -/
def headerS (h : Word) : Bool := h.getLsbD 16
/-- `ARG`, bits 15:0. -/
def headerArg (h : Word) : BitVec 16 := h.extractLsb' 0 16

/-- The opcode map of R62. -/
def Opcode.code : Opcode → Byte
  | .init => 0x01
  | .add => 0x02
  | .addv => 0x03
  | .hash => 0x04
  | .card => 0x05
  | .merge => 0x06
  | .rdregs => 0x07
  | .setreg => 0x08
  | .getseed => 0x09
  | .getsize => 0x0A

/-- Every defined opcode, in the order of the map. -/
def Opcode.all : List Opcode :=
  [.init, .add, .addv, .hash, .card, .merge, .rdregs, .setreg, .getseed, .getsize]

/-- The opcode of an `OPC` byte; `none` for the reserved values 0x00 and 0x0B .. 0xFF (R62). -/
def Opcode.ofCode (c : Byte) : Option Opcode := Opcode.all.find? fun op => op.code == c

/-- `S = 1` is legal only in INIT and HASH (R61). -/
def Opcode.takesSeed : Opcode → Bool
  | .init | .hash => true
  | .add | .addv | .card | .merge | .rdregs | .setreg | .getseed | .getsize => false

/-- `ARG` carries an operand only in INIT, ADDV and MERGE (R61). -/
def Opcode.takesArg : Opcode → Bool
  | .init | .addv | .merge => true
  | .add | .hash | .card | .rdregs | .setreg | .getseed | .getsize => false

/-! ## The decoder (R71, R72) -/

/-- The two decode errors (R71). -/
inductive DecodeError where
  | illegalFrame
  | illegalCommand
deriving DecidableEq, Repr

/-- The seed word, taken when `S = 1` (R64). -/
def takeSeed (s : Bool) (ws : List Word) : Option (Option Word × List Word) :=
  if s then
    match ws with
    | [] => none
    | w :: rest => some (some w, rest)
  else some (none, ws)

/-- `item()` of R71: a `LEN` word, `⌈LEN/4⌉` data words, padding bytes all 0 (R66). -/
def takeItem (maxLen : Nat) (ws : List Word) : Option (List Byte × List Word) :=
  match ws with
  | [] => none
  | len :: rest =>
    if len.toNat > maxLen then none
    else if rest.length < (len.toNat + 3) / 4 then none
    else
      let b := unpackWords (rest.take ((len.toNat + 3) / 4))
      if (b.drop len.toNat).all (· == 0) then
        some (b.take len.toNat, rest.drop ((len.toNat + 3) / 4))
      else none

/-- `N` data items one after another (R71, ADDV). -/
def takeItems (maxLen : Nat) : Nat → List Word → Option (List (List Byte) × List Word)
  | 0, ws => some ([], ws)
  | n + 1, ws =>
    match takeItem maxLen ws with
    | none => none
    | some (d, rest) =>
      match takeItems maxLen n rest with
      | none => none
      | some (ds, rest') => some (d :: ds, rest')

/-- The register vector of precision `p`: `2^(p-2)` words (R67). -/
def takeVector (p : Nat) (ws : List Word) : Option (List Byte × List Word) :=
  if ws.length < 2 ^ (p - 2) then none
  else some (unpackWords (ws.take (2 ^ (p - 2))), ws.drop (2 ^ (p - 2)))

/-- The operands of the command `op` from the payload, with the words left over (the `case` of R71). -/
def takeOperands (maxLen : Nat) (op : Opcode) (h : Word) (ws : List Word) : Option (Instr × List Word) :=
  match op with
  | .init =>
    match takeSeed (headerS h) ws with
    | none => none
    | some (seed, rest) => some (.init (headerArg h) seed, rest)
  | .add =>
    match takeItem maxLen ws with
    | none => none
    | some (d, rest) => some (.add d, rest)
  | .addv =>
    match takeItems maxLen (headerArg h).toNat ws with
    | none => none
    | some (ds, rest) => some (.addv ds, rest)
  | .hash =>
    match takeSeed (headerS h) ws with
    | none => none
    | some (seed, rest) =>
      match takeItem maxLen rest with
      | none => none
      | some (d, rest') => some (.hash seed d, rest')
  | .card => some (.card, ws)
  | .merge =>
    if (headerArg h).toNat < Config.kMin ∨ (headerArg h).toNat > Config.kMax then none
    else
      match takeVector (headerArg h).toNat ws with
      | none => none
      | some (o, rest) => some (.merge (headerArg h) o, rest)
  | .rdregs => some (.rdregs, ws)
  | .setreg =>
    match ws with
    | index :: rank :: rest => some (.setreg index rank, rest)
    | _ => none
  | .getseed => some (.getseed, ws)
  | .getsize => some (.getsize, ws)

/-- The header checks of R71 after the opcode's: `RSV = 0`, `S` and `ARG` only where the command uses them. -/
def headerLegal (op : Opcode) (h : Word) : Bool :=
  (headerRsv h == 0) && (!headerS h || op.takesSeed) && (headerArg h == 0 || op.takesArg)

/-- The decoder of R71 for a block with this `MAX_LEN`. It reads no state. -/
def decodeWith (maxLen : Nat) (ws : Frame) : Except DecodeError Instr :=
  match ws with
  | [] => .error .illegalFrame
  | h :: payload =>
    match Opcode.ofCode (headerOpc h) with
    | none => .error .illegalCommand
    | some op =>
      if headerLegal op h then
        match takeOperands maxLen op h payload with
        | some (i, []) => .ok i
        | _ => .error .illegalFrame
      else .error .illegalFrame

/-- The decoder of this block. -/
def decode (ws : Frame) : Except DecodeError Instr := decodeWith Config.maxLen ws

/-- The `OPC` echo of a response: bits 31:24 of the command header, 0x00 for an empty frame (R68). -/
def frameOpc (ws : Frame) : Byte :=
  match ws with
  | [] => 0
  | h :: _ => headerOpc h

/-! ## The encoder (R61 to R67) -/

/-- `header = OPC << 24 | S << 16 | ARG` (R61). -/
def encodeHeader (op : Opcode) (s : Bool) (arg : BitVec 16) : Word :=
  (op.code.setWidth 32 <<< 24) ||| ((BitVec.ofBool s).setWidth 32 <<< 16) ||| arg.setWidth 32

/-- The seed word of a command that carries one (R64). -/
def encodeSeed : Option Word → List Word
  | none => []
  | some w => [w]

/-- A data item: its length, then its bytes packed (R66). -/
def encodeItem (data : List Byte) : List Word := BitVec.ofNat 32 data.length :: packBytes data

/-- The frame of a command (R61 to R67). -/
def encode : Instr → Frame
  | .init k seed => encodeHeader .init seed.isSome k :: encodeSeed seed
  | .add data => encodeHeader .add false 0 :: encodeItem data
  | .addv items => encodeHeader .addv false (BitVec.ofNat 16 items.length) :: items.flatMap encodeItem
  | .hash seed data => encodeHeader .hash seed.isSome 0 :: (encodeSeed seed ++ encodeItem data)
  | .card => [encodeHeader .card false 0]
  | .merge ok operand => encodeHeader .merge false ok :: packBytes operand
  | .rdregs => [encodeHeader .rdregs false 0]
  | .setreg index rank => [encodeHeader .setreg false 0, index, rank]
  | .getseed => [encodeHeader .getseed false 0]
  | .getsize => [encodeHeader .getsize false 0]

/-! ## The opcode table's words (log 12) -/

/-- How many operand words follow the header `h` when they are all zero (R73 with every `LEN = 0`). -/
def zeroOperandWords (h : Word) : Nat :=
  match Opcode.ofCode (headerOpc h) with
  | some .init => if headerS h then 1 else 0
  | some .add => 1
  | some .addv => (headerArg h).toNat
  | some .hash => if headerS h then 2 else 1
  | some .merge =>
    if (headerArg h).toNat < Config.kMin ∨ (headerArg h).toNat > Config.kMax then 0
    else 2 ^ ((headerArg h).toNat - 2)
  | some .setreg => 2
  | some .card | some .rdregs | some .getseed | some .getsize | none => 0

/-- The words of a table number `w` of `nbits` bits: bits 31:0 are the first word, bits 63:32 the second, and so on. -/
def tableWords (nbits w : Nat) : List Word :=
  (List.range ((nbits + 31) / 32)).map fun j => BitVec.ofNat 32 (w >>> (32 * j))

/-- The frame the table number stands for: its words, then the operand words of zeros its header asks for. -/
def tableFrame (nbits w : Nat) : Frame :=
  match tableWords nbits w with
  | [] => []
  | h :: rest => h :: (rest ++ List.replicate (zeroOperandWords h - rest.length) 0)

/-- What the decoder reads from a table number. -/
def decodeTableWord (nbits w : Nat) : Option Instr :=
  match decode (tableFrame nbits w) with
  | .ok i => some i
  | .error _ => none

end Sys2Proof
end

