-- ==== Sys2Proof/Machine/State.lean ====
section
/-! DEFINITION. The state of one block (10_state.md R20 to R25, R33; 70_reset_and_hazards.md R230, R231), plain data. -/

namespace Sys2Proof.Machine

/-- The register store's physical memory (10_state.md R24, 20_memory.md R40): cells of one byte by index, as a list of (index, byte)
pairs in one canonical form, indices strictly rising and no listed byte 0. A cell that is not listed holds 0 (log 7). -/
abbrev Memory := List Host.Cell

/-- The canonical form: indices strictly rising, every listed byte different from what an unlisted cell holds. -/
def Memory.wf : Memory → Bool
  | [] => true
  | [(_, v)] => v != 0
  | (a, v) :: (b, w) :: m => v != 0 && decide (a < b) && Memory.wf ((b, w) :: m)

/-- What the outside can do to the block: present a command frame, or reset it (70_reset_and_hazards.md R233: "a trace is a list whose
items are either a command frame or `reset`"). -/
inductive HostEvent where
  | frame (ws : Frame)
  | reset
deriving DecidableEq, Repr

/-- The whole state. `draws` is the model's own (log 5); `port` is the trace of events still to come and `responses` the frames sent so
far, oldest first (log 8). -/
structure State where
  /-- `VALID` (R21): a sketch has been constructed. -/
  valid : Bool
  /-- `K` (R22): the precision. -/
  k : BitVec 5
  /-- `SEED` (R23). -/
  seed : Word
  /-- `reg[0 .. M-1]` and the physical cells beyond (R24, R25). -/
  store : Memory
  /-- The command stream (R60, R231). -/
  port : List HostEvent
  /-- The response stream (R60, R231). -/
  responses : List Frame
  /-- How many free values have been drawn (log 5). -/
  draws : Nat
deriving DecidableEq, Repr

/-- Nothing stops the machine: every error is an answer (60_exceptions.md R203, R242), so no reason for a fault exists. Safe: the type
is empty, no meaning can raise one. -/
inductive Fault where
deriving DecidableEq, Repr

/-- The one refusal is the host's. -/
inductive Refusal where
  /-- Raised by an arm of `exec` that has no meaning yet; no arm of this model raises it. Safe: the machine stops. -/
  | notModelled (mnemonic : String)
deriving DecidableEq, Repr

/-- The state right after reset (R33, R231): `VALID = 0`, both streams empty. `K`, `SEED` and every cell are unspecified there and no
command can read them; the zeros are DESIGN CHOICE (log 6, log 7), and so is the counter's 0 (log 5). -/
def State.reset : State where
  valid := false
  k := 0
  seed := 0
  store := []
  port := []
  responses := []
  draws := 0

end Sys2Proof.Machine
end

