-- ==== Sys2Proof/Machine/Flags.lean ====
section
/-! DEFINITION. The block has no flags (10_state.md R28). What a command reports about its outcome rides in its own response header:
the status codes (30_encoding.md R70), the regime codes (42_estimator.md R145), the header's layout (R68). -/

namespace Sys2Proof.Machine

/-- The status of a response (R70, R201). -/
inductive Status where
  | ok
  | invalidPrecision
  | sizeMismatch
  | indexOutOfRange
  | rankOutOfRange
  | noSketch
  | illegalCommand
  | illegalFrame
deriving DecidableEq, Repr

/-- The regime that produced an estimate (42_estimator.md R137, R138). -/
inductive Regime where
  | linear
  | raw
  | large
deriving DecidableEq, Repr

/-- The `STATUS` byte (R70). -/
def statusCode : Status → Byte
  | .ok => 0x00
  | .invalidPrecision => 0x01
  | .sizeMismatch => 0x02
  | .indexOutOfRange => 0x03
  | .rankOutOfRange => 0x04
  | .noSketch => 0x10
  | .illegalCommand => 0x11
  | .illegalFrame => 0x12

/-- The `INFO` byte of a CARD response (R145). -/
def regimeCode : Regime → Byte
  | .linear => 1
  | .raw => 2
  | .large => 3

/-- The status a decode error is answered with (R71). -/
def decodeStatus : DecodeError → Status
  | .illegalFrame => .illegalFrame
  | .illegalCommand => .illegalCommand

/-- The response header of R68: `OPC`, `INFO`, 0, `STATUS`. -/
def responseHeader (opc info : Byte) (st : Status) : Word :=
  (opc.setWidth 32 <<< 24) ||| (info.setWidth 32 <<< 16) ||| (statusCode st).setWidth 32

/-- A response with status OK (R68, R69). -/
def okFrame (opc info : Byte) (payload : List Word) : Frame := responseHeader opc info .ok :: payload

/-- An error response: the single word `OPC << 24 | STATUS`, no payload (R68, R203). -/
def errorFrame (opc : Byte) (st : Status) : Frame := [responseHeader opc 0 st]

end Sys2Proof.Machine
end

