-- ==== Sys2Proof/Machine/Ops.lean ====
section
/-! DEFINITION. The named operations: cells of the store (20_memory.md R41), the five primitives of the register store (10_state.md
R26), answering a command (00_scope.md R11 `respond`), ending it with an error (`raise`, 60_exceptions.md R203), and reset (R230). -/

namespace Sys2Proof.Machine

/-! ## Memory, one cell at a time -/

/-- `MemRead(a, 1)`: a cell that is not listed holds 0 (log 7). -/
def memRead : Memory → Nat → Byte
  | [], _ => 0
  | (b, w) :: m, a => if a = b then w else memRead m a

/-- `MemWrite(a, 1, v)`, keeping the canonical form. -/
def memWrite : Memory → Nat → Byte → Memory
  | [], a, v => if v = 0 then [] else [(a, v)]
  | (b, w) :: m, a, v =>
    if a < b then (if v = 0 then (b, w) :: m else (a, v) :: (b, w) :: m)
    else if a = b then (if v = 0 then m else (a, v) :: m)
    else (b, w) :: memWrite m a v

/-- Zero in the cells `0 .. n-1`; the cells from `n` on keep what they hold (45_config.md R189). -/
def memZero (n : Nat) (m : Memory) : Memory := m.filter fun c => decide (n ≤ c.1)

/-! ## The state's updates, each under one name -/

def State.withStore (s : State) (m : Memory) : State := { s with store := m }

def State.withPort (s : State) (p : List HostEvent) : State := { s with port := p }

/-- A response frame leaves the block (R60). -/
def State.send (s : State) (f : Frame) : State := { s with responses := s.responses ++ [f] }

/-- The next free value has been drawn (log 5). -/
def State.drawn (s : State) : State := { s with draws := s.draws + 1 }

/-- `zero_init(k)`, the first of the five primitives of the store (10_state.md R26): the cells `0 .. 2^k - 1` become 0. -/
def zeroInit (k : BitVec 5) (m : Memory) : Memory := memZero (2 ^ k.toNat) m

/-- A fresh sketch of precision `k` under `seed` stands in the block (45_config.md R186). -/
def State.construct (s : State) (k : BitVec 5) (seed : Word) : State :=
  { s with valid := true, k := k, seed := seed, store := zeroInit k s.store }

/-- `M = 2^K`, not stored (10_state.md R24). -/
def State.size (s : State) : Nat := 2 ^ s.k.toNat

/-! ## The other primitives of the register store (10_state.md R26) -/

/-- `read(i)`. -/
def readCell (s : State) (i : Nat) : Byte := memRead s.store i

/-- `max(a, b)` on bytes (R11). -/
def byteMax (a b : Byte) : Byte := if a.toNat < b.toNat then b else a

/-- `write_if_greater(i, v)`. -/
def writeIfGreater (m : Memory) (i : Nat) (v : Byte) : Memory := memWrite m i (byteMax (memRead m i) v)

/-- `snapshot()`: the bytes `reg[0], ..., reg[M-1]` as a value. -/
def snapshot (s : State) : List Byte := (List.range s.size).map (readCell s)

/-- `overwrite(i, v)`: raw, the old value is not read. -/
def overwrite (m : Memory) (i : Nat) (v : Byte) : Memory := memWrite m i v

/-! ## Ending a command -/

/-- `respond(w0, w1, ...)`: status OK with the payload (R11, R68). -/
def respond (op : Opcode) (info : Byte) (payload : List Word) (s : State) : Host.Outcome State Fault Refusal :=
  .next (s.send (okFrame op.code info payload))

/-- `raise <Error>`, the block's exception entry (60_exceptions.md R203): the architectural state is what it was, the one response word
carries the echoed opcode and the status, the block is ready for the next frame. There is no return from it (R204). -/
def raise (opc : Byte) (st : Status) (s : State) : Host.Outcome State Fault Refusal :=
  .next (s.send (errorFrame opc st))

/-- `if VALID = 0: raise NoSketch`, the first check of every command but INIT and HASH (60_exceptions.md R205, R210). -/
def needSketch (op : Opcode) (s : State) (run : Host.Outcome State Fault Refusal) : Host.Outcome State Fault Refusal :=
  if s.valid then run else raise op.code .noSketch s

/-- The reset event (R230, R233): `VALID = 0`; `K`, `SEED` and the cells are unspecified, here what `State.reset` names (log 6, log 7).
The events still to come and the responses already sent are not the block's (log 8); it sends no response. -/
def takeReset (s : State) : State :=
  { State.reset with port := s.port, responses := s.responses, draws := s.draws }

end Sys2Proof.Machine
end

