-- ==== Sys2Proof/Machine/Operands.lean ====
section
/-! DEFINITION. The operand forms: the seed operand (30_encoding.md R64), the index and rank of a hash (41_update.md R111 to R113), the
register vector of a response (R67). -/

namespace Sys2Proof.Machine

/-- The seed operand: the frame's seed word, or the default 314 (R64). -/
def seedOr (seed : Option Word) : Word := seed.getD Config.seedDefault

/-- `idx = h >> (32 - K)` (R111); there is no `+1`. -/
def hashIndex (k : Nat) (h : Word) : Nat := h.toNat >>> (32 - k)

/-- `tail = h mod 2^(32 - K)` (R111). -/
def hashTail (k : Nat) (h : Word) : Nat := h.toNat % 2 ^ (32 - k)

/-- `clz_w(t)`: the leading zeros of `t` seen as a `w`-bit field (R112). -/
def clz (w t : Nat) : Nat := if t = 0 then w else w - 1 - Nat.log2 t

/-- `rank = 1 + clz_w(tail)`, `w = 32 - K` (R113). -/
def hashRank (k : Nat) (h : Word) : Nat := 1 + clz (32 - k) (hashTail k h)

/-- The register vector as response words, cell `4j` in bits 7:0 of word `j` (R67). -/
def vectorWords (cells : List Byte) : List Word := packBytes cells

/-- A binary64 value as two response words: bits 31:0, then bits 63:32 (42_estimator.md R146). -/
def f64Words (b : F64) : List Word := [b.extractLsb' 0 32, b.extractLsb' 32 32]

end Sys2Proof.Machine
end

