-- ==== Sys2Proof/Machine/Construct.lean ====
section
/-! DEFINITION. Construction: INIT (45_config.md R185 to R189). -/

namespace Sys2Proof.Machine

/-- INIT (R186): a precision outside 2 .. 16 is refused before any write (R187); else a fresh sketch replaces whatever stood (R188). -/
def execInit (k : BitVec 16) (seed : Option Word) (s : State) : Host.Outcome State Fault Refusal :=
  if k.toNat < Config.kMin ∨ Config.kMax < k.toNat then raise Opcode.init.code .invalidPrecision s
  else respond .init 0 [] (s.construct (k.extractLsb' 0 5) (seedOr seed))

end Sys2Proof.Machine
end

