-- ==== Sys2Proof/Machine/Float.lean ====
section
/-! DEFINITION. IEEE 754 binary64 arithmetic as 42_estimator.md R131 names it: correctly rounded, round to nearest, ties to even,
non-trapping, no fused operation, no status flags.

A finite value is a whole number of UNITS of `2^-1074`, the smallest subnormal, with a sign; every operation computes the exact result
as a ratio of whole numbers of units and rounds once. A NaN made inside a computation is `f64NaN`; which NaN it is never leaves the
block (42_estimator.md R142: the estimate's NaN is a free value, log 5). -/

namespace Sys2Proof.Machine

/-- The bits below the sign. -/
def f64Mag (x : F64) : Nat := x.toNat % 2 ^ 63

/-- The sign bit. -/
def f64Neg (x : F64) : Bool := x.msb

/-- The magnitude bits of infinity. -/
def f64InfMag : Nat := 0x7FF0000000000000

def f64IsNaN (x : F64) : Bool := decide (f64InfMag < f64Mag x)
def f64IsInf (x : F64) : Bool := decide (f64Mag x = f64InfMag)
def f64IsZero (x : F64) : Bool := decide (f64Mag x = 0)

/-- The value of sign and magnitude bits. -/
def f64Of (neg : Bool) (mag : Nat) : F64 := BitVec.ofNat 64 (if neg then 2 ^ 63 + mag else mag)

/-- The NaN of a computation; its bits are never observed. -/
def f64NaN : F64 := f64Of false 0x7FF8000000000000

/-- The magnitude of a finite value in units of `2^-1074`, from its magnitude bits. -/
def magUnits (mag : Nat) : Nat :=
  if mag / 2 ^ 52 = 0 then mag else (2 ^ 52 + mag % 2 ^ 52) * 2 ^ (mag / 2 ^ 52 - 1)

def f64Units (x : F64) : Nat := magUnits (f64Mag x)

/-- The signed value of a finite number in units. -/
def f64Value (x : F64) : Int := if f64Neg x then -(f64Units x : Int) else f64Units x

/-- The magnitude bits nearest to `p / q` units, ties to even; infinity when the result is too large. With `2^shift` units to one unit in
the last place, exponent and fraction together are `shift * 2^52 + m`, for subnormals and normals alike, and a carry out of the fraction
is a step of the exponent. -/
def roundMag (p q : Nat) : Nat :=
  let shift := Nat.log2 (p / q) - 52
  let d := q * 2 ^ shift
  let m := p / d
  let r := p % d
  let up := if d < 2 * r ∨ (2 * r = d ∧ m % 2 = 1) then 1 else 0
  min (shift * 2 ^ 52 + (m + up)) f64InfMag

/-- `fadd` (R131). -/
def fadd (x y : F64) : F64 :=
  if f64IsNaN x || f64IsNaN y then f64NaN
  else if f64IsInf x then (if f64IsInf y && (f64Neg x != f64Neg y) then f64NaN else x)
  else if f64IsInf y then y
  else
    let v := f64Value x + f64Value y
    f64Of (if v = 0 then f64Neg x && f64Neg y else decide (v < 0)) (roundMag v.natAbs 1)

/-- The value with the other sign. -/
def fneg (x : F64) : F64 := f64Of (!f64Neg x) (f64Mag x)

/-- `fsub` (R131). -/
def fsub (x y : F64) : F64 := fadd x (fneg y)

/-- `fmul` (R131). -/
def fmul (x y : F64) : F64 :=
  let neg := f64Neg x != f64Neg y
  if f64IsNaN x || f64IsNaN y then f64NaN
  else if f64IsInf x || f64IsInf y then (if f64IsZero x || f64IsZero y then f64NaN else f64Of neg f64InfMag)
  else f64Of neg (roundMag (f64Units x * f64Units y) (2 ^ 1074))

/-- `fdiv` (R131): a zero divided by zero or an infinity by an infinity is NaN, a non-zero divided by zero is an infinity. -/
def fdiv (x y : F64) : F64 :=
  let neg := f64Neg x != f64Neg y
  if f64IsNaN x || f64IsNaN y then f64NaN
  else if f64IsInf x then (if f64IsInf y then f64NaN else f64Of neg f64InfMag)
  else if f64IsInf y then f64Of neg 0
  else if f64IsZero y then (if f64IsZero x then f64NaN else f64Of neg f64InfMag)
  else f64Of neg (roundMag (f64Units x * 2 ^ 1074) (f64Units y))

/-- The place of a value in the order of the extended reals; an infinity lies beyond every finite value. -/
def f64Order (x : F64) : Int := if f64Neg x then -(f64Mag x : Int) else f64Mag x

/-- `fle`, the quiet comparison `x ≤ y` (R131): false when either is NaN. -/
def fle (x y : F64) : Bool := !f64IsNaN x && !f64IsNaN y && decide (f64Order x ≤ f64Order y)

/-- `fgt`, the quiet comparison `x > y` (R131). -/
def fgt (x y : F64) : Bool := !f64IsNaN x && !f64IsNaN y && decide (f64Order y < f64Order x)

/-- `of_nat(n)` (R131), exact for `n ≤ 2^32`. -/
def f64OfNat (n : Nat) : F64 := f64Of false (roundMag (n * 2 ^ 1074) 1)

/-- `pow2neg(r)` (R131): `2^(-r)`, exact for `r ≤ 255`. -/
def pow2neg (r : Nat) : F64 := f64Of false (roundMag (2 ^ (1074 - r)) 1)

end Sys2Proof.Machine
end

