-- ==== Sys2Proof/Machine/Log.lean ====
section
/-! DEFINITION. The parameter `LN` of 42_estimator.md R141 at its default, the correctly rounded natural logarithm. DESIGN CHOICE (the
spec leaves `LN` open and names this default): log 2, unsafe for a claim about the last bit of an estimate; the estimator's own
functions take any `ln`, and Safety.lean names the six properties a claim may assume.

`ln (a/b)` for `a ≥ b > 0` is `e * ln 2 + 2 * artanh z` with `2^e ≤ a/b < 2^(e+1)` and `z = (a - b 2^e) / (a + b 2^e) < 1/3`, in fixed
point with `lnPlaces` binary places, far more than any binary64 argument needs to tell on which side of a rounding boundary its
logarithm lies. -/

namespace Sys2Proof.Machine

/-- Binary places of the fixed-point logarithm. -/
def lnPlaces : Nat := 320

/-- `t/(2j+1) + t z²/(2j+3) + ...`, `n` terms; `t` is the odd power of `z`, `z2` its square, in fixed point. -/
def artanhTerms : Nat → Nat → Nat → Nat → Nat
  | 0, _, _, _ => 0
  | n + 1, z2, t, j => t / (2 * j + 1) + artanhTerms n z2 (t * z2 / 2 ^ lnPlaces) (j + 1)

/-- `artanh z` in fixed point, for `0 ≤ z ≤ 1/3`. -/
def artanhFix (z : Nat) : Nat := artanhTerms 110 (z * z / 2 ^ lnPlaces) z 0

/-- `ln 2 = 2 artanh (1/3)` in fixed point. -/
def ln2Fix : Nat := 2 * artanhFix (2 ^ lnPlaces / 3)

/-- `ln (a/b)` in fixed point, for `a ≥ b > 0`. -/
def lnFix (a b : Nat) : Nat :=
  let e := Nat.log2 (a / b)
  let c := b * 2 ^ e
  e * ln2Fix + 2 * artanhFix ((a - c) * 2 ^ lnPlaces / (a + c))

/-- `LN` (R141): −∞ at a zero, NaN below zero and for NaN, +∞ at +∞. -/
def LN (x : F64) : F64 :=
  if f64IsNaN x then f64NaN
  else if f64IsZero x then f64Of true f64InfMag
  else if f64Neg x then f64NaN
  else if f64IsInf x then x
  else if 2 ^ 1074 ≤ f64Units x then f64Of false (roundMag (lnFix (f64Units x) (2 ^ 1074) * 2 ^ 1074) (2 ^ lnPlaces))
  else f64Of true (roundMag (lnFix (2 ^ 1074) (f64Units x) * 2 ^ 1074) (2 ^ lnPlaces))

end Sys2Proof.Machine
end

