-- ==== Sys2Proof/Machine/Estimator.lean ====
section
/-! DEFINITION. The cardinality estimator (42_estimator.md R130 to R142) over any logarithm, and CARD (R145). -/

namespace Sys2Proof.Machine

/-! ## Constants, as the bit patterns of R132 -/

def c0673 : F64 := 0x3FE589374BC6A7F0
def c0697 : F64 := 0x3FE64DD2F1A9FBE7
def c0709 : F64 := 0x3FE6B020C49BA5E3
def c07213 : F64 := 0x3FE714E3BCD35A86
def c1079 : F64 := 0x3FF14395810624DD
def cOne : F64 := 0x3FF0000000000000
def c25 : F64 := 0x4004000000000000
def c30 : F64 := 0x403E000000000000
/-- `TWO32 = 2^32`. -/
def cTwo32 : F64 := 0x41F0000000000000
/-- `-TWO32` (R138). -/
def cNegTwo32 : F64 := 0xC1F0000000000000
/-- `T_LARGE = fdiv(TWO32, 30.0)`. -/
def tLarge : F64 := 0x41A1111111111111

/-- The bias constant `alpha(M)` (R133). -/
def alpha (m : Nat) : F64 :=
  if m = 16 then c0673
  else if m = 32 then c0697
  else if m = 64 then c0709
  else fdiv c07213 (fadd cOne (fdiv c1079 (f64OfNat m)))

/-- The indicator sum in steps of `2^-255`, exact: a cell that holds `r` adds `2^(255-r)`. -/
def indicatorSteps (cells : List Byte) : Nat := (cells.map fun r => 2 ^ (255 - r.toNat)).sum

/-- `Z = Σ 2^(-reg[i])` (R134), summed exactly (R135, D14) and rounded once; while every cell is at most 32 nothing is rounded. -/
def indicatorSum (cells : List Byte) : F64 := f64Of false (roundMag (indicatorSteps cells * 2 ^ 1074) (2 ^ 255))

/-- `E_raw = fdiv(fmul(alpha(M), of_nat(M*M)), Z)` (R136). -/
def rawEstimate (m : Nat) (cells : List Byte) : F64 := fdiv (fmul (alpha m) (f64OfNat (m * m))) (indicatorSum cells)

/-- `V`: how many cells hold 0 (R137). -/
def zeroCells (cells : List Byte) : Nat := cells.count 0

/-- The linear-counting estimate `M * LN(M / V)` (R137). -/
def linearEstimate (ln : F64 → F64) (m v : Nat) : F64 := fmul (f64OfNat m) (ln (fdiv (f64OfNat m) (f64OfNat v)))

/-- The large-range estimate `-2^32 * LN(1 - E_raw / 2^32)` (R138), also outside the logarithm's domain (R142). -/
def largeEstimate (ln : F64 → F64) (raw : F64) : F64 := fmul cNegTwo32 (ln (fsub cOne (fdiv raw cTwo32)))

/-- The three-regime procedure (R139, with R140's reading of the case `V = 0`). -/
def estimate (ln : F64 → F64) (k : Nat) (cells : List Byte) : Regime × F64 :=
  let m := 2 ^ k
  let raw := rawEstimate m cells
  if fle raw (fmul c25 (f64OfNat m)) then
    if 0 < zeroCells cells then (.linear, linearEstimate ln m (zeroCells cells))
    else (.raw, raw)
  else if fgt raw tLarge then (.large, largeEstimate ln raw)
  else (.raw, raw)

/-- The n-th NaN estimate: a quiet NaN, its sign and payload free (R142, log 5). -/
def drawnNaN (n : Nat) : F64 :=
  (((Config.freeNaN n).extractLsb' 51 1).setWidth 64 <<< 63) ||| 0x7FF8000000000000 |||
    ((Config.freeNaN n).extractLsb' 0 51).setWidth 64

/-- CARD with a given logarithm: the regime in `INFO`, the estimate's two words (R145, R146); a NaN's bits are drawn. It writes no
state the spec names. -/
def cardWith (ln : F64 → F64) (s : State) : Host.Outcome State Fault Refusal :=
  needSketch .card s <|
    let r := estimate ln s.k.toNat (snapshot s)
    if f64IsNaN r.2 then respond .card (regimeCode r.1) (f64Words (drawnNaN s.draws)) s.drawn
    else respond .card (regimeCode r.1) (f64Words r.2) s

/-- CARD (R145). -/
def execCard (s : State) : Host.Outcome State Fault Refusal := cardWith LN s

end Sys2Proof.Machine
end

