-- ==== Sys2Proof/Machine/Inspect.lean ====
section
/-! DEFINITION. Inspection and direct mutation: RDREGS (44_inspect.md R171), SETREG (R174, R175), GETSEED (R178), GETSIZE (R179). -/

namespace Sys2Proof.Machine

/-- RDREGS (R171): every cell at one instant, packed. -/
def execRdregs (s : State) : Host.Outcome State Fault Refusal :=
  needSketch .rdregs s <| respond .rdregs 0 (vectorWords (snapshot s)) s

/-- SETREG (R174): the index is checked first (R175), both as full 32-bit unsigned numbers; then the raw overwrite. -/
def execSetreg (index rank : Word) (s : State) : Host.Outcome State Fault Refusal :=
  needSketch .setreg s <|
    if s.size ≤ index.toNat then raise Opcode.setreg.code .indexOutOfRange s
    else if Config.rankMax < rank.toNat then raise Opcode.setreg.code .rankOutOfRange s
    else respond .setreg 0 [] (s.withStore (overwrite s.store index.toNat (rank.extractLsb' 0 8)))

/-- GETSEED (R178). -/
def execGetseed (s : State) : Host.Outcome State Fault Refusal :=
  needSketch .getseed s <| respond .getseed 0 [s.seed] s

/-- GETSIZE (R179): `1 << K` as a word. -/
def execGetsize (s : State) : Host.Outcome State Fault Refusal :=
  needSketch .getsize s <| respond .getsize 0 [(1 : Word) <<< s.k.toNat] s

end Sys2Proof.Machine
end

