-- ==== Sys2Proof/Machine/Merge.lean ====
section
/-! DEFINITION. The merge unit: MERGE (43_merge.md R160 to R163). -/

namespace Sys2Proof.Machine

/-- The pointwise maximum: cell `i + j` of the store with byte `j` of the operand. -/
def mergeCells : Nat → List Byte → Memory → Memory
  | _, [], m => m
  | i, b :: bs, m => mergeCells (i + 1) bs (writeIfGreater m i b)

/-- MERGE (R161): size check, then the scan of every operand byte (R163), then the maximum in every cell. -/
def execMerge (ok : BitVec 16) (operand : List Byte) (s : State) : Host.Outcome State Fault Refusal :=
  needSketch .merge s <|
    if ok.toNat ≠ s.k.toNat then raise Opcode.merge.code .sizeMismatch s
    else if operand.any (fun b => decide (Config.rankMax < b.toNat)) then raise Opcode.merge.code .rankOutOfRange s
    else respond .merge 0 [] (s.withStore (mergeCells 0 operand s.store))

end Sys2Proof.Machine
end

