-- ==== Sys2Proof/Machine/Hash.lean ====
section
/-! DEFINITION. The Murmur3-32 hash mixer (40_hash.md R90 to R97) over the parameters of R92, and HASH (R100). -/

namespace Sys2Proof.Machine

/-- `rotl32(x, r)` (00_scope.md R11). -/
def rotl32 (x : Word) (r : Nat) : Word := (x <<< r) ||| (x >>> (32 - r))

/-- `scramble(k) = rotl32(k * C1, R1) * C2` (R94). -/
def scramble (p : HashParams) (k : Word) : Word := rotl32 (k * p.c1) p.r1 * p.c2

/-- One body block mixed into the state (R94). -/
def mixBlock (p : HashParams) (h k : Word) : Word := rotl32 (h ^^^ scramble p k) p.r2 * p.mul5 + p.addn

/-- The hash tail's value `t`: the remaining 1 to 3 bytes, first byte least significant, zero-extended (R95). -/
def tailWord : List Byte → Word
  | [a] => le32 a 0 0 0
  | [a, b] => le32 a b 0 0
  | [a, b, c] => le32 a b c 0
  | _ => 0

/-- The body (R93) and then the hash tail (R95): the tail is scrambled and xored in, without the rotate-multiply-add; with no byte left
it does nothing. -/
def mixData (p : HashParams) (h : Word) : List Byte → Word
  | [] => h
  | [a] => h ^^^ scramble p (tailWord [a])
  | [a, b] => h ^^^ scramble p (tailWord [a, b])
  | [a, b, c] => h ^^^ scramble p (tailWord [a, b, c])
  | a :: b :: c :: d :: rest => mixData p (mixBlock p h (le32 a b c d)) rest

/-- The final avalanche (R96, after the length). -/
def avalanche (p : HashParams) (h : Word) : Word :=
  let h := h ^^^ (h >>> p.fs1)
  let h := h * p.fm1
  let h := h ^^^ (h >>> p.fs2)
  let h := h * p.fm2
  h ^^^ (h >>> p.fs3)

/-- `murmur3_32(data, seed)` (R97) over any parameters. -/
def murmur3With (p : HashParams) (data : List Byte) (seed : Word) : Word :=
  avalanche p (mixData p seed data ^^^ BitVec.ofNat 32 data.length)

/-- `murmur3_32(data, seed)` with the block's parameters. -/
def murmur3 (data : List Byte) (seed : Word) : Word := murmur3With Config.hash data seed

/-- HASH (R100) with any constants: answers the hash under the frame's seed, or under 314; it reads and writes no state, and needs no
sketch (R101). -/
def hashWith (p : HashParams) (seed : Option Word) (data : List Byte) (s : State) : Host.Outcome State Fault Refusal :=
  respond .hash 0 [murmur3With p data (seedOr seed)] s

/-- HASH (R100). -/
def execHash (seed : Option Word) (data : List Byte) (s : State) : Host.Outcome State Fault Refusal := hashWith Config.hash seed data s

end Sys2Proof.Machine
end

