-- ==== Sys2Proof/Machine/Update.lean ====
section
/-! DEFINITION. The register update: ADD (41_update.md R115), ADDV (R117) and the arbiter with its max-tree (R118). -/

namespace Sys2Proof.Machine

/-- The `(idx, rank)` pair a data item is turned into under the sketch's seed and precision (R110 to R113), with any hash constants. -/
def updatePairWith (p : HashParams) (s : State) (data : List Byte) : Nat × Byte :=
  let h := murmur3With p data s.seed
  (hashIndex s.k.toNat h, BitVec.ofNat 8 (hashRank s.k.toNat h))

/-- The same with this block's constants. -/
def updatePair (s : State) (data : List Byte) : Nat × Byte := updatePairWith Config.hash s data

/-- The max-tree: the largest rank a set of pairs aims at cell `i`; 0, the maximum of the empty set, when none does (R117, R118). -/
def maxAimedAt (i : Nat) : List (Nat × Byte) → Byte
  | [] => 0
  | (j, r) :: ps => if j = i then byteMax r (maxAimedAt i ps) else maxAimedAt i ps

/-- One round of the arbiter: each cell a pair of the group aims at gets the maximum of its old value and of all ranks aimed at it. The
group is taken together: the ranks come from the whole group `all`. -/
def retireGroup (all : List (Nat × Byte)) : List (Nat × Byte) → Memory → Memory
  | [], m => m
  | (i, _) :: ps, m => retireGroup all ps (writeIfGreater m i (maxAimedAt i all))

/-- The arbiter (R118): the pairs in groups of `lanes`, every pair applied, none to another cell. `fuel` bounds the rounds; the number
of pairs is enough for any `lanes ≥ 1`. -/
def arbitrateRounds (lanes : Nat) : Nat → List (Nat × Byte) → Memory → Memory
  | 0, _, m => m
  | _ + 1, [], m => m
  | fuel + 1, p :: ps, m =>
    arbitrateRounds lanes fuel ((p :: ps).drop lanes) (retireGroup ((p :: ps).take lanes) ((p :: ps).take lanes) m)

def arbitrate (lanes : Nat) (ps : List (Nat × Byte)) (m : Memory) : Memory := arbitrateRounds lanes ps.length ps m

/-- ADD (R115) with any hash constants: the selected cell is raised to the item's rank if it is lower. -/
def addWith (p : HashParams) (data : List Byte) (s : State) : Host.Outcome State Fault Refusal :=
  needSketch .add s <|
    let q := updatePairWith p s data
    respond .add 0 [] (s.withStore (writeIfGreater s.store q.1 q.2))

/-- ADDV (R117) with any hash constants and number of lanes: the pairs of all the items, through the arbiter. -/
def addvWith (p : HashParams) (lanes : Nat) (items : List (List Byte)) (s : State) : Host.Outcome State Fault Refusal :=
  needSketch .addv s <|
    respond .addv 0 [] (s.withStore (arbitrate lanes (items.map (updatePairWith p s)) s.store))

/-- ADD (R115). -/
def execAdd (data : List Byte) (s : State) : Host.Outcome State Fault Refusal := addWith Config.hash data s

/-- ADDV (R117). -/
def execAddv (items : List (List Byte)) (s : State) : Host.Outcome State Fault Refusal := addvWith Config.hash Config.lanes items s

end Sys2Proof.Machine
end

