-- ==== Sys2Proof/Machine/Dispatch.lean ====
section
/-! DEFINITION. One arm per command of 30_encoding.md R62, each one call of its meaning. -/

namespace Sys2Proof.Machine

def exec (i : Instr) (s : State) : Host.Outcome State Fault Refusal :=
  match i with
  | .init k seed => Sys2Proof.Machine.execInit k seed s
  | .add data => Sys2Proof.Machine.execAdd data s
  | .addv items => Sys2Proof.Machine.execAddv items s
  | .hash seed data => Sys2Proof.Machine.execHash seed data s
  | .card => Sys2Proof.Machine.execCard s
  | .merge ok operand => Sys2Proof.Machine.execMerge ok operand s
  | .rdregs => Sys2Proof.Machine.execRdregs s
  | .setreg index rank => Sys2Proof.Machine.execSetreg index rank s
  | .getseed => Sys2Proof.Machine.execGetseed s
  | .getsize => Sys2Proof.Machine.execGetsize s

end Sys2Proof.Machine
end

