-- ==== Sys2Proof/Machine/Fetch.lean ====
section
/-! DEFINITION. What the block finds at its command port (30_encoding.md R60, R71; 70_reset_and_hazards.md R233). -/

namespace Sys2Proof.Machine

/-- The four things a step can find, each with the state after the event has left the port. -/
inductive Fetched where
  /-- No event: the block waits (10_state.md R27). -/
  | idle
  /-- A reset event (R233). -/
  | reset (s : State)
  /-- A frame that decodes to a command. -/
  | command (i : Instr) (s : State)
  /-- A frame that does not decode: the opcode to echo and the status (R71, R72). -/
  | rejected (opc : Byte) (st : Status) (s : State)
deriving DecidableEq, Repr

/-- Take the next event from the port and decode a frame by `dec`. -/
def fetchBy (dec : Frame → Except DecodeError Instr) (s : State) : Fetched :=
  match s.port with
  | [] => .idle
  | .reset :: rest => .reset (s.withPort rest)
  | .frame ws :: rest =>
    match dec ws with
    | .ok i => .command i (s.withPort rest)
    | .error e => .rejected (frameOpc ws) (decodeStatus e) (s.withPort rest)

/-- The event placed so that the next fetch takes it; the events already there follow it. -/
def presentFrame (s : State) (ws : Frame) : State := s.withPort (.frame ws :: s.port)

end Sys2Proof.Machine
end

