-- ==== Sys2Proof/Machine/Parameters.lean ====
section
/-! DEFINITION. The commands of a block with any values of the open parameters (00_scope.md R7; 10_state.md R31). Dispatch.lean's `exec` is
the instance at `defaults`. -/

namespace Sys2Proof.Machine

/-- The parameters of this block, each at the default of R7 (log 1 to log 4). -/
def defaults : Params where
  hash := Config.hash
  ln := LN
  maxLen := Config.maxLen
  lanes := Config.lanes

/-- A command of a block with the parameters `p`. MAX_LEN is the decoder's (R71). -/
def execWith (p : Params) (i : Instr) (s : State) : Host.Outcome State Fault Refusal :=
  match i with
  | .init k seed => execInit k seed s
  | .add data => addWith p.hash data s
  | .addv items => addvWith p.hash p.lanes items s
  | .hash seed data => hashWith p.hash seed data s
  | .card => cardWith p.ln s
  | .merge ok operand => execMerge ok operand s
  | .rdregs => execRdregs s
  | .setreg index rank => execSetreg index rank s
  | .getseed => execGetseed s
  | .getsize => execGetsize s

end Sys2Proof.Machine
end

