-- ==== Sys2Proof/Machine/Step.lean ====
section
/-! DEFINITION. One step: the next event at the port, whole (00_scope.md R8, 20_memory.md R46). -/

namespace Sys2Proof.Machine

/-- A step executes one command, or answers a frame that is none (R71), or takes a reset (R233), or waits. `dec` reads a frame, `run`
executes a command. -/
def stepBy (dec : Frame → Except DecodeError Instr) (run : Instr → State → Host.Outcome State Fault Refusal) (s : State) :
    Host.Outcome State Fault Refusal :=
  match fetchBy dec s with
  | .idle => .next s
  | .reset s' => .next (takeReset s')
  | .command i s' => run i s'
  | .rejected opc st s' => raise opc st s'

/-- The step of a block with the parameters `p` (10_state.md R31). -/
def stepWith (p : Params) (s : State) : Host.Outcome State Fault Refusal := stepBy (decodeWith p.maxLen) (execWith p) s

/-- The step of this block: `stepWith defaults`. -/
def step (s : State) : Host.Outcome State Fault Refusal := stepBy decode exec s

/-- The state with the opcode table's word presented as the next frame (log 8, log 12). -/
def State.withFetchWord (s : State) (nbits w : Nat) : State := presentFrame s (tableFrame nbits w)

end Sys2Proof.Machine
end

