-- ==== Sys2Proof/Safety.lean ====
section
/-! DEFINITION. The terms claims are made in: the invariants of 10_state.md R25, the shape of a response, what a host can observe, what
a command keeps, the six properties of the parameter `LN`, the adder trees of 42_estimator.md R135. -/

namespace Sys2Proof.Machine

/-! ## Invariants -/

/-- The invariants every step keeps. (I-len) of R25 holds by construction: the store's cells are the indices below `2^K`. -/
structure Invariants (s : State) : Prop where
  /-- The memory is in its canonical form. -/
  canonical : Memory.wf s.store = true
  /-- No cell outside the physical memory (R24). -/
  bounded : ∀ c ∈ s.store, c.1 < Config.physicalCells
  /-- `2 ≤ K ≤ 16` while a sketch exists (R22). -/
  precision : s.valid = true → Config.kMin ≤ s.k.toNat ∧ s.k.toNat ≤ Config.kMax
  /-- (I-range): every cell of the sketch is at most 32 (R25). -/
  range : s.valid = true → ∀ i, i < s.size → (readCell s i).toNat ≤ Config.rankMax

/-- The shape of every response frame: a header of 30_encoding.md R68 with one of the statuses of R70, `INFO` a regime code, 1 to
3, in a CARD response with status OK and 0 in every other, and no payload with an error. -/
def ResponseShaped (f : Frame) : Prop :=
  ∃ (opc info : Byte) (st : Status) (payload : List Word),
    f = responseHeader opc info st :: payload ∧
    info.toNat ≤ 3 ∧
    (opc = Opcode.card.code → st = .ok → 1 ≤ info.toNat) ∧
    (opc ≠ Opcode.card.code → info = 0) ∧
    (st ≠ .ok → info = 0 ∧ payload = [])

/-- Every response sent so far has that shape. -/
def ResponsesShaped (s : State) : Prop := ∀ f ∈ s.responses, ResponseShaped f

/-! ## What a command keeps -/

/-- The control state, the command stream and the model's own counter are the same. -/
def ControlKept (s t : State) : Prop :=
  t.valid = s.valid ∧ t.k = s.k ∧ t.seed = s.seed ∧ t.port = s.port ∧ t.draws = s.draws

/-- Every cell, of the sketch and beyond it, reads as before. -/
def CellsKept (s t : State) : Prop := ∀ a, readCell t a = readCell s a

/-- The response stream grew by exactly the frame `f`. -/
def Answered (s t : State) (f : Frame) : Prop := t.responses = s.responses ++ [f]

/-- The command is turned away with the one response word `w`; everything else is exactly as before (60_exceptions.md R203). -/
def Refuses (i : Instr) (s : State) (w : Word) : Prop := exec i s = .next (s.send [w])

/-! ## What a host can observe -/

/-- The two states differ in nothing a command can read: the same streams, both with a sketch or both without; with one, the same
precision, seed and cells below `2^K` (10_state.md R21, R24). -/
def SameToTheHost (s t : State) : Prop :=
  s.port = t.port ∧ s.responses = t.responses ∧ s.draws = t.draws ∧ s.valid = t.valid ∧
  (s.valid = true → s.k = t.k ∧ s.seed = t.seed ∧ ∀ i, i < s.size → readCell s i = readCell t i)

/-! ## Sequences of commands -/

/-- Commands one after another (20_memory.md R48). -/
def execAll : List Instr → State → Host.Outcome State Fault Refusal
  | [], s => .next s
  | i :: is, s =>
    match exec i s with
    | .next t => execAll is t
    | .fault r => .fault r
    | .refused r => .refused r

end Sys2Proof.Machine

namespace Sys2Proof

/-- The commands that only raise cells: ADD, ADDV, MERGE (10_state.md R25 (I-mono)). -/
def Instr.raisesOnly : Instr → Bool
  | .add _ | .addv _ | .merge _ _ => true
  | .init _ _ | .hash _ _ | .card | .rdregs | .setreg _ _ | .getseed | .getsize => false

/-- The commands whose rule says "State written: none". -/
def Instr.readsOnly : Instr → Bool
  | .hash _ _ | .card | .rdregs | .getseed | .getsize => true
  | .init _ _ | .add _ | .addv _ | .merge _ _ | .setreg _ _ => false

/-- The commands that need a sketch: all but INIT and HASH (60_exceptions.md R205). -/
def Instr.needsSketch : Instr → Bool
  | .init _ _ | .hash _ _ => false
  | .add _ | .addv _ | .card | .merge _ _ | .rdregs | .setreg _ _ | .getseed | .getsize => true

end Sys2Proof

namespace Sys2Proof.Machine

/-- The first error in the fixed order of 60_exceptions.md R205, `ok` when there is none. -/
def firstError (ws : Frame) (s : State) : Status :=
  match decode ws with
  | .error e => decodeStatus e
  | .ok i =>
    if i.needsSketch = true ∧ s.valid = false then .noSketch
    else
      match i with
      | .init k _ => if k.toNat < 2 ∨ 16 < k.toNat then .invalidPrecision else .ok
      | .merge ok o =>
        if ok.toNat ≠ s.k.toNat then .sizeMismatch
        else if ∃ b ∈ o, 32 < b.toNat then .rankOutOfRange
        else .ok
      | .setreg index rank =>
        if 2 ^ s.k.toNat ≤ index.toNat then .indexOutOfRange
        else if 32 < rank.toNat then .rankOutOfRange
        else .ok
      | .add _ | .addv _ | .hash _ _ | .card | .rdregs | .getseed | .getsize => .ok

/-- Which command can end with which status (R206; `IllegalFrame` belongs to frames that are no command). -/
def possibleStatuses : Opcode → List Status
  | .init => [.ok, .invalidPrecision]
  | .add | .addv | .card | .rdregs | .getseed | .getsize => [.ok, .noSketch]
  | .hash => [.ok]
  | .merge => [.ok, .sizeMismatch, .rankOutOfRange, .noSketch]
  | .setreg => [.ok, .indexOutOfRange, .rankOutOfRange, .noSketch]

/-- The words a well-formed frame has (30_encoding.md R73). -/
def frameLength : Instr → Nat
  | .init _ seed => 1 + (if seed.isSome then 1 else 0)
  | .add data => 2 + (data.length + 3) / 4
  | .addv items => 1 + (items.map fun d => 1 + (d.length + 3) / 4).sum
  | .hash seed data => 1 + (if seed.isSome then 1 else 0) + 1 + (data.length + 3) / 4
  | .card | .rdregs | .getseed | .getsize => 1
  | .merge ok _ => 1 + 2 ^ (ok.toNat - 2)
  | .setreg _ _ => 3

/-! ## The logarithm -/

/-- A finite value above zero. -/
def f64Positive (x : F64) : Prop := f64Neg x = false ∧ 0 < f64Mag x ∧ f64Mag x < f64InfMag

/-- One unit in the last place of a value with these magnitude bits, in units of `2^-1074`. -/
def ulpUnits (mag : Nat) : Nat := 2 ^ (mag / 2 ^ 52 - 1)

/-- The six properties of the parameter `LN` (42_estimator.md R141), all a claim about CARD may assume of it. -/
structure LnSpec (ln : F64 → F64) : Prop where
  /-- (LN-one). -/
  one : ln cOne = f64Of false 0
  /-- (LN-pos): finite. -/
  finite : ∀ x, f64Positive x → f64Mag (ln x) < f64InfMag
  /-- (LN-pos): within one unit in the last place of the real logarithm. -/
  faithful : ∀ x, f64Positive x →
    |((f64Value (ln x) : ℤ) : ℝ) / 2 ^ 1074 - Real.log (((f64Value x : ℤ) : ℝ) / 2 ^ 1074)|
      ≤ ((ulpUnits (f64Mag (ln x)) : ℕ) : ℝ) / 2 ^ 1074
  /-- (LN-pos): above zero above one. -/
  above : ∀ x, f64Positive x → fgt x cOne = true → 0 < f64Value (ln x)
  /-- (LN-pos): below zero below one. -/
  below : ∀ x, f64Positive x → fgt cOne x = true → f64Value (ln x) < 0
  /-- (LN-mono). -/
  mono : ∀ x y, f64Positive x → f64Positive y → fle x y = true → fle (ln x) (ln y) = true
  /-- (LN-zero). -/
  zero : ∀ x, f64IsZero x = true → ln x = f64Of true f64InfMag
  /-- (LN-neg), with NaN itself: a quiet NaN, bit 51 set. -/
  neg : ∀ x, f64IsNaN x = true ∨ (f64Neg x = true ∧ f64IsZero x = false) → f64IsNaN (ln x) = true ∧ (ln x).getLsbD 51 = true
  /-- (LN-inf). -/
  inf : ln (f64Of false f64InfMag) = f64Of false f64InfMag

/-! ## The estimator read another way -/

/-- The procedure with the source's words "(or `V==0`)" taken literally: when no small-range correction applied, the large-range test is
made, also where the small-range test passed and `V = 0` (42_estimator.md R138, R140). -/
def literalEstimate (ln : F64 → F64) (k : Nat) (cells : List Byte) : Regime × F64 :=
  let m := 2 ^ k
  let raw := rawEstimate m cells
  if fle raw (fmul c25 (f64OfNat m)) = true ∧ 0 < zeroCells cells then (.linear, linearEstimate ln m (zeroCells cells))
  else if fgt raw tLarge then (.large, largeEstimate ln raw)
  else (.raw, raw)

/-- An adder tree over the terms of `Z` (R135). -/
inductive AdderTree where
  | cell (r : Byte)
  | sum (l r : AdderTree)
deriving DecidableEq, Repr

/-- The cells at the leaves, in order. -/
def AdderTree.cells : AdderTree → List Byte
  | .cell r => [r]
  | .sum l r => l.cells ++ r.cells

/-- What the tree computes: `pow2neg` at a leaf, `fadd` at a node (R134). -/
def AdderTree.eval : AdderTree → F64
  | .cell r => pow2neg r.toNat
  | .sum l r => fadd l.eval r.eval

/-! ## The hash as the spec's one program -/

/-- `le32(b, o)` with a byte past the end read as 0 (00_scope.md R11). -/
def le32At (b : List Byte) (o : Nat) : Word :=
  (b.getD o 0).setWidth 32 ||| ((b.getD (o + 1) 0).setWidth 32 <<< 8) |||
  ((b.getD (o + 2) 0).setWidth 32 <<< 16) ||| ((b.getD (o + 3) 0).setWidth 32 <<< 24)

/-- The body of the `for` loop of 40_hash.md R97. -/
def murmurLoop (p : HashParams) (data : List Byte) (h : Word) (i : Nat) : Word :=
  let k := le32At data (4 * i)
  let k := k * p.c1
  let k := rotl32 k p.r1
  let k := k * p.c2
  let h := h ^^^ k
  let h := rotl32 h p.r2
  h * p.mul5 + p.addn

/-- The program of 40_hash.md R97, line by line, by index into the data. -/
def murmurProgram (p : HashParams) (data : List Byte) (seed : Word) : Word :=
  let len := data.length
  let nb := len / 4
  let h := (List.range nb).foldl (murmurLoop p data) seed
  let o := 4 * nb
  let r := len - o
  let t : Word := 0
  let t := if r = 3 then t ^^^ ((data.getD (o + 2) 0).setWidth 32 <<< 16) else t
  let t := if 2 ≤ r then t ^^^ ((data.getD (o + 1) 0).setWidth 32 <<< 8) else t
  let h :=
    if 1 ≤ r then
      let t := t ^^^ (data.getD o 0).setWidth 32
      let t := t * p.c1
      let t := rotl32 t p.r1
      let t := t * p.c2
      h ^^^ t
    else h
  let h := h ^^^ BitVec.ofNat 32 len
  let h := h ^^^ (h >>> p.fs1)
  let h := h * p.fm1
  let h := h ^^^ (h >>> p.fs2)
  let h := h * p.fm2
  h ^^^ (h >>> p.fs3)

end Sys2Proof.Machine
end

