-- ==== Sys2Proof/Certificates/Slice0/Obligations.lean ====
section
/-! DEFINITION. The statements for the provers. Each docstring names the rule of spec/ it formalises. -/

open Sys2Proof Sys2Proof.Machine

/-! ## Encoding -/

/-- The frames of 95_test_vectors.md sections 2.1 to 2.7 and of the programs P1 to P5 stand for the commands written beside them there. -/
def Obligations.WordsOfTheSpecDecode : Prop :=
  decode [0x01000004] = .ok (.init 4 none) ∧
  decode [0x01010002, 0x00000001] = .ok (.init 2 (some 1)) ∧
  decode [0x02000000, 0x00000003, 0x00636261] = .ok (.add [0x61, 0x62, 0x63]) ∧
  decode [0x03000002, 0x00000003, 0x00636261, 0x00000004, 0x64636261]
    = .ok (.addv [[0x61, 0x62, 0x63], [0x61, 0x62, 0x63, 0x64]]) ∧
  decode [0x04010000, 0x00000001, 0x00000003, 0x00636261] = .ok (.hash (some 1) [0x61, 0x62, 0x63]) ∧
  decode [0x05000000] = .ok .card ∧
  decode [0x06000002, 0x02000401] = .ok (.merge 2 [1, 4, 0, 2]) ∧
  decode [0x07000000] = .ok .rdregs ∧
  decode [0x08000000, 0x00000002, 0x00000020] = .ok (.setreg 2 32) ∧
  decode [0x09000000] = .ok .getseed ∧
  decode [0x0A000000] = .ok .getsize ∧
  decode [0x02000000, 0x00000003, 0x01636261] = .error .illegalFrame ∧
  decode [0x0B000000] = .error .illegalCommand

/-- 30_encoding.md, the round-trip sentence after the decoder of R71: encoding then decoding is the identity on commands. -/
def Obligations.DecodeInvertsEncode : Prop :=
  ∀ i : Instr, i.wf = true → decode (encode i) = .ok i

/-- The other half of that sentence: decoding then encoding is the identity on the frames that decode, and what decodes is well-formed. -/
def Obligations.EncodeInvertsDecode : Prop :=
  ∀ (ws : Frame) (i : Instr), decode ws = .ok i → i.wf = true ∧ encode i = ws

/-- 60_exceptions.md R209: `IllegalFrame` is the answer exactly when the opcode is defined but the frame is not the encoding of any
command, or the frame is empty (the echoed opcode is then 0x00); nothing else changes. -/
def Obligations.IllegalFrameExactlyWhenNoCommandEncodesIt : Prop :=
  ∀ ws : Frame,
    (decode ws = .error .illegalFrame ↔
      ws = [] ∨ ((∃ h rest, ws = h :: rest ∧ 1 ≤ (h >>> 24).toNat ∧ (h >>> 24).toNat ≤ 10) ∧
        ∀ i : Instr, i.wf = true → encode i ≠ ws)) ∧
    (decode ws = .error .illegalFrame → ∀ (s : State) (rest : List HostEvent), s.port = .frame ws :: rest →
      step s = .next ((s.withPort rest).send [((ws.headD 0) >>> 24 <<< 24) ||| 0x12]))

/-- 60_exceptions.md R208: a header whose opcode is not one of 0x01 .. 0x0A is `IllegalCommand`, the response echoes the opcode, and the
rest of the frame is ignored. -/
def Obligations.UndefinedOpcodeIsIllegalCommand : Prop :=
  ∀ (h : Word) (rest : List Word) (s : State) (p : List HostEvent),
    ((h >>> 24).toNat < 1 ∨ 10 < (h >>> 24).toNat) → s.port = .frame (h :: rest) :: p →
      step s = .next ((s.withPort p).send [(h >>> 24 <<< 24) ||| 0x11])

/-- 30_encoding.md R72, the rows about the header: a reserved bit set, `S` or `ARG` where the command does not use them, MERGE with `ARG`
outside 2 .. 16, whatever the rest of the frame is. -/
def Obligations.HeaderMistakesAreIllegalFrame : Prop :=
  ∀ (h : Word) (rest : List Word),
    1 ≤ (h >>> 24).toNat → (h >>> 24).toNat ≤ 10 →
      ((∃ j, 17 ≤ j ∧ j ≤ 23 ∧ h.getLsbD j = true) → decode (h :: rest) = .error .illegalFrame) ∧
      (h.getLsbD 16 = true → (h >>> 24).toNat ≠ 1 → (h >>> 24).toNat ≠ 4 → decode (h :: rest) = .error .illegalFrame) ∧
      (h.toNat % 65536 ≠ 0 → (h >>> 24).toNat ≠ 1 → (h >>> 24).toNat ≠ 3 → (h >>> 24).toNat ≠ 6 →
        decode (h :: rest) = .error .illegalFrame) ∧
      ((h >>> 24).toNat = 6 → (h.toNat % 65536 < 2 ∨ 16 < h.toNat % 65536) → decode (h :: rest) = .error .illegalFrame)

/-- 30_encoding.md R66: a data item is its length, then its bytes four to a word, the first byte in bits 7:0, the padding 0. -/
def Obligations.DataItemLayout : Prop :=
  ∀ data : List Byte, data.length < 2 ^ 32 →
    (encodeItem data).length = 1 + (data.length + 3) / 4 ∧
    ((encodeItem data).getD 0 0).toNat = data.length ∧
    ∀ j, j < (data.length + 3) / 4 → (encodeItem data).getD (1 + j) 0 = le32At data (4 * j)

/-- 30_encoding.md R67: a register vector of precision `p` is `2^p` bytes in index order, word `j` holding cells `4j` to `4j+3`, without
a length word. -/
def Obligations.RegisterVectorLayout : Prop :=
  ∀ (p : Nat) (cells : List Byte), 2 ≤ p → cells.length = 2 ^ p →
    (packBytes cells).length = 2 ^ (p - 2) ∧
    (∀ j, j < 2 ^ (p - 2) → (packBytes cells).getD j 0 = le32At cells (4 * j)) ∧
    unpackWords (packBytes cells) = cells

/-- 30_encoding.md R73: the length a well-formed frame must have. -/
def Obligations.FrameHasTheLengthItsCommandImplies : Prop :=
  ∀ (ws : Frame) (i : Instr), decode ws = .ok i → ws.length = frameLength i

/-! ## Steps -/

/-- A step at a frame that decodes is `exec` of the decoded command, the frame having left the port (00_scope.md R8). -/
def Obligations.StepRunsTheDecodedCommand : Prop :=
  ∀ (s : State) (ws : Frame) (rest : List HostEvent) (i : Instr),
    s.port = .frame ws :: rest → decode ws = .ok i → step s = exec i (s.withPort rest)

/-- A step at a reset event clears `VALID` (70_reset_and_hazards.md R230) and sends no response (R233). That the events still to come and
the responses already sent stay, and that a step with no event leaves the state as it is, is the model's choice: DESIGN CHOICE, log 8. -/
def Obligations.StepResetsOrWaits : Prop :=
  (∀ (s : State) (rest : List HostEvent), s.port = .reset :: rest →
    ∃ t, step s = .next t ∧ t.valid = false ∧ t.responses = s.responses ∧ t.port = rest) ∧
  (∀ s : State, s.port = [] → step s = .next s)

/-- 30_encoding.md R60, 70_reset_and_hazards.md R242: whatever the state and the frame, the step answers with exactly one response frame,
whose header echoes bits 31:24 of the command header (R68), and takes the frame from the port. -/
def Obligations.EveryFrameIsAnsweredOnce : Prop :=
  ∀ (s : State) (ws : Frame) (rest : List HostEvent), s.port = .frame ws :: rest →
    ∃ (t : State) (w : Word) (payload : List Word), step s = .next t ∧ t.port = rest ∧ t.responses = s.responses ++ [w :: payload] ∧
      w >>> 24 = (ws.headD 0) >>> 24

/-- 60_exceptions.md R205 and R203: the status of the answer is the first error in the fixed order, and with an error the answer is the
single word `OPC << 24 | STATUS` and nothing else changes. -/
def Obligations.FirstErrorDecidesAndErrorsChangeNothing : Prop :=
  ∀ (s : State) (ws : Frame) (rest : List HostEvent), s.port = .frame ws :: rest →
    (firstError ws s ≠ .ok →
      step s = .next ((s.withPort rest).send [((ws.headD 0) >>> 24 <<< 24) ||| (statusCode (firstError ws s)).setWidth 32])) ∧
    (firstError ws s = .ok →
      ∃ (t : State) (w : Word) (payload : List Word), step s = .next t ∧ t.responses = s.responses ++ [w :: payload] ∧ w.extractLsb' 0 16 = 0)

/-- 60_exceptions.md R206: which command can end with which status. -/
def Obligations.StatusesOfEachCommand : Prop :=
  ∀ (i : Instr) (s : State), ∃ (t : State) (w : Word) (payload : List Word) (st : Status),
    exec i s = .next t ∧ t.responses = s.responses ++ [w :: payload] ∧
    w.extractLsb' 0 8 = statusCode st ∧ st ∈ possibleStatuses i.opcode

/-- The opcode table's word placed as the next frame runs as the command the decoder reads from it (the model's own interface, log 8 and
log 12). -/
def Obligations.WordPlacedRunsNext : Prop :=
  ∀ (s : State) (nbits w : Nat) (i : Instr), decodeTableWord nbits w = some i →
    step (s.withFetchWord nbits w) = exec i s

/-! ## Reset -/

/-- 10_state.md R33, 70_reset_and_hazards.md R231: after reset `VALID` is 0 and the streams are empty. (`K`, `SEED` and the cells are
unspecified there; the model's zeros, log 6 and log 7, are no part of this statement.) -/
def Obligations.ResetLeavesNoSketch : Prop :=
  State.reset.valid = false ∧ State.reset.port = [] ∧ State.reset.responses = [] ∧
  ∀ s : State, (takeReset s).valid = false

/-- 70_reset_and_hazards.md R232: what each command answers between reset and the first successful INIT. -/
def Obligations.AnswersBeforeConstruction : Prop :=
  ∀ (s : State) (ws : Frame) (rest : List HostEvent), s.valid = false → s.port = .frame ws :: rest →
    match decode ws with
    | .ok (.init k _) =>
      if 2 ≤ k.toNat ∧ k.toNat ≤ 16 then ∃ t, step s = .next t ∧ t.valid = true ∧ Answered s t [0x01000000]
      else step s = .next ((s.withPort rest).send [0x01000001])
    | .ok (.hash seed data) => step s = .next ((s.withPort rest).send [0x04000000, murmur3 data (seed.getD 314)])
    | .ok _ => step s = .next ((s.withPort rest).send [((ws.headD 0) >>> 24 <<< 24) ||| 0x10])
    | .error .illegalFrame => step s = .next ((s.withPort rest).send [((ws.headD 0) >>> 24 <<< 24) ||| 0x12])
    | .error .illegalCommand => step s = .next ((s.withPort rest).send [((ws.headD 0) >>> 24 <<< 24) ||| 0x11])

/-- 10_state.md R21, R24, 70_reset_and_hazards.md R231: two blocks that differ only in what no command can read (`K`, `SEED` and cells
without a sketch; the cells from `2^K` on with one) answer alike and stay so, step after step. -/
def Obligations.UnobservableStateStaysUnobservable : Prop :=
  ∀ s t : State, Memory.wf s.store = true → Memory.wf t.store = true → SameToTheHost s t →
    ∃ s' t', step s = .next s' ∧ step t = .next t' ∧ SameToTheHost s' t' ∧
      Memory.wf s'.store = true ∧ Memory.wf t'.store = true

/-- 70_reset_and_hazards.md R231: nothing a host can observe after reset depends on `K`, `SEED` or the cells the reset left, over any
number of steps and any events. -/
def Obligations.NothingLeftByResetIsObserved : Prop :=
  ∀ (n : Nat) (s : State) (k : BitVec 5) (seed : Word) (m : Memory),
    s.valid = false → Memory.wf s.store = true → Memory.wf m = true →
      ∃ s' t', core.run n s = .next s' ∧ core.run n { s with k := k, seed := seed, store := m } = .next t' ∧
        s'.responses = t'.responses

/-! ## Invariants -/

/-- The reset state meets the invariants. -/
def Obligations.ResetMeetsTheInvariants : Prop := Invariants State.reset ∧ ResponsesShaped State.reset

/-- 10_state.md R25: from every state that meets the invariants ((I-range), a legal precision, a canonical store inside the physical
memory), every step answers a next state that meets them; so does the step of a block with any other parameters (R31). -/
def Obligations.EveryStepKeepsTheInvariants : Prop :=
  ∀ s : State, Invariants s →
    (∃ t, step s = .next t ∧ Invariants t) ∧ ∀ p : Params, ∃ t, stepWith p s = .next t ∧ Invariants t

/-- 30_encoding.md R68, R70: every response ever sent has the shape of R68 and a status of R70, with no payload beside an error. -/
def Obligations.EveryResponseIsShaped : Prop :=
  ∀ s t : State, ResponsesShaped s → step s = .next t → ResponsesShaped t

/-- 10_state.md R25 (I-mono), read with conflict C2: no command but INIT and SETREG lowers a cell. -/
def Obligations.CellsNeverDecrease : Prop :=
  ∀ (i : Instr) (s t : State), Memory.wf s.store = true → (i.raisesOnly = true ∨ i.readsOnly = true) → exec i s = .next t →
    ∀ a, (readCell s a).toNat ≤ (readCell t a).toNat

/-- 10_state.md R21, R22, R23: only a successful INIT writes `K` and `SEED` and sets `VALID`; only reset clears it. -/
def Obligations.ControlIsWrittenByInitAndResetOnly : Prop :=
  (∀ (i : Instr) (s t : State), i.opcode ≠ .init → exec i s = .next t → t.valid = s.valid ∧ t.k = s.k ∧ t.seed = s.seed) ∧
  (∀ (k : BitVec 16) (seed : Option Word) (s t : State), exec (.init k seed) s = .next t →
    (t.valid = s.valid ∧ t.k = s.k ∧ t.seed = s.seed) ∨
    (2 ≤ k.toNat ∧ k.toNat ≤ 16 ∧ t.valid = true ∧ t.k.toNat = k.toNat ∧ t.seed = seed.getD 314)) ∧
  (∀ s t : State, step s = .next t → s.valid = true → t.valid = false → ∃ rest, s.port = .reset :: rest)

/-- 10_state.md R24, 20_memory.md R42: no well-formed command writes a cell from `2^K` on (`K` the precision after the command). -/
def Obligations.NoCellBeyondTheSketchIsWritten : Prop :=
  ∀ (i : Instr) (s t : State), i.wf = true → Memory.wf s.store = true → exec i s = .next t →
    ∀ a, 2 ^ t.k.toNat ≤ a → readCell t a = readCell s a

/-- 20_memory.md R46, and the rules' "State written: none": HASH, CARD, RDREGS, GETSEED and GETSIZE leave `VALID`, `K`, `SEED`, every cell
and the command stream as they were (the model's counter of free values is no state of the spec). -/
def Obligations.ReadingCommandsWriteNothing : Prop :=
  ∀ (i : Instr) (s : State), i.readsOnly = true →
    ∃ (t : State) (f : Frame), exec i s = .next t ∧ t.valid = s.valid ∧ t.k = s.k ∧ t.seed = s.seed ∧ t.store = s.store ∧ t.port = s.port ∧
      Answered s t f

/-- 60_exceptions.md R210: a command that needs a sketch, sent while `VALID = 0`, is refused with `NoSketch`; nothing is read or written. -/
def Obligations.NoSketchIsRefused : Prop :=
  ∀ (i : Instr) (s : State), i.needsSketch = true → s.valid = false →
    Refuses i s ((i.opcode.code.setWidth 32 <<< 24) ||| 0x10)

/-! ## INIT -/

/-- 45_config.md R186, R187: INIT, its encoding, its effect with a legal precision on any state, its refusal with any other. The physical
cells beyond the new sketch keep what they hold (R189). -/
def Obligations.InitConstructsOrIsRefused : Prop :=
  ∀ (k : BitVec 16) (seed : Option Word) (s : State),
    decode ((0x01000000 ||| k.setWidth 32) :: []) = .ok (.init k none) ∧
    (∀ w, decode ((0x01010000 ||| k.setWidth 32) :: [w]) = .ok (.init k (some w))) ∧
    (2 ≤ k.toNat → k.toNat ≤ 16 →
      ∃ t, exec (.init k seed) s = .next t ∧
        t.valid = true ∧ t.k.toNat = k.toNat ∧ t.seed = seed.getD 314 ∧
        (∀ a, a < 2 ^ k.toNat → readCell t a = 0) ∧
        (∀ a, 2 ^ k.toNat ≤ a → readCell t a = readCell s a) ∧
        t.port = s.port ∧ t.draws = s.draws ∧ Answered s t [0x01000000]) ∧
    (k.toNat < 2 ∨ 16 < k.toNat → Refuses (.init k seed) s 0x01000001)

/-! ## ADD and ADDV -/

/-- 41_update.md R111: the top `K` bits of the hash are the index, without an offset, the remaining `32 - K` bits are the tail. -/
def Obligations.HashSplitsIntoIndexAndTail : Prop :=
  ∀ (k : Nat) (h : Word), 2 ≤ k → k ≤ 16 →
    hashIndex k h < 2 ^ k ∧ hashTail k h < 2 ^ (32 - k) ∧
    h.toNat = hashIndex k h * 2 ^ (32 - k) + hashTail k h ∧
    hashIndex k h = (h >>> (32 - k)).toNat

/-- 41_update.md R112, R113: the rank is the 1-based position of the first set bit of the tail, `33 - K` exactly when the tail is 0. -/
def Obligations.RankIsThePlaceOfTheFirstSetBit : Prop :=
  ∀ (k : Nat) (h : Word), 2 ≤ k → k ≤ 16 →
    1 ≤ hashRank k h ∧ hashRank k h ≤ 33 - k ∧ hashRank k h ≤ 31 ∧
    hashRank k h = 1 + clz (32 - k) (hashTail k h) ∧
    (hashRank k h = 33 - k ↔ hashTail k h = 0) ∧
    ∀ j, 1 ≤ j → j ≤ 32 - k →
      (hashRank k h = j ↔ h.getLsbD (32 - k - j) = true ∧ ∀ b, 32 - k - j < b → b < 32 - k → h.getLsbD b = false)

/-- 41_update.md R114: with a 32-bit leading-zero counter, `rank = 1 + min(clz_32((h << K) mod 2^32), 32 - K)`. -/
def Obligations.RankByAThirtyTwoBitCounter : Prop :=
  ∀ (k : Nat) (h : Word), 2 ≤ k → k ≤ 16 →
    hashRank k h = 1 + min (clz 32 (h <<< k).toNat) (32 - k)

/-- 41_update.md R115, the effect of ADD on a constructed sketch: the one cell the hash under the sketch's own seed selects is raised to
the rank if it is lower; every other cell and all control state stay, the answer is OK without payload. -/
def Obligations.AddRaisesTheSelectedCell : Prop :=
  ∀ (data : List Byte) (s : State), Memory.wf s.store = true → s.valid = true →
    ∃ t, exec (.add data) s = .next t ∧ ControlKept s t ∧ Answered s t [0x02000000] ∧
      (readCell t (hashIndex s.k.toNat (murmur3 data s.seed))).toNat
        = max (readCell s (hashIndex s.k.toNat (murmur3 data s.seed))).toNat (hashRank s.k.toNat (murmur3 data s.seed)) ∧
      ∀ a, a ≠ hashIndex s.k.toNat (murmur3 data s.seed) → readCell t a = readCell s a

/-- 41_update.md R116: ADD is idempotent, and two ADDs commute. -/
def Obligations.AddIsIdempotentAndCommutes : Prop :=
  ∀ (a b : List Byte) (s : State), Memory.wf s.store = true → s.valid = true →
    ∃ ta taa tab tba, execAll [.add a] s = .next ta ∧ execAll [.add a, .add a] s = .next taa ∧
      execAll [.add a, .add b] s = .next tab ∧ execAll [.add b, .add a] s = .next tba ∧
      taa.store = ta.store ∧ tab = tba

/-- 41_update.md R117, the effect of ADDV on a constructed sketch: every cell becomes the maximum of its old value and of the ranks of
the items whose hash selects it; all control state stays, the answer is OK without payload. -/
def Obligations.AddvRaisesEverySelectedCell : Prop :=
  ∀ (items : List (List Byte)) (s : State), Memory.wf s.store = true → s.valid = true →
    ∃ t, exec (.addv items) s = .next t ∧ ControlKept s t ∧ Answered s t [0x03000000] ∧
      ∀ a, (readCell t a).toNat =
        ((items.filter fun d => decide (hashIndex s.k.toNat (murmur3 d s.seed) = a)).map
          fun d => hashRank s.k.toNat (murmur3 d s.seed)).foldl max (readCell s a).toNat

/-- 41_update.md R117, the equivalence: the end state of an ADDV is the end state of the ADDs of its items in any order. -/
def Obligations.AddvEqualsItsAddsInAnyOrder : Prop :=
  ∀ (items order : List (List Byte)) (s : State), Memory.wf s.store = true → s.valid = true → order.Perm items →
    ∃ t u, exec (.addv items) s = .next t ∧ execAll (order.map Instr.add) s = .next u ∧
      t.store = u.store ∧ t.valid = u.valid ∧ t.k = u.k ∧ t.seed = u.seed

/-- 41_update.md R118: the arbiter is correct in any grouping and any order, and drops no pair; the number of lanes changes no result. -/
def Obligations.ArbiterIsCorrectInAnyGroupingAndOrder : Prop :=
  ∀ (lanes lanes' : Nat) (ps qs : List (Nat × Byte)) (m : Memory), 1 ≤ lanes → 1 ≤ lanes' → ps.Perm qs → Memory.wf m = true →
    arbitrate lanes ps m = arbitrate lanes' qs m ∧
    ∀ a, (memRead (arbitrate lanes ps m) a).toNat =
      ((ps.filter fun p => decide (p.1 = a)).map fun p => p.2.toNat).foldl max (memRead m a).toNat

/-! ## HASH -/

/-- 40_hash.md R97: the hash is the spec's program, line by line, for every data, every seed and every value of the parameters. -/
def Obligations.HashIsTheSpecsProgram : Prop :=
  ∀ (p : HashParams) (data : List Byte) (seed : Word), murmur3With p data seed = murmurProgram p data seed

/-- 40_hash.md R99: for four bytes and a fixed seed the hash is a bijection from the block to the hash. -/
def Obligations.HashOfFourBytesIsABijection : Prop :=
  ∀ seed : Word, Function.Bijective fun w : Word => murmur3 (wordBytes w) seed

/-- 40_hash.md R100, R101: HASH answers the hash under the frame's seed, or under 314, in every state, with or without a sketch, and
changes nothing else. -/
def Obligations.HashAnswersInEveryState : Prop :=
  ∀ (seed : Option Word) (data : List Byte) (s : State),
    exec (.hash seed data) s = .next (s.send [0x04000000, murmurProgram Config.hash data (seed.getD 314)])

/-! ## CARD -/

/-- 42_estimator.md R145, R146, R142: CARD on a constructed sketch answers OK with the regime's code in `INFO` and the estimate low word
first, a quiet NaN when the estimate is NaN; it writes no state the spec names. -/
def Obligations.CardAnswersTheEstimate : Prop :=
  decode [0x05000000] = .ok .card ∧
  ∀ s : State, s.valid = true →
    ∃ (t : State) (b : F64) (r : Regime) (e : F64),
      exec .card s = .next t ∧ estimate LN s.k.toNat (snapshot s) = (r, e) ∧
      t.valid = s.valid ∧ t.k = s.k ∧ t.seed = s.seed ∧ t.port = s.port ∧ CellsKept s t ∧
      Answered s t [0x05000000 ||| ((regimeCode r).setWidth 32 <<< 16), b.setWidth 32, (b >>> 32).setWidth 32] ∧
      (f64IsNaN e = false → b = e ∧ t.draws = s.draws) ∧
      (f64IsNaN e = true → b &&& 0x7FF8000000000000 = 0x7FF8000000000000)

/-- 42_estimator.md R143, first bullet: with any logarithm that has (LN-one), the estimate of an all-zero sketch is exactly +0.0 in
regime LINEAR, for every precision, and CARD answers so. -/
def Obligations.EmptySketchCountsZero : Prop :=
  (∀ (ln : F64 → F64) (k : Nat), 2 ≤ k → k ≤ 16 → ln cOne = f64Of false 0 →
    estimate ln k (List.replicate (2 ^ k) 0) = (.linear, 0)) ∧
  (∀ s : State, s.valid = true → 2 ≤ s.k.toNat → s.k.toNat ≤ 16 → (∀ a, a < 2 ^ s.k.toNat → readCell s a = 0) →
    exec .card s = .next (s.send [0x05010000, 0x00000000, 0x00000000]))

/-- 42_estimator.md R140: the literal reading of the clause "(or `V==0`)" and the procedure of R139 agree on every input. -/
def Obligations.TheTwoReadingsOfTheLargeRangeClauseAgree : Prop :=
  ∀ (ln : F64 → F64) (k : Nat) (cells : List Byte), 2 ≤ k → k ≤ 16 → literalEstimate ln k cells = estimate ln k cells

/-- 42_estimator.md R134, R135: any adder tree over the terms of `Z`, the cells in any order, gives the same `Z`, and `Z` is the exact
sum: `Z = j * 2^-32` for the natural number `j = Σ 2^(32 - reg[i])`, between `M * 2^-32` and `M`. -/
def Obligations.IndicatorSumIsExactForAnyAdderTree : Prop :=
  ∀ (k : Nat) (cells : List Byte), k ≤ 16 → cells.length = 2 ^ k → (∀ r ∈ cells, r.toNat ≤ 32) →
    (∀ tree : AdderTree, tree.cells.Perm cells → tree.eval = indicatorSum cells) ∧
    f64Neg (indicatorSum cells) = false ∧ f64Mag (indicatorSum cells) < f64InfMag ∧
    f64Units (indicatorSum cells) = (cells.map fun r => 2 ^ (32 - r.toNat)).sum * 2 ^ 1042 ∧
    2 ^ k ≤ (cells.map fun r => 2 ^ (32 - r.toNat)).sum ∧ (cells.map fun r => 2 ^ (32 - r.toNat)).sum ≤ 2 ^ k * 2 ^ 32

/-- 95_test_vectors.md section 6 item 10: the estimate depends on the precision and on the multiset of cell values alone. -/
def Obligations.EstimateDoesNotDependOnTheOrderOfCells : Prop :=
  ∀ (ln : F64 → F64) (k : Nat) (cells cells' : List Byte), cells.Perm cells' → estimate ln k cells = estimate ln k cells'

/-- 42_estimator.md R142, R143: with any logarithm that has the six properties, the estimate of a legal sketch is NaN exactly when the
raw estimate exceeds 2^32, in regime LARGE; it is +∞ when the raw estimate is 2^32; otherwise it is never negative and never −0.0. -/
def Obligations.EstimateIsNaNExactlyAboveTheHashSpace : Prop :=
  ∀ (ln : F64 → F64) (k : Nat) (cells : List Byte), LnSpec ln → 2 ≤ k → k ≤ 16 → cells.length = 2 ^ k →
    (∀ r ∈ cells, r.toNat ≤ 32) →
      (f64IsNaN (estimate ln k cells).2 = true ↔ fgt (rawEstimate (2 ^ k) cells) cTwo32 = true) ∧
      (fgt (rawEstimate (2 ^ k) cells) cTwo32 = true → (estimate ln k cells).1 = .large) ∧
      (rawEstimate (2 ^ k) cells = cTwo32 → estimate ln k cells = (.large, 0x7FF0000000000000)) ∧
      (f64IsNaN (estimate ln k cells).2 = false → f64Neg (estimate ln k cells).2 = false)

/-- 42_estimator.md R141: the block's own logarithm has the six properties. -/
def Obligations.TheDefaultLogarithmHasTheSixProperties : Prop := LnSpec LN

/-- The exceptional values of the block's own logarithm ((LN-one), (LN-zero), (LN-neg), (LN-inf) of R141). -/
def Obligations.TheDefaultLogarithmAtTheEdges : Prop :=
  LN cOne = 0 ∧ LN 0 = 0xFFF0000000000000 ∧ LN 0x8000000000000000 = 0xFFF0000000000000 ∧
  LN 0x7FF0000000000000 = 0x7FF0000000000000 ∧
  (∀ x : F64, x.msb = true → x ≠ 0x8000000000000000 → f64IsNaN (LN x) = true) ∧
  (∀ x : F64, f64IsNaN x = true → f64IsNaN (LN x) = true)

/-! ## MERGE -/

/-- 43_merge.md R161, R163: MERGE, its checks in their order, its effect: every cell the maximum of itself and its operand byte, nothing
else changed. -/
def Obligations.MergeIsThePointwiseMaximum : Prop :=
  ∀ (ok : BitVec 16) (o : List Byte) (s : State), (Instr.merge ok o).wf = true → Memory.wf s.store = true →
    decode ((0x06000000 ||| ok.setWidth 32) :: packBytes o) = .ok (.merge ok o) ∧
    (s.valid = false → Refuses (.merge ok o) s 0x06000010) ∧
    (s.valid = true → ok.toNat ≠ s.k.toNat → Refuses (.merge ok o) s 0x06000002) ∧
    (s.valid = true → ok.toNat = s.k.toNat → (∃ b ∈ o, 32 < b.toNat) → Refuses (.merge ok o) s 0x06000004) ∧
    (s.valid = true → ok.toNat = s.k.toNat → (∀ b ∈ o, b.toNat ≤ 32) →
      ∃ t, exec (.merge ok o) s = .next t ∧ ControlKept s t ∧ Answered s t [0x06000000] ∧
        (∀ a, a < s.size → (readCell t a).toNat = max (readCell s a).toNat (o.getD a 0).toNat) ∧
        (∀ a, s.size ≤ a → readCell t a = readCell s a))

/-- 43_merge.md R164: merging the block's own snapshot changes no cell, merging twice is merging once, and two merges commute. -/
def Obligations.MergeIsIdempotentAndCommutes : Prop :=
  ∀ (ok : BitVec 16) (s : State), Invariants s → s.valid = true → ok.toNat = s.k.toNat →
    (∃ t, exec (.merge ok (snapshot s)) s = .next t ∧ t.store = s.store) ∧
    ∀ a b : List Byte, (∀ x ∈ a, x.toNat ≤ 32) → (∀ x ∈ b, x.toNat ≤ 32) →
      ∃ ta taa tab tba, execAll [.merge ok a] s = .next ta ∧ execAll [.merge ok a, .merge ok a] s = .next taa ∧
        execAll [.merge ok a, .merge ok b] s = .next tab ∧ execAll [.merge ok b, .merge ok a] s = .next tba ∧
        taa.store = ta.store ∧ tab = tba

/-- 20_memory.md R53, 43_merge.md R164: any interleaving of a fixed set of ADD, ADDV and MERGE commands ends in the same register store
(whether or not some of the MERGEs are refused). -/
def Obligations.RaisingCommandsEndInTheSameStoreInAnyOrder : Prop :=
  ∀ (cs ds : List Instr) (s : State), Memory.wf s.store = true → (∀ i ∈ cs, i.raisesOnly = true) → cs.Perm ds →
    ∃ t u, execAll cs s = .next t ∧ execAll ds s = .next u ∧ t.store = u.store

/-! ## Inspection -/

/-- 44_inspect.md R171: RDREGS on a constructed sketch answers `2^(K-2)` words, word `j` holding the cells `4j` to `4j+3`, and changes
nothing. -/
def Obligations.RdregsAnswersTheSnapshot : Prop :=
  decode [0x07000000] = .ok .rdregs ∧
  ∀ s : State,
    (s.valid = false → Refuses .rdregs s 0x07000010) ∧
    (s.valid = true → 2 ≤ s.k.toNat →
      ∃ payload : List Word, exec .rdregs s = .next (s.send (0x07000000 :: payload)) ∧ payload.length = 2 ^ (s.k.toNat - 2) ∧
        ∀ j, j < 2 ^ (s.k.toNat - 2) →
          payload.getD j 0 = (readCell s (4 * j)).setWidth 32 ||| ((readCell s (4 * j + 1)).setWidth 32 <<< 8) |||
            ((readCell s (4 * j + 2)).setWidth 32 <<< 16) ||| ((readCell s (4 * j + 3)).setWidth 32 <<< 24))

/-- 44_inspect.md R174, R175: SETREG, its checks (the index first, both as 32-bit unsigned numbers) and its raw overwrite of one cell,
nothing else changed. -/
def Obligations.SetregOverwritesOneCellOrIsRefused : Prop :=
  ∀ (index rank : Word) (s : State), Memory.wf s.store = true →
    decode [0x08000000, index, rank] = .ok (.setreg index rank) ∧
    (s.valid = false → Refuses (.setreg index rank) s 0x08000010) ∧
    (s.valid = true → 2 ^ s.k.toNat ≤ index.toNat → Refuses (.setreg index rank) s 0x08000003) ∧
    (s.valid = true → index.toNat < 2 ^ s.k.toNat → 32 < rank.toNat → Refuses (.setreg index rank) s 0x08000004) ∧
    (s.valid = true → index.toNat < 2 ^ s.k.toNat → rank.toNat ≤ 32 →
      ∃ t, exec (.setreg index rank) s = .next t ∧ ControlKept s t ∧ Answered s t [0x08000000] ∧
        (readCell t index.toNat).toNat = rank.toNat ∧ ∀ a, a ≠ index.toNat → readCell t a = readCell s a)

/-- 44_inspect.md R176: after `SETREG i, r` a following RDREGS shows `r` at byte `i` and every other byte as before. -/
def Obligations.RdregsShowsWhatSetregWrote : Prop :=
  ∀ (index rank : Word) (s : State), Memory.wf s.store = true → s.valid = true → 2 ≤ s.k.toNat →
    index.toNat < 2 ^ s.k.toNat → rank.toNat ≤ 32 →
      ∃ (t : State) (before after : List Word), exec .rdregs s = .next (s.send (0x07000000 :: before)) ∧
        execAll [.setreg index rank, .rdregs] s = .next t ∧ t.responses.getLast? = some (0x07000000 :: after) ∧
        unpackWords after = (unpackWords before).set index.toNat (rank.setWidth 8)

/-- 44_inspect.md R178: GETSEED answers `SEED` and changes nothing; `NoSketch` without a sketch. -/
def Obligations.GetseedAnswersTheSeed : Prop :=
  decode [0x09000000] = .ok .getseed ∧
  ∀ s : State,
    (s.valid = true → exec .getseed s = .next (s.send [0x09000000, s.seed])) ∧
    (s.valid = false → Refuses .getseed s 0x09000010)

/-- 44_inspect.md R179: GETSIZE answers `2^K` as a word and changes nothing; `NoSketch` without a sketch. -/
def Obligations.GetsizeAnswersTheSize : Prop :=
  decode [0x0A000000] = .ok .getsize ∧
  ∀ s : State,
    (s.valid = true → ∃ w, exec .getsize s = .next (s.send [0x0A000000, w]) ∧ w.toNat = 2 ^ s.k.toNat) ∧
    (s.valid = false → Refuses .getsize s 0x0A000010)

/-! ## Serialisation -/

/-- 44_inspect.md R173, 30_encoding.md R76: the pseudo-instruction RESTORE with the precision, the seed and the cells of one sketch
rebuilds that sketch in any block, and the rebuilt sketch has the same estimate. -/
def Obligations.RestoreRebuildsTheSketch : Prop :=
  ∀ (s u : State), Invariants s → s.valid = true → Memory.wf u.store = true →
    ∃ t, execAll (Pseudo.expand (.restore (s.k.setWidth 16) s.seed (snapshot s))) u = .next t ∧
      t.valid = true ∧ t.k = s.k ∧ t.seed = s.seed ∧ (∀ a, a < s.size → readCell t a = readCell s a) ∧
      ∀ ln, estimate ln t.k.toNat (snapshot t) = estimate ln s.k.toNat (snapshot s)

/-- 44_inspect.md R173: `INIT K, SEED` followed by one MERGE of the snapshot rebuilds the sketch too. -/
def Obligations.MergeIntoAFreshSketchRebuildsIt : Prop :=
  ∀ (s u : State), Invariants s → s.valid = true → Memory.wf u.store = true →
    ∃ t, execAll [.init (s.k.setWidth 16) (some s.seed), .merge (s.k.setWidth 16) (snapshot s)] u = .next t ∧
      t.valid = true ∧ t.k = s.k ∧ t.seed = s.seed ∧ ∀ a, a < s.size → readCell t a = readCell s a

/-! ## The parameters -/

/-- 10_state.md R31, 00_scope.md R7: `step` is the instance, at the block's parameters, of a step that takes them. The parameters' values are
the model's (log 1 to log 4). -/
def Obligations.TheBlockIsTheInstanceAtItsParameters : Prop :=
  (∀ (i : Instr) (s : State), exec i s = execWith defaults i s) ∧
  ∀ s : State, step s = stepWith defaults s

/-- 30_encoding.md R66, R71, R72 for every `MAX_LEN` of at most `2^32 - 1` (00_scope.md R7): decoding and encoding agree on the commands whose
items fit, and the frame of a longer item is `IllegalFrame`. -/
def Obligations.DecodeAndEncodeAgreeForEveryMaxLen : Prop :=
  ∀ maxLen : Nat, maxLen < 2 ^ 32 →
    (∀ i : Instr, i.wfWith maxLen = true → decodeWith maxLen (encode i) = .ok i) ∧
    (∀ (ws : Frame) (i : Instr), decodeWith maxLen ws = .ok i → i.wfWith maxLen = true ∧ encode i = ws) ∧
    (∀ (data : List Byte) (seed : Option Word), maxLen < data.length → data.length < 2 ^ 32 →
      decodeWith maxLen (encode (.add data)) = .error .illegalFrame ∧
      decodeWith maxLen (encode (.hash seed data)) = .error .illegalFrame)

/-- 00_scope.md R7: `LANES` is not observable. Whatever the other parameters, two numbers of lanes give the same step. -/
def Obligations.TheNumberOfLanesIsNotObservable : Prop :=
  ∀ (p : Params) (lanes : Nat) (s : State), 1 ≤ p.lanes → 1 ≤ lanes → Memory.wf s.store = true →
    stepWith { p with lanes := lanes } s = stepWith p s
end

