-- ==== Sys2Proof/Laws/State.lean ====
section
/-! SUPPORT. One lemma per field per update of State, true by rfl, so that no later proof unfolds a record update. -/

namespace Sys2Proof.Machine

/-! ## State.withStore -/

@[simp] theorem State.withStore_valid (s : State) (m : Memory) : (s.withStore m).valid = s.valid := rfl
@[simp] theorem State.withStore_k (s : State) (m : Memory) : (s.withStore m).k = s.k := rfl
@[simp] theorem State.withStore_seed (s : State) (m : Memory) : (s.withStore m).seed = s.seed := rfl
@[simp] theorem State.withStore_store (s : State) (m : Memory) : (s.withStore m).store = m := rfl
@[simp] theorem State.withStore_port (s : State) (m : Memory) : (s.withStore m).port = s.port := rfl
@[simp] theorem State.withStore_responses (s : State) (m : Memory) : (s.withStore m).responses = s.responses := rfl
@[simp] theorem State.withStore_draws (s : State) (m : Memory) : (s.withStore m).draws = s.draws := rfl

/-! ## State.withPort -/

@[simp] theorem State.withPort_valid (s : State) (p : List HostEvent) : (s.withPort p).valid = s.valid := rfl
@[simp] theorem State.withPort_k (s : State) (p : List HostEvent) : (s.withPort p).k = s.k := rfl
@[simp] theorem State.withPort_seed (s : State) (p : List HostEvent) : (s.withPort p).seed = s.seed := rfl
@[simp] theorem State.withPort_store (s : State) (p : List HostEvent) : (s.withPort p).store = s.store := rfl
@[simp] theorem State.withPort_port (s : State) (p : List HostEvent) : (s.withPort p).port = p := rfl
@[simp] theorem State.withPort_responses (s : State) (p : List HostEvent) : (s.withPort p).responses = s.responses := rfl
@[simp] theorem State.withPort_draws (s : State) (p : List HostEvent) : (s.withPort p).draws = s.draws := rfl

/-! ## State.send -/

@[simp] theorem State.send_valid (s : State) (f : Frame) : (s.send f).valid = s.valid := rfl
@[simp] theorem State.send_k (s : State) (f : Frame) : (s.send f).k = s.k := rfl
@[simp] theorem State.send_seed (s : State) (f : Frame) : (s.send f).seed = s.seed := rfl
@[simp] theorem State.send_store (s : State) (f : Frame) : (s.send f).store = s.store := rfl
@[simp] theorem State.send_port (s : State) (f : Frame) : (s.send f).port = s.port := rfl
@[simp] theorem State.send_responses (s : State) (f : Frame) : (s.send f).responses = s.responses ++ [f] := rfl
@[simp] theorem State.send_draws (s : State) (f : Frame) : (s.send f).draws = s.draws := rfl

/-! ## State.drawn -/

@[simp] theorem State.drawn_valid (s : State) : (s.drawn).valid = s.valid := rfl
@[simp] theorem State.drawn_k (s : State) : (s.drawn).k = s.k := rfl
@[simp] theorem State.drawn_seed (s : State) : (s.drawn).seed = s.seed := rfl
@[simp] theorem State.drawn_store (s : State) : (s.drawn).store = s.store := rfl
@[simp] theorem State.drawn_port (s : State) : (s.drawn).port = s.port := rfl
@[simp] theorem State.drawn_responses (s : State) : (s.drawn).responses = s.responses := rfl
@[simp] theorem State.drawn_draws (s : State) : (s.drawn).draws = s.draws + 1 := rfl

/-! ## State.construct -/

@[simp] theorem State.construct_valid (s : State) (k : BitVec 5) (seed : Word) : (s.construct k seed).valid = true := rfl
@[simp] theorem State.construct_k (s : State) (k : BitVec 5) (seed : Word) : (s.construct k seed).k = k := rfl
@[simp] theorem State.construct_seed (s : State) (k : BitVec 5) (seed : Word) : (s.construct k seed).seed = seed := rfl
@[simp] theorem State.construct_store (s : State) (k : BitVec 5) (seed : Word) : (s.construct k seed).store = zeroInit k s.store := rfl
@[simp] theorem State.construct_port (s : State) (k : BitVec 5) (seed : Word) : (s.construct k seed).port = s.port := rfl
@[simp] theorem State.construct_responses (s : State) (k : BitVec 5) (seed : Word) : (s.construct k seed).responses = s.responses := rfl
@[simp] theorem State.construct_draws (s : State) (k : BitVec 5) (seed : Word) : (s.construct k seed).draws = s.draws := rfl

/-! ## The reset event -/

@[simp] theorem takeReset_valid (s : State) : (takeReset s).valid = false := rfl
@[simp] theorem takeReset_k (s : State) : (takeReset s).k = 0 := rfl
@[simp] theorem takeReset_seed (s : State) : (takeReset s).seed = 0 := rfl
@[simp] theorem takeReset_store (s : State) : (takeReset s).store = [] := rfl
@[simp] theorem takeReset_port (s : State) : (takeReset s).port = s.port := rfl
@[simp] theorem takeReset_responses (s : State) : (takeReset s).responses = s.responses := rfl
@[simp] theorem takeReset_draws (s : State) : (takeReset s).draws = s.draws := rfl

/-! ## What the updates do to the cells and the size -/

@[simp] theorem readCell_withStore (s : State) (m : Memory) (a : Nat) : readCell (s.withStore m) a = memRead m a := rfl
@[simp] theorem readCell_withPort (s : State) (p : List HostEvent) (a : Nat) : readCell (s.withPort p) a = readCell s a := rfl
@[simp] theorem readCell_send (s : State) (f : Frame) (a : Nat) : readCell (s.send f) a = readCell s a := rfl
@[simp] theorem readCell_drawn (s : State) (a : Nat) : readCell s.drawn a = readCell s a := rfl
@[simp] theorem size_withStore (s : State) (m : Memory) : (s.withStore m).size = s.size := rfl
@[simp] theorem size_withPort (s : State) (p : List HostEvent) : (s.withPort p).size = s.size := rfl
@[simp] theorem size_send (s : State) (f : Frame) : (s.send f).size = s.size := rfl
@[simp] theorem size_drawn (s : State) : s.drawn.size = s.size := rfl
@[simp] theorem size_construct (s : State) (k : BitVec 5) (seed : Word) : (s.construct k seed).size = 2 ^ k.toNat := rfl
@[simp] theorem snapshot_withPort (s : State) (p : List HostEvent) : snapshot (s.withPort p) = snapshot s := rfl
@[simp] theorem snapshot_send (s : State) (f : Frame) : snapshot (s.send f) = snapshot s := rfl
@[simp] theorem snapshot_drawn (s : State) : snapshot s.drawn = snapshot s := rfl

theorem readCell_eq (s : State) (a : Nat) : readCell s a = memRead s.store a := rfl

/-- A state is its seven fields. -/
theorem State.ext_fields {s t : State} (h1 : s.valid = t.valid) (h2 : s.k = t.k) (h3 : s.seed = t.seed) (h4 : s.store = t.store)
    (h5 : s.port = t.port) (h6 : s.responses = t.responses) (h7 : s.draws = t.draws) : s = t := by
  cases s; cases t; simp_all

end Sys2Proof.Machine
end

