-- ==== Sys2Proof/Laws/Memory.lean ====
section
/-! SUPPORT. The laws of the register store's memory: read after write, every other cell untouched, the canonical form kept, equal
contents are equal memories. -/

namespace Sys2Proof.Machine

@[simp] theorem memRead_nil (a : Nat) : memRead [] a = 0 := rfl

theorem memRead_cons (b : Nat) (w : Byte) (m : Memory) (a : Nat) :
    memRead ((b, w) :: m) a = if a = b then w else memRead m a := rfl

/-- The head of a canonical memory lists a byte, and lies below every later index. -/
theorem Memory.wf_cons_iff (b : Nat) (w : Byte) (m : Memory) :
    Memory.wf ((b, w) :: m) = true ↔ w ≠ 0 ∧ (∀ c ∈ m, b < c.1) ∧ Memory.wf m = true := by
  induction m generalizing b w with
  | nil => simp [Memory.wf]
  | cons c m ih =>
    obtain ⟨a, v⟩ := c
    simp only [Memory.wf, Bool.and_eq_true, decide_eq_true_eq, bne_iff_ne, List.mem_cons, forall_eq_or_imp]
    constructor
    · rintro ⟨⟨hw, hab⟩, h⟩
      exact ⟨hw, ⟨hab, fun c hc => lt_trans hab (((ih a v).1 h).2.1 c hc)⟩, h⟩
    · rintro ⟨hw, ⟨hab, _⟩, h⟩
      exact ⟨⟨hw, hab⟩, h⟩

theorem Memory.wf_tail {c : Host.Cell} {m : Memory} (h : Memory.wf (c :: m) = true) : Memory.wf m = true :=
  ((Memory.wf_cons_iff c.1 c.2 m).1 h).2.2

/-- A cell below every listed index is not listed. -/
theorem memRead_of_below {m : Memory} {a : Nat} (h : ∀ c ∈ m, a < c.1) : memRead m a = 0 := by
  induction m with
  | nil => rfl
  | cons c m ih =>
    obtain ⟨b, w⟩ := c
    have hb : a < b := h (b, w) (by simp)
    rw [memRead_cons, if_neg (by omega)]
    exact ih fun c hc => h c (by simp [hc])

theorem memRead_of_not_listed {m : Memory} {a : Nat} (h : ∀ c ∈ m, c.1 ≠ a) : memRead m a = 0 := by
  induction m with
  | nil => rfl
  | cons c m ih =>
    obtain ⟨b, w⟩ := c
    have hb : b ≠ a := h (b, w) (by simp)
    rw [memRead_cons, if_neg (by omega)]
    exact ih fun c hc => h c (by simp [hc])

/-- Read after write, to the same cell and to any other. -/
theorem memRead_memWrite {m : Memory} (h : Memory.wf m = true) (a : Nat) (v : Byte) (x : Nat) :
    memRead (memWrite m a v) x = if x = a then v else memRead m x := by
  induction m with
  | nil =>
    unfold memWrite
    split <;> simp_all [memRead_cons]
  | cons c m ih =>
    obtain ⟨b, w⟩ := c
    obtain ⟨-, hlt, hm⟩ := (Memory.wf_cons_iff b w m).1 h
    unfold memWrite
    split
    · rename_i hab
      have hbelow : memRead ((b, w) :: m) a = 0 :=
        memRead_of_below (by
          intro c hc
          rcases List.mem_cons.1 hc with rfl | hc
          · exact hab
          · exact lt_trans hab (hlt c hc))
      split
      · rename_i hv
        split
        · rename_i hx; subst hx; rw [hbelow, hv]
        · rfl
      · simp only [memRead_cons]
    · split
      · rename_i hab
        subst hab
        split
        · rename_i hv
          simp only [memRead_cons]
          split
          · rename_i hx; subst hx; rw [hv, memRead_of_below hlt]
          · rfl
        · simp only [memRead_cons]; split <;> rfl
      · rename_i h1 h2
        simp only [memRead_cons, ih hm]
        by_cases hx : x = b
        · subst hx; rw [if_pos rfl, if_pos rfl, if_neg (fun h => h2 h.symm)]
        · simp [hx]

theorem memWrite_mem {m : Memory} {a : Nat} {v : Byte} {c : Host.Cell} (h : c ∈ memWrite m a v) : c.1 = a ∨ c ∈ m := by
  induction m with
  | nil =>
    unfold memWrite at h
    split at h
    · simp at h
    · simp only [List.mem_singleton] at h; exact .inl (by rw [h])
  | cons d m ih =>
    obtain ⟨b, w⟩ := d
    unfold memWrite at h
    split at h
    · split at h
      · exact .inr h
      · rcases List.mem_cons.1 h with h | h
        · exact .inl (by rw [h])
        · exact .inr h
    · split at h
      · split at h
        · exact .inr (by simp [h])
        · rcases List.mem_cons.1 h with h | h
          · exact .inl (by rw [h])
          · exact .inr (by simp [h])
      · rcases List.mem_cons.1 h with h | h
        · exact .inr (by simp [h])
        · rcases ih h with h | h
          · exact .inl h
          · exact .inr (by simp [h])

/-- A write keeps the canonical form. -/
theorem memWrite_wf {m : Memory} (h : Memory.wf m = true) (a : Nat) (v : Byte) : Memory.wf (memWrite m a v) = true := by
  induction m with
  | nil =>
    unfold memWrite
    split <;> simp_all [Memory.wf]
  | cons c m ih =>
    obtain ⟨b, w⟩ := c
    obtain ⟨hw, hlt, hm⟩ := (Memory.wf_cons_iff b w m).1 h
    unfold memWrite
    split
    · rename_i hab
      split
      · exact h
      · rename_i hv
        refine (Memory.wf_cons_iff _ _ _).2 ⟨hv, ?_, h⟩
        intro c hc
        rcases List.mem_cons.1 hc with rfl | hc
        · exact hab
        · exact lt_trans hab (hlt c hc)
    · split
      · rename_i hab
        subst hab
        split
        · exact hm
        · rename_i hv; exact (Memory.wf_cons_iff _ _ _).2 ⟨hv, hlt, hm⟩
      · rename_i h1 h2
        refine (Memory.wf_cons_iff _ _ _).2 ⟨hw, ?_, ih hm⟩
        intro c hc
        rcases memWrite_mem hc with h | h
        · omega
        · exact hlt c h

theorem memZero_mem {m : Memory} {n : Nat} {c : Host.Cell} (h : c ∈ memZero n m) : n ≤ c.1 ∧ c ∈ m := by
  have := List.mem_filter.1 h
  exact ⟨by simpa using this.2, this.1⟩

theorem memZero_wf {m : Memory} (h : Memory.wf m = true) (n : Nat) : Memory.wf (memZero n m) = true := by
  induction m with
  | nil => rfl
  | cons c m ih =>
    obtain ⟨b, w⟩ := c
    obtain ⟨hw, hlt, hm⟩ := (Memory.wf_cons_iff b w m).1 h
    unfold memZero
    rw [List.filter_cons]
    split
    · exact (Memory.wf_cons_iff _ _ _).2 ⟨hw, fun c hc => hlt c (memZero_mem hc).2, ih hm⟩
    · exact ih hm

/-- What zeroing the cells below `n` leaves; no canonical form is needed. -/
theorem memRead_memZero (m : Memory) (n x : Nat) : memRead (memZero n m) x = if x < n then 0 else memRead m x := by
  induction m with
  | nil => simp [memZero]
  | cons c m ih =>
    obtain ⟨b, w⟩ := c
    have ih' : memRead (List.filter (fun c => decide (n ≤ c.1)) m) x = if x < n then 0 else memRead m x := ih
    unfold memZero
    rw [List.filter_cons]
    by_cases hb : n ≤ b
    · simp only [hb, decide_true, if_true, memRead_cons, ih']
      by_cases hx : x = b
      · subst hx; simp [Nat.not_lt.2 hb]
      · simp [hx]
    · simp only [hb, decide_false, memRead_cons]
      by_cases hx : x = b
      · subst hx; simp only [ih', if_true, if_pos (Nat.lt_of_not_le hb), if_false, Bool.false_eq_true]
      · simp only [ih', hx, if_false, Bool.false_eq_true]

/-- Equal contents, equal memories: the canonical form is canonical. -/
theorem Memory.ext_of_read {m m' : Memory} (h : Memory.wf m = true) (h' : Memory.wf m' = true)
    (he : ∀ a, memRead m a = memRead m' a) : m = m' := by
  induction m generalizing m' with
  | nil =>
    cases m' with
    | nil => rfl
    | cons c m' =>
      obtain ⟨b, w⟩ := c
      have := he b
      simp only [memRead_nil, memRead_cons, if_true] at this
      exact absurd this.symm ((Memory.wf_cons_iff b w m').1 h').1
  | cons c m ih =>
    obtain ⟨b, w⟩ := c
    obtain ⟨hw, hlt, hm⟩ := (Memory.wf_cons_iff b w m).1 h
    cases m' with
    | nil =>
      have := he b
      simp only [memRead_nil, memRead_cons, if_true] at this
      exact absurd this hw
    | cons c' m' =>
      obtain ⟨b', w'⟩ := c'
      obtain ⟨hw', hlt', hm'⟩ := (Memory.wf_cons_iff b' w' m').1 h'
      have hbb : b = b' := by
        rcases lt_trichotomy b b' with hb | hb | hb
        · have := he b
          rw [memRead_cons, if_pos rfl, memRead_cons, if_neg (by omega),
            memRead_of_below (fun c hc => lt_trans hb (hlt' c hc))] at this
          exact absurd this hw
        · exact hb
        · have := he b'
          rw [memRead_cons, if_neg (by omega), memRead_cons, if_pos rfl,
            memRead_of_below (fun c hc => lt_trans hb (hlt c hc))] at this
          exact absurd this.symm hw'
      subst hbb
      have hww : w = w' := by simpa [memRead_cons] using he b
      subst hww
      congr 1
      refine ih hm hm' fun a => ?_
      by_cases ha : a = b
      · subst ha; rw [memRead_of_below hlt, memRead_of_below hlt']
      · simpa [memRead_cons, ha] using he a

/-! ## write_if_greater -/

theorem byteMax_toNat (a b : Byte) : (byteMax a b).toNat = max a.toNat b.toNat := by
  unfold byteMax; split <;> omega

theorem byteMax_comm (a b : Byte) : byteMax a b = byteMax b a := by
  apply BitVec.eq_of_toNat_eq; simp only [byteMax_toNat]; omega

theorem byteMax_assoc (a b c : Byte) : byteMax (byteMax a b) c = byteMax a (byteMax b c) := by
  apply BitVec.eq_of_toNat_eq; simp only [byteMax_toNat]; omega

@[simp] theorem byteMax_self (a : Byte) : byteMax a a = a := by
  apply BitVec.eq_of_toNat_eq; simp only [byteMax_toNat]; omega

@[simp] theorem byteMax_zero_left (a : Byte) : byteMax 0#8 a = a := by
  apply BitVec.eq_of_toNat_eq; simp [byteMax_toNat]

@[simp] theorem byteMax_zero_right (a : Byte) : byteMax a 0#8 = a := by
  rw [byteMax_comm, byteMax_zero_left]

theorem memRead_writeIfGreater {m : Memory} (h : Memory.wf m = true) (i : Nat) (v : Byte) (x : Nat) :
    memRead (writeIfGreater m i v) x = if x = i then byteMax (memRead m i) v else memRead m x :=
  memRead_memWrite h i _ x

theorem writeIfGreater_wf {m : Memory} (h : Memory.wf m = true) (i : Nat) (v : Byte) :
    Memory.wf (writeIfGreater m i v) = true := memWrite_wf h i _

theorem writeIfGreater_mem {m : Memory} {i : Nat} {v : Byte} {c : Host.Cell} (h : c ∈ writeIfGreater m i v) :
    c.1 = i ∨ c ∈ m := memWrite_mem h

/-- `memRead` is never above what one raise makes of it. -/
theorem le_memRead_writeIfGreater {m : Memory} (h : Memory.wf m = true) (i : Nat) (v : Byte) (x : Nat) :
    (memRead m x).toNat ≤ (memRead (writeIfGreater m i v) x).toNat := by
  rw [memRead_writeIfGreater h]
  split
  · rename_i hx; subst hx; rw [byteMax_toNat]; omega
  · exact le_rfl

/-! ## The pointwise maximum of a list of raises -/

/-- The largest rank a list of pairs aims at cell `x`, over a starting value. -/
theorem maxAimedAt_cons (i j : Nat) (r : Byte) (ps : List (Nat × Byte)) :
    maxAimedAt i ((j, r) :: ps) = if j = i then byteMax r (maxAimedAt i ps) else maxAimedAt i ps := rfl

theorem maxAimedAt_cons' (i : Nat) (p : Nat × Byte) (ps : List (Nat × Byte)) :
    maxAimedAt i (p :: ps) = if p.1 = i then byteMax p.2 (maxAimedAt i ps) else maxAimedAt i ps := rfl

/-- Raises one after another. -/
theorem memRead_foldl_writeIfGreater {m : Memory} (h : Memory.wf m = true) (ps : List (Nat × Byte)) (x : Nat) :
    memRead (ps.foldl (fun m p => writeIfGreater m p.1 p.2) m) x = byteMax (memRead m x) (maxAimedAt x ps) := by
  induction ps generalizing m with
  | nil => simp [maxAimedAt]
  | cons p ps ih =>
    obtain ⟨j, r⟩ := p
    rw [List.foldl_cons, ih (writeIfGreater_wf h j r), memRead_writeIfGreater h, maxAimedAt_cons]
    by_cases hx : x = j
    · subst hx; simp [byteMax_assoc]
    · rw [if_neg hx, if_neg (fun h => hx h.symm)]

theorem foldl_writeIfGreater_wf {m : Memory} (h : Memory.wf m = true) (ps : List (Nat × Byte)) :
    Memory.wf (ps.foldl (fun m p => writeIfGreater m p.1 p.2) m) = true := by
  induction ps generalizing m with
  | nil => exact h
  | cons p ps ih => exact ih (writeIfGreater_wf h p.1 p.2)

theorem maxAimedAt_append (x : Nat) (ps qs : List (Nat × Byte)) :
    maxAimedAt x (ps ++ qs) = byteMax (maxAimedAt x ps) (maxAimedAt x qs) := by
  induction ps with
  | nil => simp [maxAimedAt]
  | cons p ps ih =>
    obtain ⟨j, r⟩ := p
    simp only [List.cons_append, maxAimedAt_cons, ih]
    split <;> simp [byteMax_assoc]

theorem maxAimedAt_perm (x : Nat) {ps qs : List (Nat × Byte)} (h : ps.Perm qs) : maxAimedAt x ps = maxAimedAt x qs := by
  induction h with
  | nil => rfl
  | cons p _ ih => obtain ⟨j, r⟩ := p; simp only [maxAimedAt_cons, ih]
  | swap p q l =>
    obtain ⟨i, r⟩ := p
    obtain ⟨j, u⟩ := q
    simp only [maxAimedAt_cons]
    split <;> split <;> first | rfl | rw [← byteMax_assoc, ← byteMax_assoc, byteMax_comm u r]
  | trans _ _ ih1 ih2 => rw [ih1, ih2]

/-- The max-tree as a maximum over the pairs aimed at the cell. -/
theorem max_maxAimedAt (x m : Nat) (ps : List (Nat × Byte)) :
    max m (maxAimedAt x ps).toNat = ((ps.filter fun p => decide (p.1 = x)).map fun p => p.2.toNat).foldl max m := by
  induction ps generalizing m with
  | nil => simp [maxAimedAt]
  | cons p ps ih =>
    obtain ⟨j, r⟩ := p
    rw [maxAimedAt_cons]
    by_cases h : j = x
    · simp [h, byteMax_toNat, ← ih, max_assoc]
    · simp [h, ← ih]

theorem writeIfGreater_comm {m : Memory} (h : Memory.wf m = true) (i j : Nat) (v w : Byte) :
    writeIfGreater (writeIfGreater m i v) j w = writeIfGreater (writeIfGreater m j w) i v := by
  refine Memory.ext_of_read (writeIfGreater_wf (writeIfGreater_wf h _ _) _ _) (writeIfGreater_wf (writeIfGreater_wf h _ _) _ _) fun a => ?_
  simp only [memRead_writeIfGreater h, memRead_writeIfGreater (writeIfGreater_wf h _ _)]
  by_cases h1 : a = i <;> by_cases h2 : a = j <;> simp_all
  subst h1; rw [byteMax_assoc, byteMax_comm v w, byteMax_assoc]

theorem writeIfGreater_idem {m : Memory} (h : Memory.wf m = true) (i : Nat) (v : Byte) :
    writeIfGreater (writeIfGreater m i v) i v = writeIfGreater m i v := by
  refine Memory.ext_of_read (writeIfGreater_wf (writeIfGreater_wf h _ _) _ _) (writeIfGreater_wf h _ _) fun x => ?_
  rw [memRead_writeIfGreater (writeIfGreater_wf h _ _), memRead_writeIfGreater h, memRead_writeIfGreater h, if_pos rfl]
  split
  · rw [byteMax_assoc, byteMax_self]
  · rfl

/-! ## The arbiter -/

theorem retireGroup_wf {m : Memory} (h : Memory.wf m = true) (all ps : List (Nat × Byte)) :
    Memory.wf (retireGroup all ps m) = true := by
  induction ps generalizing m with
  | nil => exact h
  | cons p ps ih => exact ih (writeIfGreater_wf h p.1 _)

/-- One round: a cell some pair of `ps` aims at is raised to the maximum over the whole group. -/
theorem memRead_retireGroup {m : Memory} (h : Memory.wf m = true) (all ps : List (Nat × Byte)) (x : Nat) :
    memRead (retireGroup all ps m) x = if ∃ p ∈ ps, p.1 = x then byteMax (memRead m x) (maxAimedAt x all) else memRead m x := by
  induction ps generalizing m with
  | nil => simp [retireGroup]
  | cons p ps ih =>
    obtain ⟨j, r⟩ := p
    simp only [retireGroup]
    rw [ih (writeIfGreater_wf h j _), memRead_writeIfGreater h]
    by_cases hx : x = j
    · subst hx
      simp only [if_true, List.mem_cons, exists_eq_or_imp, true_or]
      split
      · rw [byteMax_assoc, byteMax_self]
      · rfl
    · have : (∃ p ∈ ((j, r) :: ps), p.1 = x) ↔ ∃ p ∈ ps, p.1 = x := by
        simp only [List.mem_cons, exists_eq_or_imp]
        constructor
        · rintro (h | h)
          · exact absurd h.symm hx
          · exact h
        · exact .inr
      simp only [this, if_neg hx]

theorem maxAimedAt_of_none (x : Nat) {ps : List (Nat × Byte)} (h : ¬ ∃ p ∈ ps, p.1 = x) : maxAimedAt x ps = 0 := by
  induction ps with
  | nil => rfl
  | cons p ps ih =>
    obtain ⟨j, r⟩ := p
    rw [maxAimedAt_cons, if_neg (fun hj => h ⟨(j, r), by simp, hj⟩)]
    exact ih fun ⟨q, hq, hx⟩ => h ⟨q, by simp [hq], hx⟩

theorem memRead_retireGroup_self {m : Memory} (h : Memory.wf m = true) (ps : List (Nat × Byte)) (x : Nat) :
    memRead (retireGroup ps ps m) x = byteMax (memRead m x) (maxAimedAt x ps) := by
  rw [memRead_retireGroup h]
  split
  · rfl
  · rename_i hn; rw [maxAimedAt_of_none x hn]; exact (byteMax_zero_right _).symm

theorem arbitrateRounds_wf {m : Memory} (h : Memory.wf m = true) (lanes fuel : Nat) (ps : List (Nat × Byte)) :
    Memory.wf (arbitrateRounds lanes fuel ps m) = true := by
  induction fuel generalizing m ps with
  | zero => exact h
  | succ fuel ih =>
    cases ps with
    | nil => exact h
    | cons p ps => exact ih (retireGroup_wf h _ _) _

theorem memRead_arbitrateRounds {m : Memory} (h : Memory.wf m = true) {lanes : Nat} (hl : 1 ≤ lanes) (fuel : Nat)
    (ps : List (Nat × Byte)) (hf : ps.length ≤ fuel) (x : Nat) :
    memRead (arbitrateRounds lanes fuel ps m) x = byteMax (memRead m x) (maxAimedAt x ps) := by
  induction fuel generalizing m ps with
  | zero =>
    have : ps = [] := List.length_eq_zero_iff.1 (by omega)
    subst this; simp [arbitrateRounds, maxAimedAt]
  | succ fuel ih =>
    cases ps with
    | nil => simp [arbitrateRounds, maxAimedAt]
    | cons p ps =>
      have hlen : ((p :: ps).drop lanes).length ≤ fuel := by
        rw [List.length_drop]; simp only [List.length_cons] at hf ⊢; omega
      rw [arbitrateRounds, ih (retireGroup_wf h _ _) _ hlen, memRead_retireGroup_self h, byteMax_assoc, ← maxAimedAt_append,
        List.take_append_drop]

theorem arbitrate_wf {m : Memory} (h : Memory.wf m = true) (lanes : Nat) (ps : List (Nat × Byte)) :
    Memory.wf (arbitrate lanes ps m) = true := arbitrateRounds_wf h lanes _ ps

/-- What the arbiter does to a cell, for any number of lanes (41_update.md R118). -/
theorem memRead_arbitrate {m : Memory} (h : Memory.wf m = true) {lanes : Nat} (hl : 1 ≤ lanes) (ps : List (Nat × Byte)) (x : Nat) :
    memRead (arbitrate lanes ps m) x = byteMax (memRead m x) (maxAimedAt x ps) :=
  memRead_arbitrateRounds h hl _ ps le_rfl x

/-! ## The merge -/

theorem mergeCells_wf {m : Memory} (h : Memory.wf m = true) (i : Nat) (bs : List Byte) :
    Memory.wf (mergeCells i bs m) = true := by
  induction bs generalizing m i with
  | nil => exact h
  | cons b bs ih => exact ih (writeIfGreater_wf h i b) (i + 1)

/-- What the merge does to a cell. -/
theorem memRead_mergeCells {m : Memory} (h : Memory.wf m = true) (i : Nat) (bs : List Byte) (x : Nat) :
    memRead (mergeCells i bs m) x = if i ≤ x then byteMax (memRead m x) (bs.getD (x - i) 0) else memRead m x := by
  induction bs generalizing m i with
  | nil => simp [mergeCells]
  | cons b bs ih =>
    simp only [mergeCells]
    rw [ih (writeIfGreater_wf h i b), memRead_writeIfGreater h]
    by_cases hx : x = i
    · subst hx; simp
    · by_cases hlt : i ≤ x
      · have e : x - i = (x - (i + 1)) + 1 := by omega
        rw [if_pos (by omega), if_neg hx, if_pos hlt, e, List.getD_cons_succ]
      · rw [if_neg (by omega), if_neg hx, if_neg hlt]

theorem mergeCells_comm {m : Memory} (h : Memory.wf m = true) (a b : List Byte) : mergeCells 0 a (mergeCells 0 b m) = mergeCells 0 b (mergeCells 0 a m) := by
  refine Memory.ext_of_read (mergeCells_wf (mergeCells_wf h _ _) _ _) (mergeCells_wf (mergeCells_wf h _ _) _ _) fun x => ?_
  rw [memRead_mergeCells (mergeCells_wf h _ _), memRead_mergeCells (mergeCells_wf h _ _), memRead_mergeCells h, memRead_mergeCells h]
  simp only [Nat.zero_le, if_true]
  rw [byteMax_assoc, byteMax_assoc, byteMax_comm (b.getD _ _)]

theorem mergeCells_idem {m : Memory} (h : Memory.wf m = true) (a : List Byte) : mergeCells 0 a (mergeCells 0 a m) = mergeCells 0 a m := by
  refine Memory.ext_of_read (mergeCells_wf (mergeCells_wf h _ _) _ _) (mergeCells_wf h _ _) fun x => ?_
  rw [memRead_mergeCells (mergeCells_wf h _ _), memRead_mergeCells h]
  simp only [Nat.zero_le, if_true]
  rw [byteMax_assoc, byteMax_self]

/-! ## Which cells can become listed -/

/-- No maximum is above a bound of its members. -/
theorem maxAimedAt_le {x n : Nat} {ps : List (Nat × Byte)} (h : ∀ p ∈ ps, p.2.toNat ≤ n) : (maxAimedAt x ps).toNat ≤ n := by
  induction ps with
  | nil => simp [maxAimedAt]
  | cons p ps ih =>
    obtain ⟨j, r⟩ := p
    have h1 := h (j, r) (by simp)
    have h2 := ih fun p hp => h p (by simp [hp])
    rw [maxAimedAt_cons]; split
    · rw [byteMax_toNat]; exact max_le h1 h2
    · exact h2

/-- The arbiter raises no cell above a bound that the cell and every rank keep, whatever the number of lanes. -/
theorem memRead_arbitrate_le {m : Memory} (h : Memory.wf m = true) {x n : Nat} (hm : (memRead m x).toNat ≤ n) {lanes : Nat}
    {ps : List (Nat × Byte)} (hp : ∀ p ∈ ps, p.2.toNat ≤ n) : (memRead (arbitrate lanes ps m) x).toNat ≤ n := by
  unfold arbitrate
  generalize ps.length = fuel
  induction fuel generalizing m ps with
  | zero => exact hm
  | succ fuel ih =>
    cases ps with
    | nil => exact hm
    | cons p ps =>
      refine ih (retireGroup_wf h _ _) ?_ fun q hq => hp q (List.mem_of_mem_drop hq)
      rw [memRead_retireGroup_self h, byteMax_toNat]
      exact max_le hm (maxAimedAt_le fun q hq => hp q (List.mem_of_mem_take hq))

theorem retireGroup_mem {all ps : List (Nat × Byte)} {m : Memory} {c : Host.Cell} (h : c ∈ retireGroup all ps m) :
    (∃ p ∈ ps, c.1 = p.1) ∨ c ∈ m := by
  induction ps generalizing m with
  | nil => exact .inr h
  | cons p ps ih =>
    rcases ih h with ⟨q, hq, e⟩ | h
    · exact .inl ⟨q, by simp [hq], e⟩
    · rcases writeIfGreater_mem h with e | h
      · exact .inl ⟨p, by simp, e⟩
      · exact .inr h

/-- The arbiter lists no cell that no pair aims at. -/
theorem arbitrateRounds_mem {lanes fuel : Nat} {ps : List (Nat × Byte)} {m : Memory} {c : Host.Cell} (h : c ∈ arbitrateRounds lanes fuel ps m) :
    (∃ p ∈ ps, c.1 = p.1) ∨ c ∈ m := by
  induction fuel generalizing m ps with
  | zero => exact .inr h
  | succ fuel ih =>
    cases ps with
    | nil => exact .inr h
    | cons p ps =>
      rcases ih h with ⟨q, hq, e⟩ | h
      · exact .inl ⟨q, List.mem_of_mem_drop hq, e⟩
      · rcases retireGroup_mem h with ⟨q, hq, e⟩ | h
        · exact .inl ⟨q, List.mem_of_mem_take hq, e⟩
        · exact .inr h

/-- The merge lists no cell beyond its operand. -/
theorem mergeCells_mem {i : Nat} {bs : List Byte} {m : Memory} {c : Host.Cell} (h : c ∈ mergeCells i bs m) :
    (i ≤ c.1 ∧ c.1 < i + bs.length) ∨ c ∈ m := by
  induction bs generalizing m i with
  | nil => exact .inr h
  | cons b bs ih =>
    rcases ih h with h | h
    · left; simp only [List.length_cons]; omega
    · rcases writeIfGreater_mem h with e | h
      · left; simp only [List.length_cons]; omega
      · exact .inr h

end Sys2Proof.Machine
end

