-- ==== Sys2Proof/Laws/Exec.lean ====
section
/-! SUPPORT. One lemma per shared operation and per command, saying once everything it can do; later proofs cite these and do not unfold
the meanings. -/

namespace Sys2Proof.Machine

/-! ## Headers -/

theorem responseHeader_ok_zero (op : Opcode) : responseHeader op.code 0 .ok = op.code.setWidth 32 <<< 24 := by
  cases op <;> decide

/-- Bits 31:24 of a response header are the echoed opcode (30_encoding.md R68). -/
theorem responseHeader_opc (opc info : Byte) (st : Status) : (responseHeader opc info st).extractLsb' 24 8 = opc := by
  unfold responseHeader
  ext i hi
  interval_cases i <;> simp

theorem responseHeader_shift (opc info : Byte) (st : Status) : responseHeader opc info st >>> 24 = opc.setWidth 32 := by
  unfold responseHeader
  ext i hi
  interval_cases i <;> simp

theorem responseHeader_status (opc info : Byte) (st : Status) : (responseHeader opc info st).extractLsb' 0 8 = statusCode st := by
  unfold responseHeader
  ext i hi
  interval_cases i <;> simp

/-- Bits 15:0 of a response header are 0 and the status. -/
theorem responseHeader_low (opc info : Byte) (st : Status) :
    (responseHeader opc info st).extractLsb' 0 16 = (statusCode st).setWidth 16 := by
  unfold responseHeader
  ext i hi
  interval_cases i <;> simp

/-- The header of an error response (60_exceptions.md R203). -/
theorem responseHeader_zero_eq (opc : Byte) (st : Status) :
    responseHeader opc 0 st = (opc.setWidth 32 <<< 24) ||| (statusCode st).setWidth 32 := by
  simp [responseHeader]

/-! ## The shared operations -/

@[simp] theorem needSketch_of_valid {op : Opcode} {s : State} {run : Host.Outcome State Fault Refusal} (h : s.valid = true) :
    needSketch op s run = run := by simp [needSketch, h]

@[simp] theorem needSketch_of_none {op : Opcode} {s : State} {run : Host.Outcome State Fault Refusal} (h : s.valid = false) :
    needSketch op s run = raise op.code .noSketch s := by simp [needSketch, h]

theorem raise_eq (opc : Byte) (st : Status) (s : State) : raise opc st s = .next (s.send [responseHeader opc 0 st]) := rfl

theorem respond_eq (op : Opcode) (info : Byte) (payload : List Word) (s : State) :
    respond op info payload s = .next (s.send (responseHeader op.code info .ok :: payload)) := rfl

/-- The block's pairs are those of its constants. -/
theorem updatePair_eq (s : State) : updatePair s = updatePairWith Config.hash s := rfl

/-- The block is the instance at the default parameters. -/
theorem exec_eq (i : Instr) (s : State) : exec i s = execWith defaults i s := by cases i <;> rfl

/-! ## What each command does on success, before its answer is sent -/

/-- The state a command leaves when it ends with status OK, less the answer and less the model's counter. -/
def okState : Instr → State → State
  | .init k seed, s => s.construct (k.extractLsb' 0 5) (seedOr seed)
  | .add d, s => s.withStore (writeIfGreater s.store (updatePair s d).1 (updatePair s d).2)
  | .addv ds, s => s.withStore (arbitrate Config.lanes (ds.map (updatePair s)) s.store)
  | .merge _ o, s => s.withStore (mergeCells 0 o s.store)
  | .setreg index rank, s => s.withStore (overwrite s.store index.toNat (rank.extractLsb' 0 8))
  | .hash _ _, s => s
  | .card, s => s
  | .rdregs, s => s
  | .getseed, s => s
  | .getsize, s => s

/-- The same for any parameters. -/
def okStateWith (p : Params) : Instr → State → State
  | .add d, s => s.withStore (writeIfGreater s.store (updatePairWith p.hash s d).1 (updatePairWith p.hash s d).2)
  | .addv ds, s => s.withStore (arbitrate p.lanes (ds.map (updatePairWith p.hash s)) s.store)
  | .init k seed, s => okState (.init k seed) s
  | .merge ok o, s => okState (.merge ok o) s
  | .setreg index rank, s => okState (.setreg index rank) s
  | .hash _ _, s => s
  | .card, s => s
  | .rdregs, s => s
  | .getseed, s => s
  | .getsize, s => s

theorem okState_eq (i : Instr) (s : State) : okState i s = okStateWith defaults i s := by cases i <;> rfl

/-- The first error of a command on a state, past the decoder (60_exceptions.md R205). -/
def commandError (i : Instr) (s : State) : Status :=
  if i.needsSketch = true ∧ s.valid = false then .noSketch
  else
    match i with
    | .init k _ => if k.toNat < 2 ∨ 16 < k.toNat then .invalidPrecision else .ok
    | .merge ok o =>
      if ok.toNat ≠ s.k.toNat then .sizeMismatch
      else if ∃ b ∈ o, 32 < b.toNat then .rankOutOfRange
      else .ok
    | .setreg index rank =>
      if 2 ^ s.k.toNat ≤ index.toNat then .indexOutOfRange
      else if 32 < rank.toNat then .rankOutOfRange
      else .ok
    | .add _ | .addv _ | .hash _ _ | .card | .rdregs | .getseed | .getsize => .ok

theorem firstError_of_command {ws : Frame} {i : Instr} (h : decode ws = .ok i) (s : State) : firstError ws s = commandError i s := by
  simp only [firstError, h, commandError]
  all_goals cases i <;> rfl

theorem firstError_of_rejected {ws : Frame} {e : DecodeError} (h : decode ws = .error e) (s : State) :
    firstError ws s = decodeStatus e := by
  simp only [firstError, h]

theorem commandError_of_noSketch {i : Instr} {s : State} (hn : i.needsSketch = true) (hv : s.valid = false) :
    commandError i s = .noSketch := by
  unfold commandError; rw [if_pos ⟨hn, hv⟩]

/-- A command that needs a sketch and finds none. -/
theorem exec_of_noSketch {i : Instr} {s : State} (hn : i.needsSketch = true) (hv : s.valid = false) :
    exec i s = raise i.opcode.code .noSketch s := by
  cases i with
  | init k seed => exact absurd hn (by simp [Instr.needsSketch])
  | hash seed d => exact absurd hn (by simp [Instr.needsSketch])
  | _ =>
    simp only [exec, execAdd, addWith, execAddv, addvWith, execCard, cardWith, execMerge, execRdregs, execSetreg, execGetseed, execGetsize,
        needSketch_of_none hv]; rfl

theorem exec_init_illegal {k : BitVec 16} {seed : Option Word} {s : State} (h : k.toNat < 2 ∨ 16 < k.toNat) :
    exec (.init k seed) s = raise Opcode.init.code .invalidPrecision s := by
  have h' : k.toNat < Config.kMin ∨ Config.kMax < k.toNat := h
  simp only [exec, execInit, if_pos h']

theorem exec_init_legal {k : BitVec 16} {seed : Option Word} {s : State} (h : ¬ (k.toNat < 2 ∨ 16 < k.toNat)) :
    exec (.init k seed) s = respond .init 0 [] (s.construct (k.extractLsb' 0 5) (seedOr seed)) := by
  have h' : ¬ (k.toNat < Config.kMin ∨ Config.kMax < k.toNat) := h
  simp only [exec, execInit, if_neg h']

theorem exec_merge_size {ok : BitVec 16} {o : List Byte} {s : State} (hv : s.valid = true) (h : ok.toNat ≠ s.k.toNat) :
    exec (.merge ok o) s = raise Opcode.merge.code .sizeMismatch s := by
  simp only [exec, execMerge, needSketch_of_valid hv, if_pos h]

theorem anyAbove_eq_true {o : List Byte} (h : ∃ b ∈ o, 32 < b.toNat) : o.any (fun b => decide (Config.rankMax < b.toNat)) = true := by
  obtain ⟨b, hm, hb⟩ := h
  exact List.any_eq_true.2 ⟨b, hm, decide_eq_true hb⟩

theorem anyAbove_eq_false {o : List Byte} (h : ¬ ∃ b ∈ o, 32 < b.toNat) :
    o.any (fun b => decide (Config.rankMax < b.toNat)) = false := by
  rw [List.any_eq_false]
  exact fun b hm hb => h ⟨b, hm, of_decide_eq_true hb⟩

theorem exec_merge_range {ok : BitVec 16} {o : List Byte} {s : State} (hv : s.valid = true) (h : ok.toNat = s.k.toNat)
    (hb : ∃ b ∈ o, 32 < b.toNat) : exec (.merge ok o) s = raise Opcode.merge.code .rankOutOfRange s := by
  simp only [exec, execMerge, needSketch_of_valid hv, if_neg (fun h' : ok.toNat ≠ s.k.toNat => h' h), anyAbove_eq_true hb, if_true]

theorem exec_merge_ok {ok : BitVec 16} {o : List Byte} {s : State} (hv : s.valid = true) (h : ok.toNat = s.k.toNat)
    (hb : ¬ ∃ b ∈ o, 32 < b.toNat) : exec (.merge ok o) s = respond .merge 0 [] (s.withStore (mergeCells 0 o s.store)) := by
  simp only [exec, execMerge, needSketch_of_valid hv, if_neg (fun h' : ok.toNat ≠ s.k.toNat => h' h), anyAbove_eq_false hb,
    Bool.false_eq_true, if_false]

theorem exec_setreg_index {index rank : Word} {s : State} (hv : s.valid = true) (h : 2 ^ s.k.toNat ≤ index.toNat) :
    exec (.setreg index rank) s = raise Opcode.setreg.code .indexOutOfRange s := by
  have h' : s.size ≤ index.toNat := h
  simp only [exec, execSetreg, needSketch_of_valid hv, if_pos h']

theorem exec_setreg_rank {index rank : Word} {s : State} (hv : s.valid = true) (h : ¬ 2 ^ s.k.toNat ≤ index.toNat)
    (hr : 32 < rank.toNat) : exec (.setreg index rank) s = raise Opcode.setreg.code .rankOutOfRange s := by
  have h' : ¬ s.size ≤ index.toNat := h
  have hr' : Config.rankMax < rank.toNat := hr
  simp only [exec, execSetreg, needSketch_of_valid hv, if_neg h', if_pos hr']

theorem exec_setreg_ok {index rank : Word} {s : State} (hv : s.valid = true) (h : ¬ 2 ^ s.k.toNat ≤ index.toNat)
    (hr : ¬ 32 < rank.toNat) :
    exec (.setreg index rank) s
      = respond .setreg 0 [] (s.withStore (overwrite s.store index.toNat (rank.extractLsb' 0 8))) := by
  have h' : ¬ s.size ≤ index.toNat := h
  have hr' : ¬ Config.rankMax < rank.toNat := hr
  simp only [exec, execSetreg, needSketch_of_valid hv, if_neg h', if_neg hr']

theorem exec_add_ok {d : List Byte} {s : State} (hv : s.valid = true) :
    exec (.add d) s = respond .add 0 [] (s.withStore (writeIfGreater s.store (updatePair s d).1 (updatePair s d).2)) := by
  simp only [exec, execAdd, addWith, needSketch_of_valid hv, updatePair_eq]

theorem exec_addv_ok {ds : List (List Byte)} {s : State} (hv : s.valid = true) :
    exec (.addv ds) s = respond .addv 0 [] (s.withStore (arbitrate Config.lanes (ds.map (updatePair s)) s.store)) := by
  simp only [exec, execAddv, addvWith, needSketch_of_valid hv, updatePair_eq]

theorem exec_hash (seed : Option Word) (d : List Byte) (s : State) :
    exec (.hash seed d) s = respond .hash 0 [murmur3 d (seedOr seed)] s := rfl

/-- CARD with an estimate that is a number. -/
theorem exec_card_number {s : State} {r : Regime} {e : F64} (hv : s.valid = true)
    (he : estimate LN s.k.toNat (snapshot s) = (r, e)) (hn : f64IsNaN e = false) :
    exec .card s = respond .card (regimeCode r) (f64Words e) s := by
  simp only [exec, execCard, cardWith, needSketch_of_valid hv, he, hn, Bool.false_eq_true, if_false]

/-- CARD with an estimate that is NaN: its bits are drawn. -/
theorem exec_card_nan {s : State} {r : Regime} {e : F64} (hv : s.valid = true)
    (he : estimate LN s.k.toNat (snapshot s) = (r, e)) (hn : f64IsNaN e = true) :
    exec .card s = respond .card (regimeCode r) (f64Words (drawnNaN s.draws)) s.drawn := by
  simp only [exec, execCard, cardWith, needSketch_of_valid hv, he, hn, if_true]

theorem exec_rdregs_ok {s : State} (hv : s.valid = true) :
    exec .rdregs s = respond .rdregs 0 (vectorWords (snapshot s)) s := by
  simp only [exec, execRdregs, needSketch_of_valid hv]

theorem exec_getseed_ok {s : State} (hv : s.valid = true) : exec .getseed s = respond .getseed 0 [s.seed] s := by
  simp only [exec, execGetseed, needSketch_of_valid hv]

theorem exec_getsize_ok {s : State} (hv : s.valid = true) :
    exec .getsize s = respond .getsize 0 [(1 : Word) <<< s.k.toNat] s := by
  simp only [exec, execGetsize, needSketch_of_valid hv]

/-- A command with a first error is the one shared error entry, whatever the command. -/
theorem exec_of_error {i : Instr} {s : State} (h : commandError i s ≠ .ok) :
    exec i s = raise i.opcode.code (commandError i s) s := by
  by_cases hn : i.needsSketch = true ∧ s.valid = false
  · rw [commandError_of_noSketch hn.1 hn.2]; exact exec_of_noSketch hn.1 hn.2
  · have hv : i.needsSketch = true → s.valid = true := fun h1 => by
      cases hs : s.valid with
      | true => rfl
      | false => exact absurd ⟨h1, hs⟩ hn
    unfold commandError at h ⊢
    rw [if_neg hn] at h ⊢
    cases i with
    | init k seed =>
      by_cases hk : k.toNat < 2 ∨ 16 < k.toNat
      · simp only [if_pos hk]; exact exec_init_illegal hk
      · simp only [if_neg hk] at h; exact absurd rfl h
    | merge ok o =>
      by_cases hk : ok.toNat ≠ s.k.toNat
      · simp only [if_pos hk]; exact exec_merge_size (hv rfl) hk
      · by_cases hb : ∃ b ∈ o, 32 < b.toNat
        · simp only [if_neg hk, if_pos hb]; exact exec_merge_range (hv rfl) (not_not.1 hk) hb
        · simp only [if_neg hk, if_neg hb] at h; exact absurd rfl h
    | setreg index rank =>
      by_cases hi : 2 ^ s.k.toNat ≤ index.toNat
      · simp only [if_pos hi]; exact exec_setreg_index (hv rfl) hi
      · by_cases hr : 32 < rank.toNat
        · simp only [if_neg hi, if_pos hr]; exact exec_setreg_rank (hv rfl) hi hr
        · simp only [if_neg hi, if_neg hr] at h; exact absurd rfl h
    | _ => exact absurd rfl h

/-- What an absent error says of the operands and the state. -/
theorem commandError_ok {i : Instr} {s : State} (h : commandError i s = .ok) :
    (i.needsSketch = true → s.valid = true) ∧
    (∀ k seed, i = .init k seed → ¬ (k.toNat < 2 ∨ 16 < k.toNat)) ∧
    (∀ ok o, i = .merge ok o → ok.toNat = s.k.toNat ∧ ¬ ∃ b ∈ o, 32 < b.toNat) ∧
    (∀ index rank, i = .setreg index rank → ¬ 2 ^ s.k.toNat ≤ index.toNat ∧ ¬ 32 < rank.toNat) := by
  unfold commandError at h
  split at h
  · exact absurd h (by decide)
  · rename_i hn
    refine ⟨fun h1 => ?_, ?_, ?_, ?_⟩
    · cases hs : s.valid with
      | true => rfl
      | false => exact absurd ⟨h1, hs⟩ hn
    · rintro k seed rfl hk; simp only [if_pos hk] at h; exact absurd h (by decide)
    · rintro ok o rfl
      by_cases hk : ok.toNat ≠ s.k.toNat
      · simp only [if_pos hk] at h; exact absurd h (by decide)
      · refine ⟨not_not.1 hk, fun hb => ?_⟩
        simp only [if_neg hk, if_pos hb] at h; exact absurd h (by decide)
    · rintro index rank rfl
      by_cases hi : 2 ^ s.k.toNat ≤ index.toNat
      · simp only [if_pos hi] at h; exact absurd h (by decide)
      · refine ⟨hi, fun hr => ?_⟩
        simp only [if_neg hi, if_pos hr] at h; exact absurd h (by decide)

/-- The same for any parameters. -/
theorem execWith_of_error (p : Params) {i : Instr} {s : State} (h : commandError i s ≠ .ok) :
    execWith p i s = raise i.opcode.code (commandError i s) s := by
  have he := exec_of_error h
  by_cases hn : i.needsSketch = true ∧ s.valid = false
  · rw [commandError_of_noSketch hn.1 hn.2] at he ⊢
    cases i with
    | add d => simp only [execWith, addWith, needSketch_of_none hn.2]; rfl
    | addv ds => simp only [execWith, addvWith, needSketch_of_none hn.2]; rfl
    | card => simp only [execWith, cardWith, needSketch_of_none hn.2]; rfl
    | hash seed d => exact absurd hn.1 (by simp [Instr.needsSketch])
    | _ => exact he
  · have hno : ∀ {j : Instr}, (if j.needsSketch = true ∧ s.valid = false then Status.noSketch else .ok) ≠ .ok →
        j.needsSketch = true ∧ s.valid = false := fun {j} h => by by_contra hc; rw [if_neg hc] at h; exact h rfl
    cases i with
    | add d => exact absurd (hno h) hn
    | addv ds => exact absurd (hno h) hn
    | card => exact absurd (hno h) hn
    | hash seed d => exact absurd (hno h) hn
    | _ => exact he

/-- A command without an error answers OK from the state its rule gives; a CARD whose estimate is NaN also draws a free value. -/
theorem execWith_of_ok (p : Params) {i : Instr} {s : State} (h : commandError i s = .ok) :
    ∃ (info : Byte) (payload : List Word) (d : Nat),
      execWith p i s = .next ({ okStateWith p i s with draws := d }.send (responseHeader i.opcode.code info .ok :: payload)) ∧
      info.toNat ≤ 3 ∧ (i = .card → 1 ≤ info.toNat) ∧ (i ≠ .card → info = 0 ∧ d = s.draws) := by
  obtain ⟨hv, hinit, hmerge, hset⟩ := commandError_ok h
  have plain : ∀ {j : Instr} (payload : List Word), j ≠ .card →
      execWith p j s = .next ((okStateWith p j s).send (responseHeader j.opcode.code 0 .ok :: payload)) →
      (okStateWith p j s).draws = s.draws → ∃ (info : Byte) (payload : List Word) (d : Nat),
      execWith p j s = .next ({ okStateWith p j s with draws := d }.send (responseHeader j.opcode.code info .ok :: payload)) ∧
      info.toNat ≤ 3 ∧ (j = .card → 1 ≤ info.toNat) ∧ (j ≠ .card → info = 0 ∧ d = s.draws) :=
    fun {j} payload hj he hd => ⟨0, payload, s.draws, by rw [he, ← hd], by decide, fun h => absurd h hj, fun _ => ⟨rfl, rfl⟩⟩
  cases i with
  | init k seed => exact plain [] (by simp) (exec_init_legal (hinit k seed rfl)) rfl
  | add d => exact plain [] (by simp) (by simp only [execWith, addWith, needSketch_of_valid (hv rfl)]; rfl) rfl
  | addv ds => exact plain [] (by simp) (by simp only [execWith, addvWith, needSketch_of_valid (hv rfl)]; rfl) rfl
  | hash seed d => exact plain [murmur3With p.hash d (seedOr seed)] (by simp) rfl rfl
  | card =>
    simp only [execWith, cardWith, needSketch_of_valid (hv rfl)]
    have hr : ∀ r : Regime, (regimeCode r).toNat ≤ 3 ∧ 1 ≤ (regimeCode r).toNat := fun r => by cases r <;> decide
    split
    · exact ⟨_, _, s.draws + 1, rfl, (hr _).1, fun _ => (hr _).2, fun h => absurd rfl h⟩
    · exact ⟨_, _, s.draws, rfl, (hr _).1, fun _ => (hr _).2, fun h => absurd rfl h⟩
  | merge ok o =>
    obtain ⟨hk, hb⟩ := hmerge ok o rfl
    exact plain [] (by simp) (exec_merge_ok (hv rfl) hk hb) rfl
  | rdregs => exact plain (vectorWords (snapshot s)) (by simp) (exec_rdregs_ok (hv rfl)) rfl
  | setreg index rank =>
    obtain ⟨hi, hr⟩ := hset index rank rfl
    exact plain [] (by simp) (exec_setreg_ok (hv rfl) hi hr) rfl
  | getseed => exact plain _ (by simp) (exec_getseed_ok (hv rfl)) rfl
  | getsize => exact plain _ (by simp) (exec_getsize_ok (hv rfl)) rfl

theorem exec_of_ok {i : Instr} {s : State} (h : commandError i s = .ok) :
    ∃ (info : Byte) (payload : List Word) (d : Nat),
      exec i s = .next ({ okState i s with draws := d }.send (responseHeader i.opcode.code info .ok :: payload)) ∧
      info.toNat ≤ 3 ∧ (i = .card → 1 ≤ info.toNat) ∧ (i ≠ .card → info = 0 ∧ d = s.draws) := by
  rw [exec_eq, okState_eq]; exact execWith_of_ok defaults h

/-- Everything a command can do: the shared error entry with its first error, or its rule's state and an OK answer. -/
theorem execWith_cases {p : Params} {i : Instr} {s t : State} (h : execWith p i s = .next t) :
    (∃ st, st ≠ .ok ∧ t = s.send [responseHeader i.opcode.code 0 st]) ∨
    (commandError i s = .ok ∧ ∃ (info : Byte) (payload : List Word) (d : Nat),
      t = { okStateWith p i s with draws := d }.send (responseHeader i.opcode.code info .ok :: payload) ∧ info.toNat ≤ 3 ∧
      (i = .card → 1 ≤ info.toNat) ∧ (i ≠ .card → info = 0 ∧ d = s.draws)) := by
  by_cases he : commandError i s = .ok
  · obtain ⟨info, payload, d, h1, h2⟩ := execWith_of_ok p he
    rw [h1] at h; cases h
    exact .inr ⟨he, info, payload, d, rfl, h2⟩
  · rw [execWith_of_error p he, raise_eq] at h; cases h
    exact .inl ⟨_, he, rfl⟩

theorem exec_cases {i : Instr} {s t : State} (h : exec i s = .next t) :
    (∃ st, st ≠ .ok ∧ t = s.send [responseHeader i.opcode.code 0 st]) ∨
    (commandError i s = .ok ∧ ∃ (info : Byte) (payload : List Word) (d : Nat),
      t = { okState i s with draws := d }.send (responseHeader i.opcode.code info .ok :: payload) ∧ info.toNat ≤ 3 ∧
      (i = .card → 1 ≤ info.toNat) ∧ (i ≠ .card → info = 0 ∧ d = s.draws)) := by
  rw [okState_eq]; exact execWith_cases (exec_eq i s ▸ h)

/-- Every command answers a next state. -/
theorem execWith_answers (p : Params) (i : Instr) (s : State) : ∃ t, execWith p i s = .next t := by
  by_cases h : commandError i s = .ok
  · obtain ⟨_, _, _, h, _⟩ := execWith_of_ok p h; exact ⟨_, h⟩
  · exact ⟨_, execWith_of_error p h⟩

theorem exec_answers (i : Instr) (s : State) : ∃ t, exec i s = .next t := by rw [exec_eq]; exact execWith_answers defaults i s

/-- No command but INIT writes `VALID`, `K` or `SEED`. -/
theorem okState_control {i : Instr} (s : State) (h : i.opcode ≠ .init) :
    (okState i s).valid = s.valid ∧ (okState i s).k = s.k ∧ (okState i s).seed = s.seed := by
  cases i <;> first | exact absurd rfl h | exact ⟨rfl, rfl, rfl⟩

/-- A command touches neither the command stream nor, before its answer, the response stream. -/
theorem okState_streams (i : Instr) (s : State) :
    (okState i s).port = s.port ∧ (okState i s).responses = s.responses := by
  cases i <;> exact ⟨rfl, rfl⟩

/-- The low five bits hold a legal precision. -/
theorem toNat_precision {k : BitVec 16} (h : k.toNat ≤ 16) : (k.extractLsb' 0 5).toNat = k.toNat := by
  simp only [BitVec.extractLsb'_toNat, Nat.shiftRight_zero]; omega

theorem execAll_cons {i : Instr} {is : List Instr} {s t : State} (h : exec i s = .next t) : execAll (i :: is) s = execAll is t := by
  simp only [execAll, h]

/-! ## Steps -/

section Steps

variable {dec : Frame → Except DecodeError Instr} {run : Instr → State → Host.Outcome State Fault Refusal} {s : State} {rest : List HostEvent}
  {ws : Frame}

theorem stepBy_of_nil (h : s.port = []) : stepBy dec run s = .next s := by
  simp only [stepBy, fetchBy, h]

theorem stepBy_of_reset (h : s.port = .reset :: rest) : stepBy dec run s = .next (takeReset (s.withPort rest)) := by
  simp only [stepBy, fetchBy, h]

theorem stepBy_of_command {i : Instr} (h : s.port = .frame ws :: rest) (hd : dec ws = .ok i) : stepBy dec run s = run i (s.withPort rest) := by
  simp only [stepBy, fetchBy, h, hd]

theorem stepBy_of_rejected {e : DecodeError} (h : s.port = .frame ws :: rest) (hd : dec ws = .error e) :
    stepBy dec run s = raise (frameOpc ws) (decodeStatus e) (s.withPort rest) := by
  simp only [stepBy, fetchBy, h, hd]

theorem step_of_nil (h : s.port = []) : step s = .next s := stepBy_of_nil h

theorem step_of_reset (h : s.port = .reset :: rest) : step s = .next (takeReset (s.withPort rest)) := stepBy_of_reset h

theorem step_of_command {i : Instr} (h : s.port = .frame ws :: rest) (hd : decode ws = .ok i) : step s = exec i (s.withPort rest) :=
  stepBy_of_command h hd

theorem step_of_rejected {e : DecodeError} (h : s.port = .frame ws :: rest) (hd : decode ws = .error e) :
    step s = raise (frameOpc ws) (decodeStatus e) (s.withPort rest) := stepBy_of_rejected h hd

end Steps

/-- The block's step is the instance at the default parameters. -/
theorem step_eq (s : State) : step s = stepWith defaults s := by
  have h : exec = execWith defaults := funext fun i => funext fun s => exec_eq i s
  rw [step, stepWith, h]; rfl

end Sys2Proof.Machine
end

