-- ==== Sys2Proof/Laws/Operands.lean ====
section
/-! SUPPORT. The bounds of a hash's index and rank (41_update.md R111, R113), and of the register store's cells. -/

namespace Sys2Proof.Machine

theorem hashIndex_lt {k : Nat} (hk : k ≤ 32) (h : Word) : hashIndex k h < 2 ^ k := by
  unfold hashIndex
  rw [Nat.shiftRight_eq_div_pow, Nat.div_lt_iff_lt_mul (Nat.two_pow_pos _), ← Nat.pow_add, show k + (32 - k) = 32 by omega]
  exact h.isLt

theorem clz_le (w t : Nat) : clz w t ≤ w := by
  unfold clz; split <;> omega

/-- No rank is above `33 - K`. -/
theorem hashRank_le {k : Nat} (hk : k ≤ 32) (h : Word) : hashRank k h ≤ 33 - k := by
  have := clz_le (32 - k) (hashTail k h)
  unfold hashRank
  omega

theorem hashRank_pos (k : Nat) (h : Word) : 1 ≤ hashRank k h := by unfold hashRank; omega

theorem updatePair_fst (s : State) (d : List Byte) : (updatePair s d).1 = hashIndex s.k.toNat (murmur3 d s.seed) := rfl

/-! An item's pair depends on the precision and the seed alone. Rewrite with these; left to definitional unfolding, the kernel compares
the stores too and can run into the hash. -/

@[simp] theorem updatePair_withStore (s : State) (m : Memory) : updatePair (s.withStore m) = updatePair s := rfl
@[simp] theorem updatePair_withPort (s : State) (p : List HostEvent) : updatePair (s.withPort p) = updatePair s := rfl
@[simp] theorem updatePair_send (s : State) (f : Frame) : updatePair (s.send f) = updatePair s := rfl

/-- The selected cell is a cell of the sketch, whatever the precision and the hash constants. -/
theorem updatePairWith_fst_lt (p : HashParams) (s : State) (d : List Byte) : (updatePairWith p s d).1 < s.size :=
  hashIndex_lt (by have := s.k.isLt; omega) _

/-- The rank is not truncated by the cell's eight bits. -/
theorem updatePairWith_snd_toNat (p : HashParams) (s : State) (d : List Byte) :
    (updatePairWith p s d).2.toNat = hashRank s.k.toNat (murmur3With p d s.seed) := by
  have := hashRank_le (k := s.k.toNat) (by have := s.k.isLt; omega) (murmur3With p d s.seed)
  simp only [updatePairWith, BitVec.toNat_ofNat]
  omega

/-- With a legal precision no pair's rank is above 32. -/
theorem updatePairWith_snd_le (p : HashParams) {s : State} (hk : Config.kMin ≤ s.k.toNat) (d : List Byte) :
    (updatePairWith p s d).2.toNat ≤ Config.rankMax := by
  have := hashRank_le (k := s.k.toNat) (by have := s.k.isLt; omega) (murmur3With p d s.seed)
  rw [updatePairWith_snd_toNat]
  unfold Config.kMin at hk; unfold Config.rankMax
  omega

theorem updatePair_fst_lt (s : State) (d : List Byte) : (updatePair s d).1 < s.size := updatePairWith_fst_lt _ s d

theorem updatePair_snd_toNat (s : State) (d : List Byte) :
    (updatePair s d).2.toNat = hashRank s.k.toNat (murmur3 d s.seed) := updatePairWith_snd_toNat _ s d

/-- The largest rank a list of items aims at cell `x`, over a starting value, as the maximum of 41_update.md R117. -/
theorem max_maxAimedAt_updatePair (s : State) (x m : Nat) (ds : List (List Byte)) :
    max m (maxAimedAt x (ds.map (updatePair s))).toNat =
      ((ds.filter fun d => decide (hashIndex s.k.toNat (murmur3 d s.seed) = x)).map
        fun d => hashRank s.k.toNat (murmur3 d s.seed)).foldl max m := by
  induction ds generalizing m with
  | nil => simp [maxAimedAt]
  | cons d ds ih =>
    have h2 := updatePair_snd_toNat s d
    have h1 := updatePair_fst s d
    rw [List.map_cons, List.filter_cons, maxAimedAt_cons' x (updatePair s d)]
    generalize hashIndex s.k.toNat (murmur3 d s.seed) = j at h1 ⊢
    by_cases h : j = x
    · simp only [h1, h, if_true, decide_true, List.map_cons, List.foldl_cons, byteMax_toNat, h2, ← ih, max_assoc]
    · simp only [h1, h, if_false, decide_false, Bool.false_eq_true, ← ih]

theorem size_le_physical {s : State} (h : s.k.toNat ≤ Config.kMax) : s.size ≤ Config.physicalCells :=
  Nat.pow_le_pow_right (by decide) h

@[simp] theorem length_snapshot (s : State) : (snapshot s).length = s.size := by simp [snapshot]

theorem getD_snapshot (s : State) {i : Nat} (h : i < s.size) : (snapshot s).getD i 0 = readCell s i := by
  simp [snapshot, List.getD, h]

theorem mem_snapshot {s : State} {b : Byte} (h : b ∈ snapshot s) : ∃ i, i < s.size ∧ b = readCell s i := by
  obtain ⟨i, hi, rfl⟩ := List.mem_map.1 h
  exact ⟨i, List.mem_range.1 hi, rfl⟩

/-- Equal cells below the size are an equal snapshot. -/
theorem snapshot_congr {s t : State} (hs : s.size = t.size) (h : ∀ i, i < s.size → readCell s i = readCell t i) :
    snapshot s = snapshot t := by
  unfold snapshot
  rw [← hs]
  exact List.map_congr_left fun i hi => h i (List.mem_range.1 hi)

end Sys2Proof.Machine
end

