-- ==== Sys2Proof/Laws/Decode.lean ====
section
/-! SUPPORT. Bytes and words, the header's fields, and one pair of lemmas per part of a frame: the taker reads what the encoder wrote, and
what it reads was written so. -/

namespace Sys2Proof

/-! ## Bytes and words -/

@[simp] theorem wordBytes_le32 (a b c d : Byte) : wordBytes (le32 a b c d) = [a, b, c, d] := by
  simp only [wordBytes, le32, List.cons.injEq, and_true]
  refine ⟨?_, ?_, ?_, ?_⟩ <;> (ext i hi; interval_cases i <;> simp)

theorem le32_extract (w : Word) :
    le32 (w.extractLsb' 0 8) (w.extractLsb' 8 8) (w.extractLsb' 16 8) (w.extractLsb' 24 8) = w := by
  unfold le32; ext i hi; interval_cases i <;> simp

@[simp] theorem length_wordBytes (w : Word) : (wordBytes w).length = 4 := rfl

@[simp] theorem length_unpackWords (ws : List Word) : (unpackWords ws).length = 4 * ws.length := by
  induction ws with
  | nil => rfl
  | cons w ws ih => simp only [unpackWords, List.length_append, length_wordBytes, ih, List.length_cons]; omega

theorem length_packBytes (bs : List Byte) : (packBytes bs).length = (bs.length + 3) / 4 := by
  induction bs using packBytes.induct with
  | case1 => rfl
  | case2 => simp [packBytes]
  | case3 => simp [packBytes]
  | case4 => simp [packBytes]
  | case5 a b c d rest ih => simp only [packBytes, List.length_cons, ih]; omega

theorem packBytes_unpackWords (ws : List Word) : packBytes (unpackWords ws) = ws := by
  induction ws with
  | nil => rfl
  | cons w ws ih =>
    simp only [unpackWords, wordBytes, List.cons_append, List.nil_append, packBytes, ih, le32_extract]

/-- The padding an encoder adds: zero bytes to a whole word. -/
theorem unpackWords_packBytes (bs : List Byte) :
    unpackWords (packBytes bs) = bs ++ List.replicate (4 * ((bs.length + 3) / 4) - bs.length) 0 := by
  induction bs using packBytes.induct with
  | case1 => rfl
  | case2 a => simp [packBytes, unpackWords]
  | case3 a b => simp [packBytes, unpackWords]
  | case4 a b c => simp [packBytes, unpackWords]
  | case5 a b c d rest ih =>
    simp only [packBytes, unpackWords, wordBytes_le32, ih, List.cons_append, List.nil_append, List.length_cons]
    have : 4 * ((rest.length + 1 + 1 + 1 + 1 + 3) / 4) - (rest.length + 1 + 1 + 1 + 1) = 4 * ((rest.length + 3) / 4) - rest.length := by
      omega
    rw [this]

theorem unpackWords_packBytes_whole {bs : List Byte} (h : bs.length % 4 = 0) : unpackWords (packBytes bs) = bs := by
  rw [unpackWords_packBytes, show 4 * ((bs.length + 3) / 4) - bs.length = 0 by omega]
  simp

/-- Zero bytes that only fill the last word are what the packing adds anyway. -/
theorem packBytes_append_zeros (bs : List Byte) (z : Nat) (h : z = 4 * ((bs.length + 3) / 4) - bs.length) :
    packBytes (bs ++ List.replicate z 0) = packBytes bs := by
  rw [h, ← unpackWords_packBytes, packBytes_unpackWords]

theorem unpackWords_append (xs ys : List Word) : unpackWords (xs ++ ys) = unpackWords xs ++ unpackWords ys := by
  induction xs with
  | nil => rfl
  | cons w xs ih => simp only [List.cons_append, unpackWords, ih, List.append_assoc]

/-! ## The header -/

@[simp] theorem headerOpc_encodeHeader (op : Opcode) (s : Bool) (arg : BitVec 16) : headerOpc (encodeHeader op s arg) = op.code := by
  unfold headerOpc encodeHeader; ext i hi; interval_cases i <;> simp

@[simp] theorem headerRsv_encodeHeader (op : Opcode) (s : Bool) (arg : BitVec 16) : headerRsv (encodeHeader op s arg) = 0 := by
  unfold headerRsv encodeHeader; ext i hi; interval_cases i <;> simp

@[simp] theorem headerS_encodeHeader (op : Opcode) (s : Bool) (arg : BitVec 16) : headerS (encodeHeader op s arg) = s := by
  unfold headerS encodeHeader; simp

@[simp] theorem headerArg_encodeHeader (op : Opcode) (s : Bool) (arg : BitVec 16) : headerArg (encodeHeader op s arg) = arg := by
  unfold headerArg encodeHeader; ext i hi; interval_cases i <;> simp

/-- A header with its reserved bits 0 is the header of its own fields. -/
theorem encodeHeader_of_fields {h : Word} {op : Opcode} (ho : op.code = headerOpc h) (hr : headerRsv h = 0) :
    encodeHeader op (headerS h) (headerArg h) = h := by
  unfold encodeHeader
  rw [ho]
  have hr' : ∀ j, j < 7 → h.getLsbD (17 + j) = false := fun j hj => by
    have := congrArg (fun v : BitVec 7 => v.getLsbD j) hr
    simpa [headerRsv, hj] using this
  have h0 := hr' 0 (by decide)
  have h1 := hr' 1 (by decide)
  have h2 := hr' 2 (by decide)
  have h3 := hr' 3 (by decide)
  have h4 := hr' 4 (by decide)
  have h5 := hr' 5 (by decide)
  have h6 := hr' 6 (by decide)
  unfold headerOpc headerS headerArg
  ext i hi
  interval_cases i <;> simp_all

@[simp] theorem ofCode_code (op : Opcode) : Opcode.ofCode op.code = some op := by cases op <;> decide

theorem code_of_ofCode {c : Byte} {op : Opcode} (h : Opcode.ofCode c = some op) : op.code = c := by
  have := List.find?_some h
  simpa using this

/-- Which codes are defined (30_encoding.md R62). -/
theorem ofCode_eq_none_iff (c : Byte) : Opcode.ofCode c = none ↔ c.toNat < 1 ∨ 10 < c.toNat := by
  revert c; decide +revert

theorem headerOpc_toNat (h : Word) : (headerOpc h).toNat = (h >>> 24).toNat := by
  unfold headerOpc
  simp only [BitVec.extractLsb'_toNat, BitVec.toNat_ushiftRight]
  have := h.isLt
  rw [Nat.shiftRight_eq_div_pow, Nat.mod_eq_of_lt (by omega)]

/-! ## The seed word -/

theorem takeSeed_encodeSeed (seed : Option Word) (rest : List Word) :
    takeSeed seed.isSome (encodeSeed seed ++ rest) = some (seed, rest) := by
  cases seed <;> rfl

theorem takeSeed_some {s : Bool} {ws rest : List Word} {seed : Option Word} (h : takeSeed s ws = some (seed, rest)) :
    seed.isSome = s ∧ encodeSeed seed ++ rest = ws := by
  cases s with
  | false => simp only [takeSeed, Bool.false_eq_true, if_false, Option.some.injEq, Prod.mk.injEq] at h; simp [← h.1, ← h.2, encodeSeed]
  | true =>
    cases ws with
    | nil => simp [takeSeed] at h
    | cons w ws =>
      simp only [takeSeed, if_true, Option.some.injEq, Prod.mk.injEq] at h
      simp [← h.1, ← h.2, encodeSeed]

/-! ## A data item -/

theorem itemWf_iff (n : Nat) (d : List Byte) : itemWf n d = true ↔ d.length ≤ n := by simp [itemWf]

theorem maxLen_lt : Config.maxLen < 2 ^ 32 := by decide

theorem takeItem_encodeItem {n : Nat} (hn : n < 2 ^ 32) {d : List Byte} (h : itemWf n d = true) (rest : List Word) :
    takeItem n (encodeItem d ++ rest) = some (d, rest) := by
  have hl : d.length ≤ n := (itemWf_iff n d).1 h
  have hlt : d.length < 2 ^ 32 := lt_of_le_of_lt hl hn
  have hn : (BitVec.ofNat 32 d.length).toNat = d.length := by rw [BitVec.toNat_ofNat]; omega
  have hp : (packBytes d).length = (d.length + 3) / 4 := length_packBytes d
  simp only [encodeItem, List.cons_append, takeItem, hn]
  rw [if_neg (by omega), if_neg (by rw [List.length_append, hp]; omega)]
  rw [← hp, List.take_left, List.drop_left, unpackWords_packBytes, List.take_left, List.drop_left]
  rw [if_pos (by simp)]

theorem takeItem_some {n : Nat} {ws rest : List Word} {d : List Byte} (h : takeItem n ws = some (d, rest)) :
    itemWf n d = true ∧ encodeItem d ++ rest = ws := by
  cases ws with
  | nil => simp [takeItem] at h
  | cons len tail =>
    simp only [takeItem] at h
    split at h
    · simp at h
    rename_i hmax
    split at h
    · simp at h
    rename_i hlen
    split at h
    · rename_i hz
      simp only [Option.some.injEq, Prod.mk.injEq] at h
      obtain ⟨hd, hrest⟩ := h
      have hbl : (unpackWords (tail.take ((len.toNat + 3) / 4))).length = 4 * ((len.toNat + 3) / 4) := by
        rw [length_unpackWords, List.length_take]; omega
      have hdl : d.length = len.toNat := by rw [← hd, List.length_take, hbl]; omega
      have hzr : (unpackWords (tail.take ((len.toNat + 3) / 4))).drop len.toNat
          = List.replicate (4 * ((d.length + 3) / 4) - d.length) 0 := by
        rw [List.eq_replicate_iff]
        refine ⟨by rw [List.length_drop, hbl, hdl], fun b hb => ?_⟩
        have := List.all_eq_true.1 hz b hb
        simpa using this
      have hpack : packBytes d = tail.take ((len.toNat + 3) / 4) := by
        rw [← packBytes_append_zeros d _ rfl, ← hzr, ← hd, List.take_append_drop, packBytes_unpackWords]
      refine ⟨(itemWf_iff n d).2 (by omega), ?_⟩
      rw [encodeItem, hpack, ← hrest, List.cons_append, List.take_append_drop, hdl]
      simp
    · simp at h

theorem takeItems_encode {n : Nat} (hn : n < 2 ^ 32) {ds : List (List Byte)} (h : ds.all (itemWf n) = true) (rest : List Word) :
    takeItems n ds.length (ds.flatMap encodeItem ++ rest) = some (ds, rest) := by
  induction ds with
  | nil => rfl
  | cons d ds ih =>
    rw [List.all_cons, Bool.and_eq_true] at h
    simp only [List.length_cons, List.flatMap_cons, List.append_assoc, takeItems, takeItem_encodeItem hn h.1, ih h.2]

theorem takeItems_some {m n : Nat} {ws rest : List Word} {ds : List (List Byte)} (h : takeItems m n ws = some (ds, rest)) :
    ds.length = n ∧ ds.all (itemWf m) = true ∧ ds.flatMap encodeItem ++ rest = ws := by
  induction n generalizing ws ds with
  | zero =>
    simp only [takeItems, Option.some.injEq, Prod.mk.injEq] at h
    simp [← h.1, ← h.2]
  | succ n ih =>
    simp only [takeItems] at h
    split at h
    · simp at h
    rename_i d rest1 hd
    split at h
    · simp at h
    rename_i ds1 rest2 hds
    simp only [Option.some.injEq, Prod.mk.injEq] at h
    obtain ⟨h1, h2⟩ := h
    subst h1 h2
    obtain ⟨hw, he⟩ := takeItem_some hd
    obtain ⟨hl, ha, hf⟩ := ih hds
    refine ⟨by simp [hl], by simp [hw, ha], ?_⟩
    rw [List.flatMap_cons, List.append_assoc, hf, he]

/-! ## A register vector -/

theorem pow_sub_two {p : Nat} (h : 2 ≤ p) : 4 * 2 ^ (p - 2) = 2 ^ p := by
  obtain ⟨q, rfl⟩ := Nat.exists_eq_add_of_le h
  rw [Nat.add_sub_cancel_left, Nat.pow_add]

theorem takeVector_packBytes {p : Nat} (hp : 2 ≤ p) {o : List Byte} (h : o.length = 2 ^ p) (rest : List Word) :
    takeVector p (packBytes o ++ rest) = some (o, rest) := by
  have h4 := pow_sub_two hp
  have hl : (packBytes o).length = 2 ^ (p - 2) := by rw [length_packBytes]; omega
  unfold takeVector
  rw [if_neg (by rw [List.length_append]; omega), ← hl, List.take_left, List.drop_left,
    unpackWords_packBytes_whole (by omega)]

theorem takeVector_some {p : Nat} (hp : 2 ≤ p) {o : List Byte} {ws rest : List Word} (h : takeVector p ws = some (o, rest)) :
    o.length = 2 ^ p ∧ packBytes o ++ rest = ws := by
  have h4 := pow_sub_two hp
  unfold takeVector at h
  split at h
  · simp at h
  · rename_i hlen
    simp only [Option.some.injEq, Prod.mk.injEq] at h
    obtain ⟨h1, h2⟩ := h
    subst h1 h2
    refine ⟨by rw [length_unpackWords, List.length_take]; omega, ?_⟩
    rw [packBytes_unpackWords, List.take_append_drop]

/-! ## The whole frame -/

/-- An encoded header passes the checks of 30_encoding.md R71. -/
theorem headerLegal_encodeHeader (op : Opcode) (s : Bool) (arg : BitVec 16) (hs : s = true → op.takesSeed = true) (ha : arg = 0 ∨ op.takesArg = true) :
    headerLegal op (encodeHeader op s arg) = true := by
  unfold headerLegal
  simp only [headerRsv_encodeHeader, headerS_encodeHeader, headerArg_encodeHeader]
  cases s <;> rcases ha with ha | ha <;> simp_all

/-- Decoding a header and a payload, from the operands the payload holds. -/
theorem decodeWith_of_parts {n : Nat} {op : Opcode} {s : Bool} {arg : BitVec 16} {payload : List Word} {i : Instr}
    (hs : s = true → op.takesSeed = true) (ha : arg = 0 ∨ op.takesArg = true)
    (h : takeOperands n op (encodeHeader op s arg) payload = some (i, [])) : decodeWith n (encodeHeader op s arg :: payload) = .ok i := by
  simp only [decodeWith, headerOpc_encodeHeader, ofCode_code, headerLegal_encodeHeader op s arg hs ha, if_true, h]

/-- What a frame that decodes consists of. -/
theorem decodeWith_ok {n : Nat} {ws : Frame} {i : Instr} (h : decodeWith n ws = .ok i) :
    ∃ hd payload op, ws = hd :: payload ∧ Opcode.ofCode (headerOpc hd) = some op ∧ headerLegal op hd = true ∧
      takeOperands n op hd payload = some (i, []) := by
  cases ws with
  | nil => simp [decodeWith] at h
  | cons hd payload =>
    simp only [decodeWith] at h
    split at h
    · simp at h
    rename_i op hop
    split at h
    · rename_i hl
      split at h
      · rename_i j hj
        simp only [Except.ok.injEq] at h; subst h
        exact ⟨hd, payload, op, rfl, hop, hl, hj⟩
      · simp at h
    · simp at h

/-- The frames answered `IllegalCommand`: exactly those whose opcode is undefined. -/
theorem decode_illegalCommand_iff (ws : Frame) : decode ws = .error .illegalCommand ↔
    ∃ h rest, ws = h :: rest ∧ ((h >>> 24).toNat < 1 ∨ 10 < (h >>> 24).toNat) := by
  cases ws with
  | nil => simp [decode, decodeWith]
  | cons h rest =>
    rw [show (∃ h' rest', h :: rest = h' :: rest' ∧ ((h' >>> 24).toNat < 1 ∨ 10 < (h' >>> 24).toNat)) ↔ ((h >>> 24).toNat < 1 ∨ 10 < (h >>> 24).toNat) from
      ⟨fun ⟨h', r', e, x⟩ => by cases e; exact x, fun x => ⟨h, rest, rfl, x⟩⟩, ← headerOpc_toNat, ← ofCode_eq_none_iff]
    simp only [decode, decodeWith]
    split
    · rename_i hn; simp [hn]
    · rename_i op hop
      simp only [hop, reduceCtorEq, iff_false]
      split
      · split <;> simp
      · simp

theorem frameOpc_word (ws : Frame) : (frameOpc ws).setWidth 32 = (ws.headD 0) >>> 24 := by
  cases ws with
  | nil => rfl
  | cons h rest => 
    simp only [frameOpc, headerOpc, List.headD_cons]
    ext i hi; simp
    intro h1; by_contra hc; rw [BitVec.getLsbD_of_ge h (24 + i) (by omega)] at h1; simp at h1

theorem getD_packBytes (bs : List Byte) (j : Nat) : (packBytes bs).getD j 0 = Machine.le32At bs (4 * j) := by
  induction bs using packBytes.induct generalizing j with
  | case1 => simp [packBytes, Machine.le32At]
  | case2 a => cases j <;> simp [packBytes, Machine.le32At, le32, Nat.mul_succ]
  | case3 a b => cases j <;> simp [packBytes, Machine.le32At, le32, Nat.mul_succ]
  | case4 a b c => cases j <;> simp [packBytes, Machine.le32At, le32, Nat.mul_succ]
  | case5 a b c d rest ih =>
    cases j with
    | zero => simp [packBytes, Machine.le32At, le32]
    | succ j =>
      rw [packBytes, List.getD_cons_succ, ih]
      simp only [Machine.le32At, Nat.mul_succ]
      have e : ∀ m, (a :: b :: c :: d :: rest).getD (4 * j + 4 + m) 0 = rest.getD (4 * j + m) 0 := fun m => by
        rw [show 4 * j + 4 + m = (4 * j + m) + 1 + 1 + 1 + 1 by omega]; simp only [List.getD_cons_succ]
      have e0 := e 0
      simp only [Nat.add_zero] at e0
      rw [e0, e 1, e 2, e 3]

theorem length_encodeItem (d : List Byte) : (encodeItem d).length = 1 + (d.length + 3) / 4 := by
  simp [encodeItem, length_packBytes]; omega

/-- The operands of `op` are those of a command with that opcode. -/
theorem takeOperands_opcode {n : Nat} {op : Opcode} {h : Word} {ws rest : List Word} {i : Instr} (he : takeOperands n op h ws = some (i, rest)) :
    i.opcode = op := by
  cases op <;> simp only [takeOperands] at he <;> repeat' split at he
  all_goals first
    | (simp only [Option.some.injEq, Prod.mk.injEq] at he; rw [← he.1]; rfl)
    | cases he

/-- The echoed opcode of a frame that decodes is its command's. -/
theorem frameOpc_of_decode {ws : Frame} {i : Instr} (h : decode ws = .ok i) : frameOpc ws = i.opcode.code := by
  obtain ⟨hd, payload, op, rfl, hop, -, ht⟩ := decodeWith_ok h
  rw [takeOperands_opcode ht]
  exact (code_of_ofCode hop).symm

/-- The one word of an error response to a frame. -/
theorem errorHeader_eq (ws : Frame) (st : Machine.Status) :
    Machine.responseHeader (frameOpc ws) 0 st = ((ws.headD 0) >>> 24 <<< 24) ||| (Machine.statusCode st).setWidth 32 := by
  rw [Machine.responseHeader_zero_eq, frameOpc_word]

/-- The words RDREGS answers hold exactly the cells (44_inspect.md R171). -/
theorem unpack_vector (s : Machine.State) (hk : 2 ≤ s.k.toNat) : unpackWords (Machine.vectorWords (Machine.snapshot s)) = Machine.snapshot s := by
  refine unpackWords_packBytes_whole ?_
  have := pow_sub_two hk
  rw [Machine.length_snapshot]; unfold Machine.State.size; omega

end Sys2Proof
end

