-- ==== Sys2Proof/Laws/Float.lean ====
section
/-! SUPPORT. The binary64 arithmetic: fields of a value, what `magUnits` and `roundMag` do (nearest, exact where the result is
representable, monotone), the operations on finite values. -/

namespace Sys2Proof.Machine

/-! ## Sign and magnitude bits -/

theorem f64Of_toNat (neg : Bool) {mag : Nat} (h : mag < 2 ^ 63) : (f64Of neg mag).toNat = if neg then 2 ^ 63 + mag else mag := by
  unfold f64Of
  rw [BitVec.toNat_ofNat, Nat.mod_eq_of_lt]
  split <;> omega

@[simp] theorem f64Mag_of (neg : Bool) {mag : Nat} (h : mag < 2 ^ 63) : f64Mag (f64Of neg mag) = mag := by
  unfold f64Mag
  rw [f64Of_toNat neg h]
  split <;> omega

@[simp] theorem f64Neg_of (neg : Bool) {mag : Nat} (h : mag < 2 ^ 63) : f64Neg (f64Of neg mag) = neg := by
  unfold f64Neg
  rw [BitVec.msb_eq_decide, f64Of_toNat neg h]
  cases neg
  · simp; omega
  · simp

theorem f64Mag_lt (x : F64) : f64Mag x < 2 ^ 63 := Nat.mod_lt _ (by decide)

/-- A value is its sign and its magnitude bits. -/
theorem f64Of_mag (x : F64) : f64Of (f64Neg x) (f64Mag x) = x := by
  apply BitVec.eq_of_toNat_eq
  rw [f64Of_toNat _ (f64Mag_lt x)]
  unfold f64Neg f64Mag
  rw [BitVec.msb_eq_decide]
  have := x.isLt
  by_cases h : 2 ^ (64 - 1) ≤ x.toNat
  · simp only [h, decide_true, if_true]; omega
  · simp only [h, decide_false, Bool.false_eq_true, if_false]; omega

theorem f64InfMag_lt : f64InfMag < 2 ^ 63 := by decide

/-! ## Magnitudes in units -/

/-- The value of exponent and fraction together. -/
theorem magUnits_eq {shift n : Nat} (h1 : n ≤ 2 ^ 53) (h2 : shift = 0 ∨ 2 ^ 52 ≤ n) : magUnits (shift * 2 ^ 52 + n) = n * 2 ^ shift := by
  unfold magUnits
  by_cases h3 : n < 2 ^ 52
  · have h0 : shift = 0 := by omega
    subst h0
    rw [if_pos (by omega)]; omega
  · by_cases h4 : n = 2 ^ 53
    · subst h4
      have e1 : (shift * 2 ^ 52 + 2 ^ 53) / 2 ^ 52 = shift + 2 := by omega
      have e2 : (shift * 2 ^ 52 + 2 ^ 53) % 2 ^ 52 = 0 := by omega
      rw [e1, e2, if_neg (by omega), show shift + 2 - 1 = shift + 1 by omega, Nat.pow_succ]; ring
    · have e1 : (shift * 2 ^ 52 + n) / 2 ^ 52 = shift + 1 := by omega
      have e2 : (shift * 2 ^ 52 + n) % 2 ^ 52 = n - 2 ^ 52 := by omega
      rw [e1, e2, if_neg (by omega), show 2 ^ 52 + (n - 2 ^ 52) = n by omega, show shift + 1 - 1 = shift by omega]

/-- Every magnitude is an exponent and a fraction of at most 53 bits. -/
theorem mag_split (mag : Nat) : ∃ shift n, mag = shift * 2 ^ 52 + n ∧ n < 2 ^ 53 ∧ (shift = 0 ∨ 2 ^ 52 ≤ n) ∧
    shift = mag / 2 ^ 52 - 1 := by
  by_cases h : mag / 2 ^ 52 = 0
  · exact ⟨0, mag, by omega, by omega, .inl rfl, by omega⟩
  · exact ⟨mag / 2 ^ 52 - 1, 2 ^ 52 + mag % 2 ^ 52, by omega, by omega, .inr (by omega), rfl⟩

/-- The next magnitude is one unit in the last place away. -/
theorem magUnits_succ (mag : Nat) : magUnits (mag + 1) = magUnits mag + ulpUnits mag := by
  obtain ⟨shift, n, h1, h2, h3, h4⟩ := mag_split mag
  unfold ulpUnits
  rw [← h4, h1, magUnits_eq (by omega) h3, Nat.add_assoc, magUnits_eq (by omega) (by omega)]
  ring

theorem magUnits_lt {a b : Nat} (h : a < b) : magUnits a < magUnits b := by
  obtain ⟨c, rfl⟩ := Nat.exists_eq_add_of_lt h
  induction c with
  | zero => rw [Nat.add_zero, magUnits_succ]; have : 0 < ulpUnits a := Nat.two_pow_pos _; omega
  | succ c ih =>
    have := ih (by omega)
    rw [← Nat.add_assoc, magUnits_succ (a + c + 1)]
    omega

theorem magUnits_le {a b : Nat} : magUnits a ≤ magUnits b ↔ a ≤ b := by
  constructor
  · intro h
    by_contra hn
    have := magUnits_lt (Nat.lt_of_not_le hn); omega
  · intro h
    rcases Nat.lt_or_eq_of_le h with h | h
    · exact le_of_lt (magUnits_lt h)
    · rw [h]

theorem magUnits_inj {a b : Nat} (h : magUnits a = magUnits b) : a = b := by
  have h1 := magUnits_le.1 (le_of_eq h)
  have h2 := magUnits_le.1 (le_of_eq h.symm)
  omega

@[simp] theorem magUnits_zero : magUnits 0 = 0 := rfl

/-- A unit in the last place is at least `2^-53` of the value. -/
theorem magUnits_le_ulp (mag : Nat) : magUnits mag ≤ 2 ^ 53 * ulpUnits mag := by
  obtain ⟨shift, n, h1, h2, h3, h4⟩ := mag_split mag
  unfold ulpUnits
  rw [← h4, h1, magUnits_eq (by omega) h3]
  exact Nat.mul_le_mul_right _ (by omega)

/-! ## Rounding -/

/-- What rounding finds: a whole number `n` of steps of `2^shift` units, nearest to `p / q`. -/
theorem roundMag_spec (p : Nat) {q : Nat} (hq : 0 < q) : ∃ shift n, roundMag p q = min (shift * 2 ^ 52 + n) f64InfMag ∧
    n ≤ 2 ^ 53 ∧ (shift = 0 ∨ 2 ^ 52 ≤ n) ∧
    2 * (n * (q * 2 ^ shift)) ≤ 2 * p + q * 2 ^ shift ∧ 2 * p ≤ 2 * (n * (q * 2 ^ shift)) + q * 2 ^ shift ∧
    (2 * p + q * 2 ^ shift = 2 * (n * (q * 2 ^ shift)) ∨ 2 * p = 2 * (n * (q * 2 ^ shift)) + q * 2 ^ shift → n % 2 = 0) ∧
    (q * 2 ^ shift ∣ p → n * (q * 2 ^ shift) = p) ∧
    shift = Nat.log2 (p / q) - 52 := by
  have hd : 0 < q * 2 ^ (Nat.log2 (p / q) - 52) := Nat.mul_pos hq (Nat.two_pow_pos _)
  have hdm : q * 2 ^ (Nat.log2 (p / q) - 52) * (p / (q * 2 ^ (Nat.log2 (p / q) - 52))) + p % (q * 2 ^ (Nat.log2 (p / q) - 52)) = p :=
    Nat.div_add_mod _ _
  have hr : p % (q * 2 ^ (Nat.log2 (p / q) - 52)) < q * 2 ^ (Nat.log2 (p / q) - 52) := Nat.mod_lt _ hd
  have hm : p / (q * 2 ^ (Nat.log2 (p / q) - 52)) = p / q / 2 ^ (Nat.log2 (p / q) - 52) := (Nat.div_div_eq_div_mul _ _ _).symm
  have hlt : p / (q * 2 ^ (Nat.log2 (p / q) - 52)) < 2 ^ 53 := by
    rw [hm, Nat.div_lt_iff_lt_mul (Nat.two_pow_pos _), ← Nat.pow_add]
    by_cases h0 : p / q = 0
    · rw [h0]; exact Nat.two_pow_pos _
    · exact lt_of_lt_of_le ((Nat.log2_lt h0).1 (Nat.lt_succ_self _)) (Nat.pow_le_pow_right (by decide) (by omega))
  have hge : Nat.log2 (p / q) - 52 = 0 ∨ 2 ^ 52 ≤ p / (q * 2 ^ (Nat.log2 (p / q) - 52)) := by
    by_cases h : Nat.log2 (p / q) ≤ 52
    · exact .inl (by omega)
    · right
      have h0 : p / q ≠ 0 := fun e => h (by rw [e]; decide)
      rw [hm, Nat.le_div_iff_mul_le (Nat.two_pow_pos _), ← Nat.pow_add]
      exact le_trans (Nat.pow_le_pow_right (by decide) (by omega)) (Nat.log2_self_le h0)
  refine ⟨Nat.log2 (p / q) - 52, _, rfl, ?_, ?_, ?_, ?_, ?_, ?_, rfl⟩
  all_goals
    generalize q * 2 ^ (Nat.log2 (p / q) - 52) = d at *
    generalize hmm : p / d = m at *
    generalize p % d = r at *
  · split <;> omega
  · rcases hge with h | h
    · exact .inl h
    · right; split <;> omega
  · rw [Nat.add_mul, Nat.mul_comm m d]
    split
    · rename_i h; rw [Nat.one_mul]; rcases h with h | ⟨h, -⟩ <;> omega
    · rw [Nat.zero_mul]; omega
  · rw [Nat.add_mul, Nat.mul_comm m d]
    split
    · rw [Nat.one_mul]; omega
    · rename_i h
      rw [Nat.zero_mul]
      have : ¬ d < 2 * r := fun h' => h (.inl h')
      omega
  · rw [Nat.add_mul, Nat.mul_comm m d]
    split
    · rename_i h; rw [Nat.one_mul]; rcases h with h | ⟨h, h'⟩ <;> omega
    · rename_i h
      rw [Nat.zero_mul]
      have h1 : ¬ d < 2 * r := fun h' => h (.inl h')
      have h2 : 2 * r = d → ¬ m % 2 = 1 := fun h3 h4 => h (.inr ⟨h3, h4⟩)
      omega
  · intro hdvd
    have hr0 : r = 0 := by
      obtain ⟨c, rfl⟩ := hdvd
      have : d * c / d = c := Nat.mul_div_cancel_left _ hd
      rw [this] at hmm; subst hmm; omega
    subst hr0
    rw [if_neg (by rintro (h | ⟨h, -⟩) <;> omega), Nat.add_zero, Nat.mul_comm]; omega

theorem roundMag_le_inf (p q : Nat) : roundMag p q ≤ f64InfMag := Nat.min_le_right _ _

theorem roundMag_lt (p q : Nat) : roundMag p q < 2 ^ 63 := lt_of_le_of_lt (roundMag_le_inf p q) f64InfMag_lt

/-- A representable magnitude is rounded to itself. -/
theorem roundMag_exact {mag q : Nat} (hq : 0 < q) (h : mag ≤ f64InfMag) : roundMag (magUnits mag * q) q = mag := by
  obtain ⟨shift, n, h1, h2, h3, -, -, -, h6, h7⟩ := roundMag_spec (magUnits mag * q) hq
  rw [Nat.mul_div_cancel _ hq] at h7
  obtain ⟨s, k, e1, e2, e3, -⟩ := mag_split mag
  have hu : magUnits mag = k * 2 ^ s := by rw [e1]; exact magUnits_eq (by omega) e3
  have hs : shift ≤ s := by
    rw [h7, hu]
    by_cases hk : k = 0
    · subst hk; simp
    · have : Nat.log2 (k * 2 ^ s) < 53 + s := by
        rw [Nat.log2_lt (Nat.mul_ne_zero hk (by positivity)), Nat.pow_add]
        exact Nat.mul_lt_mul_of_pos_right e2 (Nat.two_pow_pos _)
      omega
  have hdvd : q * 2 ^ shift ∣ magUnits mag * q := by
    rw [hu, Nat.mul_comm _ q]
    exact Nat.mul_dvd_mul_left q (Dvd.dvd.mul_left (Nat.pow_dvd_pow 2 hs) k)
  have hv : n * 2 ^ shift = magUnits mag := by
    have := h6 hdvd
    refine Nat.eq_of_mul_eq_mul_right hq ?_
    rw [← this]; ring
  have : shift * 2 ^ 52 + n = mag := magUnits_inj (by rw [magUnits_eq h2 h3, hv])
  rw [h1, this, Nat.min_eq_left h]

/-- A number of units with at most 53 significant bits is representable. -/
theorem magUnits_roundMag {j t : Nat} (hj : j < 2 ^ 53) (ht : t ≤ 1090) :
    magUnits (roundMag (j * 2 ^ t) 1) = j * 2 ^ t ∧ roundMag (j * 2 ^ t) 1 < f64InfMag := by
  obtain ⟨shift, n, h1, h2, h3, -, -, -, h6, h7⟩ := roundMag_spec (j * 2 ^ t) Nat.one_pos
  simp only [Nat.one_mul, Nat.div_one] at h6 h7
  have hs : shift ≤ t := by
    rw [h7]
    by_cases hk : j = 0
    · subst hk; simp
    · have : Nat.log2 (j * 2 ^ t) < 53 + t := by
        rw [Nat.log2_lt (Nat.mul_ne_zero hk (by positivity)), Nat.pow_add]
        exact Nat.mul_lt_mul_of_pos_right hj (Nat.two_pow_pos _)
      omega
  have hv := h6 (Dvd.dvd.mul_left (Nat.pow_dvd_pow 2 hs) j)
  have hlt : shift * 2 ^ 52 + n < f64InfMag := by unfold f64InfMag; omega
  rw [h1, Nat.min_eq_left (le_of_lt hlt)]
  exact ⟨by rw [magUnits_eq h2 h3, hv], hlt⟩

/-- Two numbers, one at most the other, do not round to neighbours the wrong way round. -/
theorem round_step {p d p' d' n n' : Nat} (hd : 0 < d) (hd' : 0 < d') (h : p * d' ≤ p' * d)
    (h1 : 2 * (n * d) ≤ 2 * p + d) (h2 : 2 * p' ≤ 2 * (n' * d') + d')
    (t1 : 2 * p + d = 2 * (n * d) ∨ 2 * p = 2 * (n * d) + d → n % 2 = 0)
    (t2 : 2 * p' + d' = 2 * (n' * d') ∨ 2 * p' = 2 * (n' * d') + d' → n' % 2 = 0) : n ≤ n' := by
  by_contra hn
  have hn : n' + 1 ≤ n := by omega
  have b0 : (n' + 1) * d ≤ n * d := Nat.mul_le_mul_right _ hn
  rw [Nat.add_mul, Nat.one_mul] at b0
  have b1 : 2 * (n' * d) + d ≤ 2 * p := by omega
  have c1 : (2 * (n' * d) + d) * d' ≤ 2 * p * d' := Nat.mul_le_mul_right _ b1
  have c2 : 2 * p' * d ≤ (2 * (n' * d') + d') * d := Nat.mul_le_mul_right _ h2
  have c3 : (2 * (n' * d) + d) * d' = (2 * (n' * d') + d') * d := by ring
  have c4 : 2 * p * d' ≤ 2 * p' * d := by rw [Nat.mul_assoc, Nat.mul_assoc]; exact Nat.mul_le_mul_left 2 h
  have e1 : 2 * p' = 2 * (n' * d') + d' := Nat.eq_of_mul_eq_mul_right hd (by omega)
  have e2 : 2 * p = 2 * (n' * d) + d := Nat.eq_of_mul_eq_mul_right hd' (by omega)
  have e3 : n = n' + 1 := by
    by_contra hne
    have b2 : (n' + 2) * d ≤ n * d := Nat.mul_le_mul_right _ (by omega)
    rw [Nat.add_mul] at b2; omega
  subst e3
  have := t1 (.inl (by rw [Nat.add_mul, Nat.one_mul]; omega))
  have := t2 (.inr e1)
  omega

/-- Rounding keeps order. -/
theorem roundMag_mono {p q p' q' : Nat} (hq : 0 < q) (hq' : 0 < q') (h : p * q' ≤ p' * q) : roundMag p q ≤ roundMag p' q' := by
  obtain ⟨s, n, h1, h2, h3, h4, h5, h6, -, h7⟩ := roundMag_spec p hq
  obtain ⟨s', n', h1', h2', h3', h4', h5', h6', -, h7'⟩ := roundMag_spec p' hq'
  have hle : p / q ≤ p' / q' := by
    rw [Nat.le_div_iff_mul_le hq']
    refine Nat.le_of_mul_le_mul_right ?_ hq
    refine le_trans ?_ h
    rw [Nat.mul_right_comm]
    exact Nat.mul_le_mul_right _ (Nat.div_mul_le_self p q)
  have hss : s ≤ s' := by
    rw [h7, h7']
    have : Nat.log2 (p / q) ≤ Nat.log2 (p' / q') := by
      by_cases h0 : p / q = 0
      · rw [h0]; simp
      · have h0' : p' / q' ≠ 0 := Nat.ne_of_gt (lt_of_lt_of_le (Nat.pos_of_ne_zero h0) hle)
        rw [Nat.le_log2 h0']
        exact le_trans (Nat.log2_self_le h0) hle
    omega
  have key : s * 2 ^ 52 + n ≤ s' * 2 ^ 52 + n' := by
    rcases Nat.lt_or_eq_of_le hss with hlt | hs
    · omega
    · subst hs
      have hp2 : 0 < 2 ^ s := Nat.two_pow_pos s
      have := round_step (Nat.mul_pos hq hp2) (Nat.mul_pos hq' hp2)
        (by rw [← Nat.mul_assoc, ← Nat.mul_assoc]; exact Nat.mul_le_mul_right _ h) h4 h5' h6 h6'
      omega
  rw [h1, h1']
  exact min_le_min_right _ key

/-! ## The operations on finite values -/

theorem f64Of_tests (neg : Bool) {m : Nat} (h : m < f64InfMag) :
    f64IsNaN (f64Of neg m) = false ∧ f64IsInf (f64Of neg m) = false ∧ (0 < m → f64IsZero (f64Of neg m) = false) := by
  have hb := f64Mag_of neg (lt_trans h f64InfMag_lt)
  refine ⟨decide_eq_false ?_, decide_eq_false ?_, fun h0 => decide_eq_false ?_⟩ <;> rw [hb]
  · exact Nat.not_lt.2 (le_of_lt h)
  · exact Nat.ne_of_lt h
  · exact Nat.ne_of_gt h0

theorem f64Units_of (neg : Bool) {m : Nat} (h : m < f64InfMag) : f64Units (f64Of neg m) = magUnits m := by
  unfold f64Units; rw [f64Mag_of neg (lt_trans h f64InfMag_lt)]

/-- `fmul` of finite values: one rounding, the sign the product of the signs. -/
theorem fmul_finite (a b : Bool) {m n : Nat} (hm : m < f64InfMag) (hn : n < f64InfMag) :
    fmul (f64Of a m) (f64Of b n) = f64Of (a != b) (roundMag (magUnits m * magUnits n) (2 ^ 1074)) := by
  obtain ⟨a1, a2, -⟩ := f64Of_tests a hm
  obtain ⟨b1, b2, -⟩ := f64Of_tests b hn
  unfold fmul
  rw [a1, a2, b1, b2, f64Neg_of a (lt_trans hm f64InfMag_lt), f64Neg_of b (lt_trans hn f64InfMag_lt), f64Units_of a hm, f64Units_of b hn]
  rfl

/-- `fdiv` of a finite value by a finite value that is not zero. -/
theorem fdiv_finite (a b : Bool) {m n : Nat} (hm : m < f64InfMag) (hn : n < f64InfMag) (h0 : 0 < n) :
    fdiv (f64Of a m) (f64Of b n) = f64Of (a != b) (roundMag (magUnits m * 2 ^ 1074) (magUnits n)) := by
  obtain ⟨a1, a2, -⟩ := f64Of_tests a hm
  obtain ⟨b1, b2, b3⟩ := f64Of_tests b hn
  unfold fdiv
  rw [a1, a2, b1, b2, b3 h0, f64Neg_of a (lt_trans hm f64InfMag_lt), f64Neg_of b (lt_trans hn f64InfMag_lt), f64Units_of a hm,
    f64Units_of b hn]
  rfl

/-- `fadd` of finite values. -/
theorem fadd_finite (a b : Bool) {m n : Nat} (hm : m < f64InfMag) (hn : n < f64InfMag) {v : Int}
    (hv : v = (if a then -(magUnits m : Int) else magUnits m) + (if b then -(magUnits n : Int) else magUnits n)) :
    fadd (f64Of a m) (f64Of b n) = f64Of (if v = 0 then a && b else decide (v < 0)) (roundMag v.natAbs 1) := by
  obtain ⟨a1, a2, -⟩ := f64Of_tests a hm
  obtain ⟨b1, b2, -⟩ := f64Of_tests b hn
  unfold fadd f64Value
  rw [a1, a2, b1, b2, f64Neg_of a (lt_trans hm f64InfMag_lt), f64Neg_of b (lt_trans hn f64InfMag_lt), f64Units_of a hm, f64Units_of b hn,
    ← hv]
  rfl

/-- Only the ratio counts. -/
theorem roundMag_ratio {p q p' q' : Nat} (hq : 0 < q) (hq' : 0 < q') (h : p * q' = p' * q) : roundMag p q = roundMag p' q' :=
  Nat.le_antisymm (roundMag_mono hq hq' (le_of_eq h)) (roundMag_mono hq' hq (le_of_eq h.symm))

/-- Rounding lies between the representable magnitudes around. -/
theorem le_roundMag {p q mag : Nat} (hq : 0 < q) (hm : mag ≤ f64InfMag) (h : magUnits mag * q ≤ p) : mag ≤ roundMag p q := by
  have := roundMag_mono (p := magUnits mag * q) (p' := p) hq hq (Nat.mul_le_mul_right _ h)
  rwa [roundMag_exact hq hm] at this

theorem roundMag_le {p q mag : Nat} (hq : 0 < q) (hm : mag ≤ f64InfMag) (h : p ≤ magUnits mag * q) : roundMag p q ≤ mag := by
  have := roundMag_mono (p := p) (p' := magUnits mag * q) hq hq (Nat.mul_le_mul_right _ h)
  rwa [roundMag_exact hq hm] at this

end Sys2Proof.Machine
end

