-- ==== Sys2Proof/Laws/Log.lean ====
section
/-! SUPPORT. How far the fixed-point logarithm of Machine/Log.lean is from the real one: at most `2^21` steps of `2^-320`. -/

namespace Sys2Proof.Machine

/-- `2^320` as a real number: the steps in one. -/
@[irreducible] noncomputable def lnScale : ℝ := 2 ^ 320

theorem lnScale_pos : 0 < lnScale := by unfold lnScale; positivity

theorem lnScale_cast : ((2 ^ lnPlaces : ℕ) : ℝ) = lnScale := by unfold lnScale lnPlaces; norm_num

/-- A truncated quotient in the reals. -/
theorem div_cast_bounds (a : ℕ) {b : ℕ} (hb : 0 < b) : (a : ℝ) / b - 1 ≤ ((a / b : ℕ) : ℝ) ∧ ((a / b : ℕ) : ℝ) ≤ (a : ℝ) / b := by
  have hb' : (0 : ℝ) < b := by exact_mod_cast hb
  constructor
  · rw [sub_le_iff_le_add, div_le_iff₀ hb']
    have h : a < (a / b + 1) * b := Nat.lt_mul_of_div_lt (Nat.lt_succ_self _) hb
    have h2 : (a : ℝ) < ((a / b : ℕ) + 1 : ℝ) * b := by exact_mod_cast h
    exact le_of_lt h2
  · exact Nat.cast_div_le

/-- The terms of the series, each truncated: at most 3 steps too low apiece. -/
theorem artanhTerms_bounds (n z2 t j : ℕ) (x T : ℝ) (hx0 : 0 ≤ x) (hx : x ≤ 1 / 9) (hz : x * lnScale - 2 ≤ z2) (hz' : (z2 : ℝ) ≤ x * lnScale)
    (hT : T ≤ lnScale / 3) (ht : T - 2 ≤ t) (ht' : (t : ℝ) ≤ T) :
    ∑ i ∈ Finset.range n, T * x ^ i / (2 * (j + i : ℕ) + 1) - 3 * n ≤ (artanhTerms n z2 t j : ℕ) ∧
    ((artanhTerms n z2 t j : ℕ) : ℝ) ≤ ∑ i ∈ Finset.range n, T * x ^ i / (2 * (j + i : ℕ) + 1) := by
  induction n generalizing t j T with
  | zero => simp [artanhTerms]
  | succ n ih =>
    have hP := lnScale_pos
    have ht0 : (0 : ℝ) ≤ t := Nat.cast_nonneg t
    have hz0 : (0 : ℝ) ≤ z2 := Nat.cast_nonneg z2
    have hT0 : 0 ≤ T := le_trans ht0 ht'
    -- the next power
    obtain ⟨q1, q2⟩ := div_cast_bounds (t * z2) (b := 2 ^ lnPlaces) (Nat.two_pow_pos _)
    rw [lnScale_cast, Nat.cast_mul] at q1 q2
    have u1 : T * x - 2 ≤ ((t * z2 / 2 ^ lnPlaces : ℕ) : ℝ) := by
      have : T * x - 1 ≤ (t : ℝ) * z2 / lnScale := by
        rw [le_div_iff₀ hP]
        have a1 : (t : ℝ) * z2 ≥ t * (x * lnScale - 2) := mul_le_mul_of_nonneg_left hz ht0
        have a2 : (t : ℝ) * (x * lnScale) ≥ (T - 2) * (x * lnScale) := mul_le_mul_of_nonneg_right ht (by positivity)
        have a3 : x * lnScale ≤ 1 / 9 * lnScale := mul_le_mul_of_nonneg_right hx hP.le
        nlinarith
      linarith
    have u2 : ((t * z2 / 2 ^ lnPlaces : ℕ) : ℝ) ≤ T * x := by
      refine le_trans q2 ?_
      rw [div_le_iff₀ hP]
      calc (t : ℝ) * z2 ≤ T * (x * lnScale) := mul_le_mul ht' hz' hz0 hT0
        _ = T * x * lnScale := by ring
    have hTx : T * x ≤ lnScale / 3 := by nlinarith
    obtain ⟨i1, i2⟩ := ih (t * z2 / 2 ^ lnPlaces) (j + 1) (T * x) hTx u1 u2
    -- this term
    obtain ⟨w1, w2⟩ := div_cast_bounds t (b := 2 * j + 1) (by omega)
    have hd : (0 : ℝ) < 2 * j + 1 := by positivity
    have hcast : ((2 * j + 1 : ℕ) : ℝ) = 2 * j + 1 := by push_cast; ring
    rw [hcast] at w1 w2
    have v1 : T / (2 * j + 1) - 3 ≤ ((t / (2 * j + 1) : ℕ) : ℝ) := by
      have : T / (2 * j + 1) - 2 ≤ (t : ℝ) / (2 * j + 1) := by
        have e : (T - 2) / (2 * j + 1) ≤ (t : ℝ) / (2 * j + 1) := div_le_div_of_nonneg_right ht hd.le
        have e2 : (2 : ℝ) / (2 * j + 1) ≤ 2 := by
          rw [div_le_iff₀ hd]; have : (0 : ℝ) ≤ j := Nat.cast_nonneg j; nlinarith
        rw [sub_div] at e
        linarith
      linarith
    have v2 : ((t / (2 * j + 1) : ℕ) : ℝ) ≤ T / (2 * j + 1) := le_trans w2 (div_le_div_of_nonneg_right ht' hd.le)
    have hsum : ∑ i ∈ Finset.range (n + 1), T * x ^ i / (2 * (j + i : ℕ) + 1 : ℝ)
        = T / (2 * j + 1) + ∑ i ∈ Finset.range n, T * x * x ^ i / (2 * (j + 1 + i : ℕ) + 1 : ℝ) := by
      rw [Finset.sum_range_succ', add_comm]
      congr 1
      · simp
      · refine Finset.sum_congr rfl fun i _ => ?_
        rw [pow_succ', show j + (i + 1) = j + 1 + i by omega]; ring
    rw [hsum, artanhTerms]
    push_cast
    push_cast at i1 i2 v1 v2
    constructor <;> linarith

/-- The whole of the series, between its first 110 terms and those and a little more. -/
theorem artanh_series {z : ℝ} (h0 : 0 ≤ z) (h1 : z ≤ 1 / 3) :
    ∑ i ∈ Finset.range 110, z * (z ^ 2) ^ i / (2 * (i : ℕ) + 1) ≤ (Real.log (1 + z) - Real.log (1 - z)) / 2 ∧
    (Real.log (1 + z) - Real.log (1 - z)) / 2 ≤ ∑ i ∈ Finset.range 110, z * (z ^ 2) ^ i / (2 * (i : ℕ) + 1) + (1 / 9) ^ 110 := by
  have hs := (Real.hasSum_log_sub_log_of_abs_lt_one (x := z) (by rw [abs_lt]; constructor <;> linarith)).div_const 2
  have hf : (fun k : ℕ => 2 * (1 / (2 * (k : ℝ) + 1)) * z ^ (2 * k + 1) / 2) = fun k : ℕ => z * (z ^ 2) ^ k / (2 * (k : ℝ) + 1) := by
    funext k; rw [pow_succ, pow_mul]; ring
  rw [hf] at hs
  have hn : ∀ k : ℕ, 0 ≤ z * (z ^ 2) ^ k / (2 * (k : ℝ) + 1) := fun k => by positivity
  refine ⟨?_, ?_⟩
  · exact sum_le_hasSum _ (fun k _ => hn k) hs
  · have hsplit := (hasSum_nat_add_iff' 110).2 hs
    have hgeo := (hasSum_geometric_of_lt_one (show (0 : ℝ) ≤ 1 / 9 by norm_num) (by norm_num)).mul_left (1 / 3 * (1 / 9 : ℝ) ^ 110)
    rw [show (1 - 1 / 9 : ℝ)⁻¹ = 9 / 8 by norm_num] at hgeo
    have hpos : (0 : ℝ) < (1 / 9) ^ 110 := pow_pos (by norm_num) _
    have hle := hasSum_le (fun k => ?_) hsplit hgeo
    · generalize (1 / 9 : ℝ) ^ 110 = y at *
      linarith
    · have hz2 : z ^ 2 ≤ 1 / 9 := by nlinarith
      have h3 : (z ^ 2) ^ (k + 110) ≤ (1 / 9) ^ (k + 110) := pow_le_pow_left₀ (by positivity) hz2 _
      have hd : (1 : ℝ) ≤ 2 * ((k + 110 : ℕ) : ℝ) + 1 := by
        have : (0 : ℝ) ≤ ((k + 110 : ℕ) : ℝ) := Nat.cast_nonneg _
        linarith
      have hp : 0 ≤ (z ^ 2) ^ (k + 110) := pow_nonneg (sq_nonneg z) _
      calc z * (z ^ 2) ^ (k + 110) / (2 * ((k + 110 : ℕ) : ℝ) + 1) ≤ z * (z ^ 2) ^ (k + 110) :=
            div_le_self (mul_nonneg h0 hp) hd
        _ ≤ 1 / 3 * (1 / 9) ^ (k + 110) := mul_le_mul h1 h3 hp (by norm_num)
        _ = 1 / 3 * (1 / 9 : ℝ) ^ 110 * (1 / 9) ^ k := by rw [pow_add, mul_comm ((1 / 9 : ℝ) ^ k), mul_assoc]

/-- The fixed-point artanh of a truncated argument. -/
theorem artanhFix_bounds {z : ℝ} {zf : ℕ} (h0 : 0 ≤ z) (h1 : z ≤ 1 / 3) (hz : z * lnScale - 1 ≤ zf) (hz' : (zf : ℝ) ≤ z * lnScale) :
    lnScale * ((Real.log (1 + z) - Real.log (1 - z)) / 2) - 331 ≤ (artanhFix zf : ℕ) ∧
    ((artanhFix zf : ℕ) : ℝ) ≤ lnScale * ((Real.log (1 + z) - Real.log (1 - z)) / 2) := by
  have hP := lnScale_pos
  have hP1 : 1 ≤ lnScale := by unfold lnScale; exact one_le_pow₀ (by norm_num)
  have hzf : (0 : ℝ) ≤ zf := Nat.cast_nonneg _
  obtain ⟨q1, q2⟩ := div_cast_bounds (zf * zf) (b := 2 ^ lnPlaces) (Nat.two_pow_pos _)
  rw [lnScale_cast, Nat.cast_mul] at q1 q2
  have a1 : z ^ 2 * lnScale - 2 ≤ ((zf * zf / 2 ^ lnPlaces : ℕ) : ℝ) := by
    have : z ^ 2 * lnScale - 1 ≤ (zf : ℝ) * zf / lnScale := by
      rw [le_div_iff₀ hP]
      by_cases hs : z * lnScale ≤ 1
      · have : z * lnScale * (z * lnScale) ≤ lnScale := by
          have : z * lnScale * (z * lnScale) ≤ 1 * 1 := mul_le_mul hs hs (by positivity) (by norm_num)
          linarith
        have h2 : 0 ≤ (zf : ℝ) * zf := by positivity
        nlinarith
      · have hs' : 0 ≤ z * lnScale - 1 := by linarith
        have : (z * lnScale - 1) * (z * lnScale - 1) ≤ (zf : ℝ) * zf := mul_le_mul hz hz hs' hzf
        nlinarith
    linarith
  have a2 : ((zf * zf / 2 ^ lnPlaces : ℕ) : ℝ) ≤ z ^ 2 * lnScale := by
    refine le_trans q2 ?_
    rw [div_le_iff₀ hP]
    calc (zf : ℝ) * zf ≤ (z * lnScale) * (z * lnScale) := mul_le_mul hz' hz' hzf (by positivity)
      _ = z ^ 2 * lnScale * lnScale := by ring
  obtain ⟨b1, b2⟩ := artanhTerms_bounds 110 _ zf 0 (z ^ 2) (z * lnScale) (by positivity) (by nlinarith) a1 a2 (by nlinarith) (by linarith) hz'
  obtain ⟨c1, c2⟩ := artanh_series h0 h1
  have hsum : ∑ i ∈ Finset.range 110, z * lnScale * (z ^ 2) ^ i / (2 * (0 + i : ℕ) + 1 : ℝ)
      = lnScale * ∑ i ∈ Finset.range 110, z * (z ^ 2) ^ i / (2 * (i : ℕ) + 1 : ℝ) := by
    rw [Finset.mul_sum]
    refine Finset.sum_congr rfl fun i _ => ?_
    rw [Nat.zero_add]; ring
  rw [hsum] at b1 b2
  have htiny : lnScale * (1 / 9) ^ 110 ≤ 1 := by
    have h1 : lnScale ≤ 9 ^ 110 := by
      calc lnScale ≤ 2 ^ (3 * 110) := by unfold lnScale; exact pow_le_pow_right₀ (by norm_num) (by norm_num)
        _ = (2 ^ 3) ^ 110 := pow_mul _ _ _
        _ ≤ 9 ^ 110 := pow_le_pow_left₀ (by norm_num) (by norm_num) _
    calc lnScale * (1 / 9) ^ 110 ≤ 9 ^ 110 * (1 / 9) ^ 110 := mul_le_mul_of_nonneg_right h1 (by positivity)
      _ = 1 := by rw [← mul_pow, show (9 : ℝ) * (1 / 9) = 1 by norm_num, one_pow]
  unfold artanhFix
  constructor
  · have := mul_le_mul_of_nonneg_left c2 hP.le
    rw [mul_add] at this
    push_cast at b1
    linarith
  · exact le_trans b2 (mul_le_mul_of_nonneg_left c1 hP.le)

theorem ln2Fix_bounds : lnScale * Real.log 2 - 662 ≤ (ln2Fix : ℕ) ∧ ((ln2Fix : ℕ) : ℝ) ≤ lnScale * Real.log 2 := by
  have hP := lnScale_pos
  have hlog : (Real.log (1 + 1 / 3) - Real.log (1 - 1 / 3)) / 2 = Real.log 2 / 2 := by
    rw [← Real.log_div (by norm_num) (by norm_num)]; norm_num
  obtain ⟨q1, q2⟩ := div_cast_bounds (2 ^ lnPlaces) (b := 3) (by omega)
  rw [lnScale_cast] at q1 q2
  push_cast at q1 q2
  obtain ⟨a, b⟩ := artanhFix_bounds (z := 1 / 3) (zf := 2 ^ lnPlaces / 3) (by norm_num) (by norm_num) (by linarith) (by linarith)
  rw [hlog] at a b
  unfold ln2Fix
  push_cast at a b ⊢
  constructor <;> linarith

/-- The fixed-point logarithm of `a / b`: too low by at most 662 steps for each power of two and 662 more. -/
theorem lnFix_bounds {a b : ℕ} (hb : 0 < b) (hab : b ≤ a) :
    lnScale * Real.log (a / b) - 662 * (Nat.log2 (a / b) + 1 : ℕ) ≤ (lnFix a b : ℕ) ∧ ((lnFix a b : ℕ) : ℝ) ≤ lnScale * Real.log (a / b) := by
  have hP := lnScale_pos
  have hq : a / b ≠ 0 := by rw [Nat.ne_zero_iff_zero_lt]; exact Nat.div_pos hab hb
  unfold lnFix
  dsimp only
  have hlo : 2 ^ Nat.log2 (a / b) ≤ a / b := Nat.log2_self_le hq
  have hhi : a / b < 2 ^ (Nat.log2 (a / b) + 1) := Nat.lt_log2_self
  generalize Nat.log2 (a / b) = e at *
  have hc : 0 < b * 2 ^ e := Nat.mul_pos hb (Nat.two_pow_pos _)
  have hca : b * 2 ^ e ≤ a := by rw [Nat.mul_comm]; exact (Nat.le_div_iff_mul_le hb).1 hlo
  have hac : a < 2 * (b * 2 ^ e) := by
    have := (Nat.div_lt_iff_lt_mul hb).1 hhi
    rw [Nat.pow_succ] at this; nlinarith
  have hlog : Real.log ((a : ℝ) / b) = e * Real.log 2 + Real.log ((a : ℝ) / ((b * 2 ^ e : ℕ) : ℝ)) := by
    have hb' : (b : ℝ) ≠ 0 := by positivity
    have ha' : (a : ℝ) ≠ 0 := by have : 0 < a := lt_of_lt_of_le hb hab; positivity
    push_cast
    rw [Real.log_div ha' hb', Real.log_div ha' (by positivity), Real.log_mul hb' (by positivity), Real.log_pow]
    ring
  generalize b * 2 ^ e = c at *
  have hc' : (0 : ℝ) < c := by exact_mod_cast hc
  have hca' : (c : ℝ) ≤ a := by exact_mod_cast hca
  have hac' : (a : ℝ) < 2 * c := by exact_mod_cast hac
  have hz0 : 0 ≤ ((a : ℝ) - c) / (a + c) := by apply div_nonneg <;> linarith
  have hz1 : ((a : ℝ) - c) / (a + c) ≤ 1 / 3 := by rw [div_le_iff₀ (by linarith)]; linarith
  obtain ⟨q1, q2⟩ := div_cast_bounds ((a - c) * 2 ^ lnPlaces) (b := a + c) (by omega)
  rw [Nat.cast_mul, lnScale_cast, Nat.cast_sub hca, Nat.cast_add] at q1 q2
  have hre : ((a : ℝ) - c) * lnScale / (a + c) = ((a : ℝ) - c) / (a + c) * lnScale := by ring
  rw [hre] at q1 q2
  obtain ⟨r1, r2⟩ := artanhFix_bounds hz0 hz1 q1 q2
  obtain ⟨l1, l2⟩ := ln2Fix_bounds
  have hlz : Real.log (1 + ((a : ℝ) - c) / (a + c)) - Real.log (1 - ((a : ℝ) - c) / (a + c)) = Real.log ((a : ℝ) / c) := by
    have hs : (a : ℝ) + c ≠ 0 := by linarith
    rw [← Real.log_div (by linarith) (by linarith)]
    congr 1
    have e1 : 1 + ((a : ℝ) - c) / (a + c) = 2 * a / (a + c) := by field_simp; ring
    have e2 : 1 - ((a : ℝ) - c) / (a + c) = 2 * c / (a + c) := by field_simp; ring
    rw [e1, e2, div_div_div_cancel_right₀ hs, mul_div_mul_left _ _ (by norm_num)]
  rw [hlz] at r1 r2
  have he : (0 : ℝ) ≤ e := Nat.cast_nonneg e
  have m1 := mul_le_mul_of_nonneg_left l1 he
  have m2 := mul_le_mul_of_nonneg_left l2 he
  rw [hlog]
  push_cast at r1 r2 ⊢
  constructor <;> nlinarith

end Sys2Proof.Machine
end

