-- ==== Sys2Proof/Laws/LogBounds.lean ====
section
/-! SUPPORT. The block's own logarithm at every positive finite argument: its sign, its magnitude, how far it is from the real one, that it
keeps order. Large powers of two stand under names of their own, so that no tactic computes them. -/

namespace Sys2Proof.Machine

/-- The units in one. -/
@[irreducible] def oneUnits : ℕ := 2 ^ 1074

/-- The units in one step of the fixed point. -/
@[irreducible] def stepUnits : ℕ := 2 ^ 754

/-- What two neighbouring arguments' logarithms differ by, at least, in steps of the fixed point. -/
@[irreducible] noncomputable def lnGap : ℝ := 2 ^ 266

theorem oneUnits_eq : oneUnits = 2 ^ 1074 := by unfold oneUnits; rfl

theorem oneUnits_pos : 0 < oneUnits := by rw [oneUnits_eq]; exact Nat.two_pow_pos _

theorem oneUnits_steps : oneUnits = stepUnits * 2 ^ lnPlaces := by unfold oneUnits stepUnits lnPlaces; rw [← Nat.pow_add]

theorem stepUnits_small {e : ℕ} (h : 776 ≤ e) : stepUnits * 2800000 ≤ 2 ^ e := by
  refine le_trans ?_ (Nat.pow_le_pow_right (by decide) h)
  unfold stepUnits
  rw [show (776 : ℕ) = 754 + 22 from rfl, Nat.pow_add]
  exact Nat.mul_le_mul le_rfl (by decide)

theorem log2_scaled {l a b k : ℕ} (h1 : 2 ^ a ≤ l) (h2 : l < 2 ^ b) : a + k ≤ Nat.log2 (l * 2 ^ k) ∧ Nat.log2 (l * 2 ^ k) < b + k := by
  have h0 : l * 2 ^ k ≠ 0 := Nat.mul_ne_zero (Nat.ne_of_gt (lt_of_lt_of_le (Nat.two_pow_pos _) h1)) (Nat.ne_of_gt (Nat.two_pow_pos _))
  constructor
  · rw [Nat.le_log2 h0, Nat.pow_add]; exact Nat.mul_le_mul_right _ h1
  · rw [Nat.log2_lt h0, Nat.pow_add]; exact Nat.mul_lt_mul_of_pos_right h2 (Nat.two_pow_pos _)

theorem log2_steps {l : ℕ} (h1 : 2 ^ 265 ≤ l) (h2 : l < 2 ^ 331) :
    1019 ≤ Nat.log2 (l * stepUnits) ∧ Nat.log2 (l * stepUnits) < 1085 := by
  unfold stepUnits; exact log2_scaled (k := 754) h1 h2

theorem lnGap_large : (10000000 : ℝ) ≤ lnGap := by
  unfold lnGap
  calc (10000000 : ℝ) ≤ 2 ^ 24 := by norm_num
    _ ≤ 2 ^ 266 := pow_le_pow_right₀ (by norm_num) (by norm_num)

theorem lnGap_half : ((2 ^ 265 : ℕ) : ℝ) + 1400000 ≤ lnGap := by
  have h1 : (1400000 : ℝ) ≤ 2 ^ 265 := by
    calc (1400000 : ℝ) ≤ 2 ^ 21 := by norm_num
      _ ≤ 2 ^ 265 := pow_le_pow_right₀ (by norm_num) (by norm_num)
  have h2 : lnGap = 2 ^ 265 + 2 ^ 265 := by unfold lnGap; rw [pow_succ, mul_two]
  rw [h2, Nat.cast_pow, Nat.cast_ofNat]
  exact add_le_add_right h1 _

theorem lnScale_large : lnScale * 1500 + 1400000 < ((2 ^ 331 : ℕ) : ℝ) := by
  have h1 : (1400000 : ℝ) ≤ lnScale := by
    unfold lnScale
    calc (1400000 : ℝ) ≤ 2 ^ 21 := by norm_num
      _ ≤ 2 ^ 320 := pow_le_pow_right₀ (by norm_num) (by norm_num)
  have h2 : ((2 ^ 331 : ℕ) : ℝ) = lnScale * 2048 := by
    unfold lnScale
    rw [Nat.cast_pow, Nat.cast_ofNat, show (331 : ℕ) = 320 + 11 from rfl, pow_add]
    norm_num
  rw [h2]; linarith [lnScale_pos]

theorem units_pos {x : F64} (h : f64Positive x) : 0 < f64Units x := by
  have := magUnits_lt h.2.1
  rwa [magUnits_zero] at this

theorem units_lt {x : F64} (h : f64Positive x) : f64Units x < 2 ^ 2098 := by
  have h1 := magUnits_lt h.2.2
  have h2 : magUnits f64InfMag = 2 ^ 2098 := by decide +kernel
  rwa [h2] at h1

theorem f64Positive_tests {x : F64} (h : f64Positive x) :
    f64IsNaN x = false ∧ f64IsZero x = false ∧ f64IsInf x = false ∧ f64Neg x = false := by
  obtain ⟨h1, h2, h3⟩ := h
  exact ⟨decide_eq_false (by omega), decide_eq_false (by omega), decide_eq_false (by omega), h1⟩

theorem LN_high {x : F64} (h : f64Positive x) (hu : oneUnits ≤ f64Units x) :
    LN x = f64Of false (roundMag (lnFix (f64Units x) oneUnits * oneUnits) (2 ^ lnPlaces)) := by
  obtain ⟨a, b, c, d⟩ := f64Positive_tests h
  rw [oneUnits_eq] at hu ⊢
  unfold LN
  rw [if_neg (by rw [a]; decide), if_neg (by rw [b]; decide), if_neg (by rw [d]; decide), if_neg (by rw [c]; decide), if_pos hu]

theorem LN_low {x : F64} (h : f64Positive x) (hu : ¬ oneUnits ≤ f64Units x) :
    LN x = f64Of true (roundMag (lnFix oneUnits (f64Units x) * oneUnits) (2 ^ lnPlaces)) := by
  obtain ⟨a, b, c, d⟩ := f64Positive_tests h
  rw [oneUnits_eq] at hu ⊢
  unfold LN
  rw [if_neg (by rw [a]; decide), if_neg (by rw [b]; decide), if_neg (by rw [d]; decide), if_neg (by rw [c]; decide), if_neg hu]

/-- The fixed-point logarithm is within 1400000 steps of the real one, for every ratio a binary64 argument can have. -/
theorem lnFix_close {a b : ℕ} (hb : 0 < b) (hab : b ≤ a) (hbig : a / b < 2 ^ 2000) :
    |((lnFix a b : ℕ) : ℝ) - lnScale * Real.log (a / b)| ≤ 1400000 := by
  obtain ⟨h1, h2⟩ := lnFix_bounds hb hab
  have hl : Nat.log2 (a / b) + 1 ≤ 2000 := by
    by_cases h0 : a / b = 0
    · rw [h0]; decide
    · exact (Nat.log2_lt h0).2 hbig
  have : ((Nat.log2 (a / b) + 1 : ℕ) : ℝ) ≤ 2000 := by exact_mod_cast hl
  rw [abs_le]
  constructor <;> linarith

/-- Logarithms of neighbouring magnitudes are well apart. -/
theorem scale_gap {a b : ℕ} (h : a < b) (h0 : 0 < magUnits a) :
    lnGap ≤ lnScale * Real.log ((magUnits b : ℕ) / (magUnits a : ℕ)) := by
  have h1 : magUnits a + ulpUnits a ≤ magUnits b := by rw [← magUnits_succ]; exact magUnits_le.2 h
  have h2 := magUnits_le_ulp a
  have hp : (0 : ℝ) < magUnits a := by exact_mod_cast h0
  have h1' : (magUnits a : ℝ) + ulpUnits a ≤ magUnits b := by exact_mod_cast h1
  have h2' : (magUnits a : ℝ) ≤ 2 ^ 53 * ulpUnits a := by exact_mod_cast h2
  have hb : (0 : ℝ) < magUnits b := by have : (0 : ℝ) ≤ ulpUnits a := Nat.cast_nonneg _; linarith
  have hlog : (1 : ℝ) / 2 ^ 54 ≤ Real.log ((magUnits b : ℕ) / (magUnits a : ℕ)) := by
    have := Real.one_sub_inv_le_log_of_pos (div_pos hb hp)
    refine le_trans ?_ this
    rw [inv_div, le_sub_iff_add_le, ← le_sub_iff_add_le', div_le_iff₀ hb]
    norm_num at h2' ⊢
    linarith
  refine le_trans (le_of_eq ?_) (mul_le_mul_of_nonneg_left hlog lnScale_pos.le)
  unfold lnScale lnGap
  rw [show (320 : ℕ) = 266 + 54 from rfl, pow_add, mul_one_div, mul_div_assoc, div_self (by positivity), mul_one]

/-- Rounding a logarithm in fixed point: finite, not zero, within a unit in the last place of the real value. -/
theorem round_core {l : ℕ} {L : ℝ} (hL : |(l : ℝ) - lnScale * L| ≤ 1400000) (h1 : 2 ^ 265 ≤ l) (h2 : l < 2 ^ 331) {m : ℕ}
    (hm : m = roundMag (l * oneUnits) (2 ^ lnPlaces)) :
    0 < m ∧ m < f64InfMag ∧ |((magUnits m : ℕ) : ℝ) - oneUnits * L| ≤ ((ulpUnits m : ℕ) : ℝ) := by
  obtain ⟨shift, n, e1, e2, e3, e4, e5, -, -, e8⟩ := roundMag_spec (l * oneUnits) (q := 2 ^ lnPlaces) (Nat.two_pow_pos _)
  have hB : l * oneUnits = l * stepUnits * 2 ^ lnPlaces := by rw [oneUnits_steps, Nat.mul_assoc]
  have hlp : 0 < 2 ^ lnPlaces := Nat.two_pow_pos _
  have hB' : (oneUnits : ℝ) = (stepUnits : ℝ) * lnScale := by rw [oneUnits_steps, Nat.cast_mul, lnScale_cast]
  rw [hB] at e4 e5 e8
  rw [Nat.mul_div_cancel _ hlp] at e8
  obtain ⟨hlo, hhi⟩ := log2_steps h1 h2
  have hsmall : 776 ≤ shift → stepUnits * 2800000 ≤ 2 ^ shift := stepUnits_small
  generalize stepUnits = X at *
  generalize 2 ^ lnPlaces = P at *
  have hs1 : 776 ≤ shift := by omega
  have hs2 : shift ≤ 1033 := by omega
  have hn : 2 ^ 52 ≤ n := by omega
  have hm : m = shift * 2 ^ 52 + n := by
    rw [hm, e1]; exact Nat.min_eq_left (by unfold f64InfMag; omega)
  have hmu : magUnits m = n * 2 ^ shift := by rw [hm, magUnits_eq e2 (.inr hn)]
  have hulp : 2 ^ shift ≤ ulpUnits m := by
    unfold ulpUnits; exact Nat.pow_le_pow_right (by decide) (by omega)
  have hsmall := hsmall hs1
  generalize 2 ^ shift = S at *
  have f1 : 2 * (n * S) ≤ 2 * (l * X) + S := by
    refine Nat.le_of_mul_le_mul_right ?_ hlp
    calc 2 * (n * S) * P = 2 * (n * (P * S)) := by ring
      _ ≤ _ := e4
      _ = _ := by ring
  have f2 : 2 * (l * X) ≤ 2 * (n * S) + S := by
    refine Nat.le_of_mul_le_mul_right ?_ hlp
    calc 2 * (l * X) * P = 2 * (l * X * P) := by ring
      _ ≤ _ := e5
      _ = _ := by ring
  rw [← hmu] at f1 f2
  refine ⟨by omega, by rw [hm]; unfold f64InfMag; omega, ?_⟩
  have f1' : 2 * ((magUnits m : ℕ) : ℝ) ≤ 2 * ((l : ℝ) * X) + S := by exact_mod_cast f1
  have f2' : 2 * ((l : ℝ) * X) ≤ 2 * ((magUnits m : ℕ) : ℝ) + S := by exact_mod_cast f2
  have hulp' : (S : ℝ) ≤ ((ulpUnits m : ℕ) : ℝ) := by exact_mod_cast hulp
  have hsmall' : (X : ℝ) * 2800000 ≤ S := by exact_mod_cast hsmall
  have hX : (0 : ℝ) ≤ X := Nat.cast_nonneg _
  rw [hB', mul_assoc]
  obtain ⟨g1, g2⟩ := abs_le.1 hL
  generalize lnScale * L = y at *
  have g3 := mul_le_mul_of_nonneg_left g1 hX
  have g4 := mul_le_mul_of_nonneg_left g2 hX
  rw [abs_le]
  constructor <;> nlinarith

theorem mag_one : magUnits (f64Mag cOne) = oneUnits := by rw [oneUnits_eq]; decide +kernel

theorem log_upper {u v : ℕ} (hu : 0 < u) (h : v < u * 2 ^ 1500) : Real.log ((v : ℝ) / u) ≤ 1500 := by
  have hu' : (0 : ℝ) < u := by exact_mod_cast hu
  by_cases hv : v = 0
  · subst hv; rw [Nat.cast_zero, zero_div, Real.log_zero]; norm_num
  have hv' : (0 : ℝ) < v := by have := Nat.pos_of_ne_zero hv; exact_mod_cast this
  have hvr : (v : ℝ) ≤ ((u * 2 ^ 1500 : ℕ) : ℝ) := Nat.cast_le.2 (le_of_lt h)
  rw [Nat.cast_mul, Nat.cast_pow, Nat.cast_ofNat, mul_comm] at hvr
  have h' : (v : ℝ) / u ≤ 2 ^ 1500 := (div_le_iff₀ hu').2 hvr
  have h3 := Real.log_le_log (div_pos hv' hu') h'
  rw [Real.log_pow] at h3
  have h2 := Real.log_two_lt_d9
  have h4 : ((1500 : ℕ) : ℝ) = 1500 := by norm_num
  rw [h4] at h3
  linarith

/-- One side of one: the larger over the smaller argument. -/
theorem LN_side {a b m : ℕ} (hab : magUnits a < magUnits b) (ha : 0 < magUnits a) (hbig : magUnits b < magUnits a * 2 ^ 1500)
    (hm : m = roundMag (lnFix (magUnits b) (magUnits a) * oneUnits) (2 ^ lnPlaces)) :
    0 < m ∧ m < f64InfMag ∧
      |((magUnits m : ℕ) : ℝ) - oneUnits * Real.log ((magUnits b : ℕ) / (magUnits a : ℕ))| ≤ ((ulpUnits m : ℕ) : ℝ) := by
  have hlt : a < b := by by_contra h; have := magUnits_le.2 (Nat.le_of_not_lt h); omega
  have hdiv : magUnits b / magUnits a < 2 ^ 2000 := by
    rw [Nat.div_lt_iff_lt_mul ha, Nat.mul_comm]
    exact lt_of_lt_of_le hbig (Nat.mul_le_mul_left _ (Nat.pow_le_pow_right (by decide) (by decide)))
  have hc := lnFix_close ha (le_of_lt hab) hdiv
  have hg := scale_gap hlt ha
  have hup := mul_le_mul_of_nonneg_left (log_upper ha hbig) lnScale_pos.le
  obtain ⟨c1, c2⟩ := abs_le.1 hc
  have b1 := lnGap_half
  have b2 := lnScale_large
  exact round_core hc (Nat.cast_le (α := ℝ).1 (by linarith)) (Nat.cast_lt (α := ℝ).1 (by linarith)) hm

theorem order_of_positive {x : F64} (h : f64Positive x) : f64Order x = f64Mag x := by unfold f64Order; rw [h.1]; rfl

theorem one_positive : f64Positive cOne := by unfold f64Positive; decide

theorem fgt_positive {x y : F64} (hx : f64Positive x) (hy : f64Positive y) : fgt x y = true ↔ f64Units y < f64Units x := by
  unfold fgt
  rw [(f64Positive_tests hx).1, (f64Positive_tests hy).1, order_of_positive hx, order_of_positive hy]
  simp only [Bool.not_false, Bool.true_and, decide_eq_true_eq, Nat.cast_lt]
  constructor
  · exact magUnits_lt
  · intro h; by_contra hn; have := magUnits_le.2 (Nat.le_of_not_lt hn); unfold f64Units at h; omega

theorem units_one : f64Units cOne = oneUnits := mag_one

theorem LN_one : LN cOne = f64Of false 0 := by decide +kernel

theorem value_of (neg : Bool) {m : ℕ} (h : m < f64InfMag) :
    f64Value (f64Of neg m) = if neg then -(magUnits m : Int) else magUnits m := by
  unfold f64Value f64Units
  rw [f64Neg_of neg (lt_trans h f64InfMag_lt), f64Mag_of neg (lt_trans h f64InfMag_lt)]

/-- Everything about the logarithm of a positive finite argument: at one, above it, below it. -/
theorem LN_cases {x : F64} (h : f64Positive x) :
    (f64Units x = oneUnits ∧ LN x = f64Of false 0) ∨
    (oneUnits < f64Units x ∧ ∃ m, LN x = f64Of false m ∧ 0 < m ∧ m < f64InfMag ∧
      m = roundMag (lnFix (f64Units x) oneUnits * oneUnits) (2 ^ lnPlaces) ∧
      |((magUnits m : ℕ) : ℝ) - oneUnits * Real.log ((f64Units x : ℕ) / oneUnits)| ≤ ((ulpUnits m : ℕ) : ℝ)) ∨
    (f64Units x < oneUnits ∧ ∃ m, LN x = f64Of true m ∧ 0 < m ∧ m < f64InfMag ∧
      m = roundMag (lnFix oneUnits (f64Units x) * oneUnits) (2 ^ lnPlaces) ∧
      |((magUnits m : ℕ) : ℝ) + oneUnits * Real.log ((f64Units x : ℕ) / oneUnits)| ≤ ((ulpUnits m : ℕ) : ℝ)) := by
  have hp := units_pos h
  have hl := units_lt h
  rcases lt_trichotomy (f64Units x) oneUnits with hu | hu | hu
  · right; right
    have hbig : magUnits (f64Mag cOne) < magUnits (f64Mag x) * 2 ^ 1500 := by
      rw [mag_one, oneUnits_eq]
      exact lt_of_lt_of_le (Nat.pow_lt_pow_right (by decide) (by decide)) (Nat.le_mul_of_pos_left _ hp)
    obtain ⟨m1, m2, m3⟩ := LN_side (by rw [mag_one]; exact hu) hp hbig rfl
    rw [mag_one] at m1 m2 m3
    refine ⟨hu, _, LN_low h (Nat.not_le.2 hu), m1, m2, rfl, ?_⟩
    have hlog : Real.log ((oneUnits : ℝ) / (magUnits (f64Mag x) : ℕ)) = - Real.log ((magUnits (f64Mag x) : ℕ) / oneUnits) := by
      rw [← Real.log_inv, inv_div]
    rw [hlog, mul_neg, sub_neg_eq_add] at m3
    exact m3
  · left
    refine ⟨hu, ?_⟩
    have : x = cOne := by
      rw [← f64Of_mag x, ← f64Of_mag cOne, h.1, one_positive.1, magUnits_inj (a := f64Mag x) (b := f64Mag cOne) (by rw [mag_one]; exact hu)]
    rw [this]; exact LN_one
  · right; left
    have hbig : magUnits (f64Mag x) < magUnits (f64Mag cOne) * 2 ^ 1500 := by
      rw [mag_one, oneUnits_eq, ← Nat.pow_add]
      exact lt_of_lt_of_le hl (Nat.pow_le_pow_right (by decide) (by decide))
    obtain ⟨m1, m2, m3⟩ := LN_side (by rw [mag_one]; exact hu) (by rw [mag_one]; exact oneUnits_pos) hbig rfl
    rw [mag_one] at m1 m2 m3
    exact ⟨hu, _, LN_high h (le_of_lt hu), m1, m2, rfl, m3⟩

theorem lnFix_le {a b c d : ℕ} (hb : 0 < b) (hab : b ≤ a) (h1 : a / b < 2 ^ 2000) (hd : 0 < d) (hcd : d ≤ c) (h2 : c / d < 2 ^ 2000)
    (hg : lnScale * Real.log ((a : ℝ) / b) + lnGap ≤ lnScale * Real.log ((c : ℝ) / d)) : lnFix a b ≤ lnFix c d := by
  obtain ⟨-, e1⟩ := abs_le.1 (lnFix_close hb hab h1)
  obtain ⟨e2, -⟩ := abs_le.1 (lnFix_close hd hcd h2)
  have := lnGap_large
  exact Nat.cast_le (α := ℝ).1 (by linarith)

theorem fle_of (n1 n2 : Bool) {m1 m2 : ℕ} (h1 : m1 ≤ f64InfMag) (h2 : m2 ≤ f64InfMag)
    (h : (if n1 then -(m1 : Int) else m1) ≤ (if n2 then -(m2 : Int) else m2)) : fle (f64Of n1 m1) (f64Of n2 m2) = true := by
  have b1 : m1 < 2 ^ 63 := lt_of_le_of_lt h1 f64InfMag_lt
  have b2 : m2 < 2 ^ 63 := lt_of_le_of_lt h2 f64InfMag_lt
  unfold fle f64IsNaN f64Order
  rw [f64Mag_of n1 b1, f64Mag_of n2 b2, f64Neg_of n1 b1, f64Neg_of n2 b2]
  simp only [Bool.and_eq_true, Bool.not_eq_true', decide_eq_false_iff_not, decide_eq_true_eq]
  exact ⟨⟨Nat.not_lt.2 h1, Nat.not_lt.2 h2⟩, h⟩

/-- Ratios of binary64 magnitudes are far below `2^2000`. -/
theorem ratio_lt {x : F64} (h : f64Positive x) : f64Units x / oneUnits < 2 ^ 2000 ∧ oneUnits / f64Units x < 2 ^ 2000 := by
  constructor
  · rw [Nat.div_lt_iff_lt_mul oneUnits_pos, oneUnits_eq, ← Nat.pow_add]
    exact lt_of_lt_of_le (units_lt h) (Nat.pow_le_pow_right (by decide) (by decide))
  · rw [oneUnits_eq]
    exact lt_of_le_of_lt (Nat.div_le_self _ _) (Nat.pow_lt_pow_right (by decide) (by decide))

/-- The logarithm keeps order. -/
theorem LN_mono {x y : F64} (hx : f64Positive x) (hy : f64Positive y) (hxy : f64Mag x ≤ f64Mag y) : fle (LN x) (LN y) = true := by
  have px := units_pos hx
  have py := units_pos hy
  rcases Nat.eq_or_lt_of_le hxy with he | hlt
  · have : x = y := by rw [← f64Of_mag x, ← f64Of_mag y, hx.1, hy.1, he]
    subst this
    rcases LN_cases hx with ⟨-, e⟩ | ⟨-, m, e, -, m2, -⟩ | ⟨-, m, e, -, m2, -⟩
    · rw [e]; decide
    · rw [e]; exact fle_of _ _ (le_of_lt m2) (le_of_lt m2) le_rfl
    · rw [e]; exact fle_of _ _ (le_of_lt m2) (le_of_lt m2) le_rfl
  · have hg := scale_gap hlt px
    have hB : (0 : ℝ) < oneUnits := by exact_mod_cast oneUnits_pos
    have hux0 : (0 : ℝ) < (f64Units x : ℕ) := by exact_mod_cast px
    have huy0 : (0 : ℝ) < (f64Units y : ℕ) := by exact_mod_cast py
    have hlogs : Real.log ((magUnits (f64Mag y) : ℕ) / (magUnits (f64Mag x) : ℕ)) = Real.log (f64Units y : ℕ) - Real.log (f64Units x : ℕ) :=
      Real.log_div huy0.ne' hux0.ne'
    rw [hlogs, mul_sub] at hg
    have hunits : f64Units x < f64Units y := magUnits_lt hlt
    rcases LN_cases hx with ⟨hu, e⟩ | ⟨hu, m, e, m1, m2, m3, -⟩ | ⟨hu, m, e, m1, m2, m3, -⟩ <;>
      rcases LN_cases hy with ⟨hu', e'⟩ | ⟨hu', m', e', m1', m2', m3', -⟩ | ⟨hu', m', e', m1', m2', m3', -⟩ <;> rw [e, e']
    · omega
    · exact fle_of _ _ (by decide) (le_of_lt m2') (by simp)
    · omega
    · omega
    · refine fle_of _ _ (le_of_lt m2) (le_of_lt m2') ?_
      simp only [Bool.false_eq_true, if_false, Nat.cast_le]
      rw [m3, m3']
      refine roundMag_mono (Nat.two_pow_pos _) (Nat.two_pow_pos _) (Nat.mul_le_mul_right _ (Nat.mul_le_mul_right _ ?_))
      refine lnFix_le oneUnits_pos (le_of_lt hu) (ratio_lt hx).1 oneUnits_pos (le_of_lt hu') (ratio_lt hy).1 ?_
      rw [Real.log_div hux0.ne' hB.ne', Real.log_div huy0.ne' hB.ne', mul_sub, mul_sub]
      linarith
    · omega
    · exact fle_of _ _ (le_of_lt m2) (by decide) (by simp)
    · exact fle_of _ _ (le_of_lt m2) (le_of_lt m2') (by simp only [if_true, Bool.false_eq_true, if_false]; omega)
    · refine fle_of _ _ (le_of_lt m2) (le_of_lt m2') ?_
      simp only [if_true, neg_le_neg_iff, Nat.cast_le]
      rw [m3, m3']
      refine roundMag_mono (Nat.two_pow_pos _) (Nat.two_pow_pos _) (Nat.mul_le_mul_right _ (Nat.mul_le_mul_right _ ?_))
      refine lnFix_le py (le_of_lt hu') (ratio_lt hy).2 px (le_of_lt hu) (ratio_lt hx).2 ?_
      rw [Real.log_div hB.ne' hux0.ne', Real.log_div hB.ne' huy0.ne', mul_sub, mul_sub]
      linarith

/-! ## The six properties of 42_estimator.md R141, one by one -/

theorem LN_finite {x : F64} (h : f64Positive x) : f64Mag (LN x) < f64InfMag := by
  rcases LN_cases h with ⟨-, e⟩ | ⟨-, m, e, -, m2, -⟩ | ⟨-, m, e, -, m2, -⟩
  · rw [e]; decide
  · rw [e, f64Mag_of _ (lt_trans m2 f64InfMag_lt)]; exact m2
  · rw [e, f64Mag_of _ (lt_trans m2 f64InfMag_lt)]; exact m2

/-- Within one unit in the last place of the real logarithm. -/
theorem LN_faithful {x : F64} (h : f64Positive x) :
    |((f64Value (LN x) : ℤ) : ℝ) / oneUnits - Real.log (((f64Value x : ℤ) : ℝ) / oneUnits)|
      ≤ ((ulpUnits (f64Mag (LN x)) : ℕ) : ℝ) / oneUnits := by
  have hv : f64Value x = (f64Units x : Int) := by unfold f64Value; rw [h.1]; rfl
  have hX : (0 : ℝ) < oneUnits := by exact_mod_cast oneUnits_pos
  rw [hv, Int.cast_natCast]
  rcases LN_cases h with ⟨hu, e⟩ | ⟨-, m, e, -, m2, -, m3⟩ | ⟨-, m, e, -, m2, -, m3⟩
  · rw [e, value_of _ (by decide), hu, div_self hX.ne', Real.log_one]
    have : (0 : ℝ) ≤ ((ulpUnits (f64Mag (f64Of false 0)) : ℕ) : ℝ) / (oneUnits : ℝ) := div_nonneg (Nat.cast_nonneg _) hX.le
    simpa using this
  · rw [e, value_of _ m2, f64Mag_of _ (lt_trans m2 f64InfMag_lt)]
    simp only [Bool.false_eq_true, if_false, Int.cast_natCast]
    generalize (oneUnits : ℝ) = X at *
    rw [le_div_iff₀ hX, ← abs_of_pos hX, ← abs_mul, abs_of_pos hX, sub_mul, div_mul_cancel₀ _ hX.ne', mul_comm (Real.log _)]
    exact m3
  · rw [e, value_of _ m2, f64Mag_of _ (lt_trans m2 f64InfMag_lt)]
    simp only [if_true, Int.cast_neg, Int.cast_natCast]
    generalize (oneUnits : ℝ) = X at *
    rw [le_div_iff₀ hX, ← abs_of_pos hX, ← abs_mul, abs_of_pos hX, sub_mul, div_mul_cancel₀ _ hX.ne', mul_comm (Real.log _), ← abs_neg,
      neg_sub, sub_neg_eq_add, add_comm]
    exact m3

theorem LN_above {x : F64} (h : f64Positive x) (hg : fgt x cOne = true) : 0 < f64Value (LN x) := by
  have hu := (fgt_positive h one_positive).1 hg
  rw [units_one] at hu
  rcases LN_cases h with ⟨hu', e⟩ | ⟨-, m, e, m1, m2, -⟩ | ⟨hu', m, e, -, m2, -⟩
  · omega
  · rw [e, value_of _ m2]
    have := magUnits_lt m1
    rw [magUnits_zero] at this
    simpa using this
  · omega

theorem LN_below {x : F64} (h : f64Positive x) (hg : fgt cOne x = true) : f64Value (LN x) < 0 := by
  have hu := (fgt_positive one_positive h).1 hg
  rw [units_one] at hu
  rcases LN_cases h with ⟨hu', e⟩ | ⟨hu', m, e, m1, m2, -⟩ | ⟨hu', m, e, m1, m2, -⟩
  · omega
  · omega
  · rw [e, value_of _ m2]
    have := magUnits_lt m1
    rw [magUnits_zero] at this
    simpa using this

theorem LN_zero {x : F64} (h : f64IsZero x = true) : LN x = f64Of true f64InfMag := by
  have hz : f64Mag x = 0 := of_decide_eq_true h
  have hn : f64IsNaN x = false := decide_eq_false (by rw [hz]; exact Nat.not_lt_zero _)
  unfold LN
  rw [if_neg (by rw [hn]; decide), if_pos h]

theorem LN_nan {x : F64} (h : f64IsNaN x = true ∨ (f64Neg x = true ∧ f64IsZero x = false)) : LN x = f64NaN := by
  unfold LN
  rcases h with h | ⟨h1, h2⟩
  · rw [if_pos h]
  · by_cases hn : f64IsNaN x = true
    · rw [if_pos hn]
    · rw [if_neg hn, if_neg (by rw [h2]; decide), if_pos h1]

theorem mag_le_of_fle {x y : F64} (hx : f64Positive x) (hy : f64Positive y) (h : fle x y = true) : f64Mag x ≤ f64Mag y := by
  unfold fle at h
  rw [order_of_positive hx, order_of_positive hy] at h
  simp only [Bool.and_eq_true, decide_eq_true_eq] at h
  exact_mod_cast h.2

end Sys2Proof.Machine
end

