-- ==== Sys2Proof/Laws/Estimator.lean ====
section
/-! SUPPORT. The estimator on legal sketches (42_estimator.md R130 to R143): the indicator sum is exact, the raw estimate is finite and at
least one, what each regime's last step gives for any logarithm with the six properties of R141. Large powers of two stand under names of
their own, so that no tactic computes them; facts about constants are decided by the kernel. -/

namespace Sys2Proof.Machine

/-- `Σ 2^(32 - r)`: the indicator sum as a whole number of steps of `2^-32`. -/
def numer (cells : List Byte) : Nat := (cells.map fun r => 2 ^ (32 - r.toNat)).sum

theorem numer_append (a b : List Byte) : numer (a ++ b) = numer a + numer b := by unfold numer; simp

theorem numer_cons (r : Byte) (cs : List Byte) : numer (r :: cs) = 2 ^ (32 - r.toNat) + numer cs := by unfold numer; simp

/-- Between the number of cells and `2^32` times it. -/
theorem numer_bounds (cells : List Byte) : cells.length ≤ numer cells ∧ numer cells ≤ cells.length * 2 ^ 32 := by
  induction cells with
  | nil => simp [numer]
  | cons r cs ih =>
    rw [numer_cons, List.length_cons]
    have h1 : 0 < 2 ^ (32 - r.toNat) := Nat.two_pow_pos _
    have h2 : 2 ^ (32 - r.toNat) ≤ 2 ^ 32 := Nat.pow_le_pow_right (by decide) (by omega)
    omega

theorem steps_numer (cells : List Byte) (h : ∀ r ∈ cells, r.toNat ≤ 32) : indicatorSteps cells = numer cells * 2 ^ 223 := by
  induction cells with
  | nil => rfl
  | cons r cs ih =>
    have e : indicatorSteps (r :: cs) = 2 ^ (255 - r.toNat) + indicatorSteps cs := by unfold indicatorSteps; simp
    have hr := h r (by simp)
    rw [e, ih fun c hc => h c (by simp [hc]), numer_cons, Nat.add_mul, ← Nat.pow_add]
    congr 2; omega

/-- `2^-32` in units. -/
@[irreducible] def cellUnits : ℕ := 2 ^ 1042

theorem cellUnits_pos : 0 < cellUnits := by unfold cellUnits; exact Nat.two_pow_pos _

theorem cellUnits_one : cellUnits * 2 ^ 32 = oneUnits := by unfold cellUnits oneUnits; rw [← Nat.pow_add]

theorem cellUnits_leaf {r : ℕ} (h : r ≤ 32) : 2 ^ (32 - r) * cellUnits = 2 ^ (1074 - r) := by unfold cellUnits; rw [← Nat.pow_add]; congr 1; omega

theorem cellUnits_round {j : ℕ} (hj : j < 2 ^ 53) : magUnits (roundMag (j * cellUnits) 1) = j * cellUnits ∧ roundMag (j * cellUnits) 1 < f64InfMag := by
  unfold cellUnits; exact magUnits_roundMag (t := 1042) hj (by omega)

theorem cellUnits_steps (n : ℕ) : roundMag (n * 2 ^ 223 * 2 ^ 1074) (2 ^ 255) = roundMag (n * cellUnits) 1 := by
  refine roundMag_ratio (Nat.two_pow_pos _) Nat.one_pos ?_
  unfold cellUnits
  rw [Nat.mul_one, Nat.mul_assoc, Nat.mul_assoc, ← Nat.pow_add, ← Nat.pow_add]

/-- The indicator sum of a legal sketch. -/
theorem indicator_numer (cells : List Byte) (h : ∀ r ∈ cells, r.toNat ≤ 32) : indicatorSum cells = f64Of false (roundMag (numer cells * cellUnits) 1) := by
  unfold indicatorSum
  rw [steps_numer cells h, cellUnits_steps]

/-- The numerator of the raw estimate lies between `M² / 4` and `M²`, for every precision. -/
theorem top_fact (k : Nat) (h1 : 2 ≤ k) (h2 : k ≤ 16) : ∃ A, fmul (alpha (2 ^ k)) (f64OfNat (2 ^ k * 2 ^ k)) = f64Of false A ∧ A < f64InfMag ∧
    2 ^ k * 2 ^ k * oneUnits ≤ magUnits A * 4 ∧ magUnits A ≤ 2 ^ k * 2 ^ k * oneUnits := by
  rw [oneUnits_eq]
  refine ⟨f64Mag (fmul (alpha (2 ^ k)) (f64OfNat (2 ^ k * 2 ^ k))), ?_, ?_⟩
  · interval_cases k <;> decide +kernel
  · interval_cases k <;> decide +kernel

/-- The magnitude bits of a whole number. -/
def magOfNat (n : ℕ) : ℕ := f64Mag (f64OfNat n)

theorem mag48 : magUnits (magOfNat (2 ^ 48)) = 2 ^ 48 * oneUnits ∧ magOfNat (2 ^ 48) < f64InfMag := by rw [oneUnits_eq]; decide +kernel

/-- The raw estimate of a legal sketch is finite and at least one. -/
theorem raw_shape (k : Nat) (cells : List Byte) (h1 : 2 ≤ k) (h2 : k ≤ 16) (hl : cells.length = 2 ^ k) (h : ∀ r ∈ cells, r.toNat ≤ 32) :
    ∃ R, rawEstimate (2 ^ k) cells = f64Of false R ∧ f64Mag cOne ≤ R ∧ R < f64InfMag := by
  obtain ⟨A, a1, a2, a3, a4⟩ := top_fact k h1 h2
  obtain ⟨n1, n2⟩ := numer_bounds cells
  rw [hl] at n1 n2
  have h16 : 2 ^ k ≤ 2 ^ 16 := Nat.pow_le_pow_right (by decide) h2
  have h4 : 2 ^ 2 ≤ 2 ^ k := Nat.pow_le_pow_right (by decide) h1
  have h0 : 0 < 2 ^ k := Nat.two_pow_pos _
  obtain ⟨m1, m2⟩ := cellUnits_round (j := numer cells) (by omega)
  have hq : 0 < numer cells * cellUnits := Nat.mul_pos (by omega) cellUnits_pos
  have mpos : 0 < roundMag (numer cells * cellUnits) 1 := by
    by_contra hc
    rw [Nat.eq_zero_of_not_pos hc, magUnits_zero] at m1
    omega
  unfold rawEstimate
  rw [a1, indicator_numer cells h, fdiv_finite false false a2 m2 mpos, m1, ← oneUnits_eq]
  generalize 2 ^ k = K at *
  have mo := mag_one
  obtain ⟨t1, t2⟩ := mag48
  have ec := cellUnits_one
  generalize oneUnits = U at *
  generalize numer cells = S at *
  generalize cellUnits = c at *
  refine ⟨_, rfl, le_roundMag hq (by decide +kernel) ?_, lt_of_le_of_lt (roundMag_le hq (Nat.le_of_lt t2) ?_) t2⟩
  · rw [mo]
    have s1 : S * c ≤ K * U := by rw [← ec, Nat.mul_comm c, ← Nat.mul_assoc]; exact Nat.mul_le_mul_right _ n2
    have s2 : 4 * (K * U) ≤ K * K * U := by rw [Nat.mul_assoc K K U]; exact Nat.mul_le_mul_right _ h4
    have s3 : S * c ≤ magUnits A := by omega
    rw [Nat.mul_comm]; exact Nat.mul_le_mul_right _ s3
  · rw [t1, Nat.mul_assoc (2 ^ 48), Nat.mul_comm U, ← Nat.mul_assoc]
    refine Nat.mul_le_mul_right _ (le_trans a4 ?_)
    rw [← ec]
    calc K * K * (c * 2 ^ 32) ≤ 2 ^ 16 * S * (c * 2 ^ 32) := Nat.mul_le_mul_right _ (Nat.mul_le_mul h16 n1)
      _ = 2 ^ 48 * (S * c) := by ring

theorem mag32 : cTwo32 = f64Of false (magOfNat (2 ^ 32)) ∧ magUnits (magOfNat (2 ^ 32)) = 2 ^ 32 * oneUnits ∧ magOfNat (2 ^ 32) < f64InfMag ∧ 0 < magOfNat (2 ^ 32) := by
  rw [oneUnits_eq]; decide +kernel

theorem round_oneU {j : ℕ} (hj : j < 2 ^ 53) : magUnits (roundMag (j * oneUnits) 1) = j * oneUnits ∧ roundMag (j * oneUnits) 1 < f64InfMag := by
  unfold oneUnits; exact magUnits_roundMag (t := 1074) hj (by omega)

theorem ofNat_eq (n : ℕ) : f64OfNat n = f64Of false (roundMag (n * oneUnits) 1) := by unfold f64OfNat; rw [oneUnits_eq]

theorem mag_ofNat {n : ℕ} (h : n < 2 ^ 17) : f64OfNat n = f64Of false (magOfNat n) ∧ magOfNat n < f64InfMag ∧ magUnits (magOfNat n) = n * oneUnits := by
  obtain ⟨m1, m2⟩ := round_oneU (j := n) (by omega)
  unfold magOfNat
  rw [ofNat_eq, f64Mag_of _ (roundMag_lt _ _)]
  exact ⟨rfl, m2, m1⟩

/-- Dividing by `2^32` is 32 steps of the exponent. -/
theorem magUnits_scale {R : ℕ} (h : 33 * 2 ^ 52 ≤ R) : magUnits (R - 32 * 2 ^ 52) * 2 ^ 32 = magUnits R := by
  obtain ⟨s, n, h1, h2, h3, h4⟩ := mag_split R
  have hs : 32 ≤ s := by omega
  have hn : 2 ^ 52 ≤ n := by omega
  rw [show R - 32 * 2 ^ 52 = (s - 32) * 2 ^ 52 + n by omega, h1, magUnits_eq (by omega) (.inr hn), magUnits_eq (by omega) (.inr hn), Nat.mul_assoc, ← Nat.pow_add]
  congr 2; omega

theorem fmul_special {x y : F64} (h : f64IsNaN x = false) (h2 : f64IsNaN y = true) : fmul x y = f64NaN := by
  unfold fmul; rw [h, h2]; rfl

theorem div32 {R : ℕ} (h : f64Mag cOne ≤ R) (h2 : R < f64InfMag) : fdiv (f64Of false R) cTwo32 = f64Of false (R - 32 * 2 ^ 52) := by
  obtain ⟨e1, e2, e3, e4⟩ := mag32
  have h33 : 33 * 2 ^ 52 ≤ R := le_trans (by decide) h
  rw [e1, fdiv_finite false false h2 e3 e4, e2, ← magUnits_scale h33, ← oneUnits_eq]
  have hW : 0 < 2 ^ 32 * oneUnits := Nat.mul_pos (by decide) oneUnits_pos
  rw [Nat.mul_assoc]
  generalize 2 ^ 32 * oneUnits = W at *
  rw [roundMag_exact hW (by omega)]; rfl

theorem f64Pos_of {m : ℕ} (h0 : 0 < m) (h : m < f64InfMag) : f64Positive (f64Of false m) := by
  unfold f64Positive
  rw [f64Neg_of _ (lt_trans h f64InfMag_lt), f64Mag_of _ (lt_trans h f64InfMag_lt)]
  exact ⟨rfl, h0, h⟩

theorem not_nan_of {b : Bool} {m : ℕ} (h : m ≤ f64InfMag) : f64IsNaN (f64Of b m) = false := by
  unfold f64IsNaN; rw [f64Mag_of _ (lt_of_le_of_lt h f64InfMag_lt)]; exact decide_eq_false (Nat.not_lt.2 h)

theorem fmul_good {b : Bool} {m : ℕ} (hm : m < f64InfMag) {y : F64} (hy : f64Mag y < f64InfMag) (hs : f64Neg y = b) :
    f64IsNaN (fmul (f64Of b m) y) = false ∧ f64Neg (fmul (f64Of b m) y) = false := by
  have e : y = f64Of b (f64Mag y) := by rw [← hs]; exact (f64Of_mag y).symm
  rw [e, fmul_finite b b hm hy]
  refine ⟨not_nan_of (roundMag_le_inf _ _), ?_⟩
  rw [f64Neg_of _ (roundMag_lt _ _)]; cases b <;> rfl

theorem neg_of_value_pos {y : F64} (h : 0 < f64Value y) : f64Neg y = false := by
  unfold f64Value at h
  cases hn : f64Neg y with
  | false => rfl
  | true => rw [hn] at h; simp at h; omega

theorem neg_of_value_neg {y : F64} (h : f64Value y < 0) : f64Neg y = true := by
  unfold f64Value at h
  cases hn : f64Neg y with
  | true => rfl
  | false => rw [hn] at h; simp at h; omega

theorem one_next : magUnits (f64Mag cOne + 1) * 2 ^ 52 = oneUnits * (2 ^ 52 + 1) := by rw [oneUnits_eq]; decide +kernel

/-- The linear-counting estimate is a number and not negative. -/
theorem linear_good {ln : F64 → F64} (hs : LnSpec ln) {m v : ℕ} (hv : 0 < v) (hvm : v ≤ m) (hm : m ≤ 2 ^ 16) :
    f64IsNaN (linearEstimate ln m v) = false ∧ f64Neg (linearEstimate ln m v) = false := by
  obtain ⟨a1, a2, a3⟩ := mag_ofNat (n := m) (by omega)
  obtain ⟨b1, b2, b3⟩ := mag_ofNat (n := v) (by omega)
  have hU := oneUnits_pos
  have hb0 : 0 < magOfNat v := by
    by_contra hc
    rw [Nat.eq_zero_of_not_pos hc, magUnits_zero] at b3
    exact absurd b3.symm (Nat.mul_ne_zero (by omega) (by omega))
  unfold linearEstimate
  rw [a1, b1, fdiv_finite false false a2 b2 hb0, a3, b3, ← oneUnits_eq, show (false != false) = false from rfl]
  have hq : 0 < v * oneUnits := Nat.mul_pos hv hU
  have hlow : f64Mag cOne ≤ roundMag (m * oneUnits * oneUnits) (v * oneUnits) := by
    refine le_roundMag hq (by decide +kernel) ?_
    rw [mag_one, Nat.mul_comm oneUnits]
    exact Nat.mul_le_mul_right _ (Nat.mul_le_mul_right _ hvm)
  have hhigh : roundMag (m * oneUnits * oneUnits) (v * oneUnits) ≤ magOfNat m := by
    refine roundMag_le hq (le_of_lt a2) ?_
    rw [a3]
    exact Nat.mul_le_mul_left _ (Nat.le_mul_of_pos_left _ hv)
  have hpos : 0 < f64Mag cOne := by decide +kernel
  rcases Nat.eq_or_lt_of_le hvm with rfl | hlt
  · have : roundMag (v * oneUnits * oneUnits) (v * oneUnits) = f64Mag cOne := by
      have := roundMag_exact (mag := f64Mag cOne) hq (by decide +kernel)
      rw [mag_one, Nat.mul_comm oneUnits] at this
      exact this
    rw [this]
    have e1 : f64Of false (f64Mag cOne) = cOne := by decide +kernel
    show f64IsNaN (fmul _ (ln (f64Of false _))) = _ ∧ _
    rw [e1, hs.one]
    exact fmul_good a2 (by decide) (by decide)
  · have hlow2 : f64Mag cOne + 1 ≤ roundMag (m * oneUnits * oneUnits) (v * oneUnits) := by
      refine le_roundMag hq (by decide +kernel) ?_
      have e := one_next
      have e2 : magUnits (f64Mag cOne + 1) * v ≤ m * oneUnits := by
        refine Nat.le_of_mul_le_mul_right ?_ (show 0 < 2 ^ 52 by decide)
        calc magUnits (f64Mag cOne + 1) * v * 2 ^ 52 = (magUnits (f64Mag cOne + 1) * 2 ^ 52) * v := by ring
          _ = (2 ^ 52 * v + v) * oneUnits := by rw [e]; ring
          _ ≤ (m * 2 ^ 52) * oneUnits := Nat.mul_le_mul_right _ (by omega)
          _ = _ := by ring
      rw [← Nat.mul_assoc]
      exact Nat.mul_le_mul_right _ e2
    have hp := f64Pos_of (m := roundMag (m * oneUnits * oneUnits) (v * oneUnits)) (by omega) (by omega)
    refine fmul_good a2 (hs.finite _ hp) (neg_of_value_pos (hs.above _ hp ?_))
    rw [fgt_positive hp one_positive, f64Units_of _ (by omega)]
    exact magUnits_lt (by omega)

theorem sub_one {X : ℕ} (hX : X < f64InfMag) :
    fsub cOne (f64Of false X) = f64Of (decide ((oneUnits : Int) < magUnits X)) (roundMag ((oneUnits : Int) - magUnits X).natAbs 1) := by
  have e : fneg (f64Of false X) = f64Of true X := by
    unfold fneg; rw [f64Neg_of _ (lt_trans hX f64InfMag_lt), f64Mag_of _ (lt_trans hX f64InfMag_lt)]; rfl
  have e1 : cOne = f64Of false (f64Mag cOne) := by decide +kernel
  unfold fsub
  rw [e]
  conv_lhs => rw [e1]
  rw [fadd_finite false true (by decide +kernel) hX rfl]
  simp only [mag_one, Bool.false_eq_true, if_false, if_true, ← sub_eq_add_neg]
  congr 1
  split
  · rename_i h; rw [Bool.false_and]; exact (decide_eq_false (by omega)).symm
  · exact decide_eq_decide.2 (by omega)

theorem near_one : ∃ y, magUnits y * 32 = oneUnits * 31 ∧ y < f64Mag cOne :=
  ⟨f64Mag (0x3FEF000000000000 : F64), by rw [oneUnits_eq]; decide +kernel, by decide +kernel⟩

theorem one_lt_inf : f64Mag cOne < f64InfMag := by decide +kernel

theorem magUnits_one : magUnits 1 = 1 := by decide

theorem large_low : 2 ^ 27 * oneUnits ≤ magUnits (f64Mag tLarge) := by rw [oneUnits_eq]; decide +kernel

theorem large_order : f64Order tLarge = f64Mag tLarge := by decide +kernel

theorem neg_two32 : cNegTwo32 = f64Of true (magOfNat (2 ^ 32)) ∧ f64IsNaN cNegTwo32 = false := by decide +kernel

theorem inf_edge : fmul cNegTwo32 (f64Of true f64InfMag) = 0x7FF0000000000000 := by decide +kernel

/-- `1 - x` for `x` below, at and above one. -/
theorem one_minus {X : ℕ} (hX : X < f64InfMag) (hlow : oneUnits ≤ magUnits X * 32) :
    (magUnits X < oneUnits → ∃ y, fsub cOne (f64Of false X) = f64Of false y ∧ 0 < y ∧ y < f64Mag cOne) ∧
    (magUnits X = oneUnits → fsub cOne (f64Of false X) = 0) ∧
    (oneUnits < magUnits X → ∃ y, fsub cOne (f64Of false X) = f64Of true y ∧ 0 < y ∧ y ≤ f64InfMag) := by
  rw [sub_one hX]
  obtain ⟨y, y1, y2⟩ := near_one
  have y3 : y ≤ f64InfMag := le_trans (le_of_lt y2) (le_of_lt one_lt_inf)
  have m1 := magUnits_one
  have hi1 : 1 ≤ f64InfMag := by decide
  generalize magUnits X = x at *
  generalize f64Mag cOne = o at *
  generalize oneUnits = U at *
  refine ⟨fun h => ?_, fun h => ?_, fun h => ?_⟩
  · rw [decide_eq_false (show ¬ (U : Int) < x by omega), show ((U : Int) - x).natAbs = U - x by omega]
    refine ⟨_, rfl, ?_, ?_⟩
    · exact le_roundMag (mag := 1) Nat.one_pos hi1 (by rw [m1]; omega)
    · exact lt_of_le_of_lt (roundMag_le Nat.one_pos y3 (by omega)) y2
  · subst h
    rw [decide_eq_false (lt_irrefl _), Int.sub_self, Int.natAbs_zero]; decide
  · rw [decide_eq_true (show (U : Int) < x by omega)]
    refine ⟨_, rfl, ?_, roundMag_le_inf _ _⟩
    exact le_roundMag (mag := 1) Nat.one_pos hi1 (by rw [m1]; omega)

/-- The large-range estimate: NaN exactly above `2^32`, infinite at it, else a number and not negative. -/
theorem large_good {ln : F64 → F64} (hs : LnSpec ln) {R : ℕ} (r2 : f64Mag cOne ≤ R) (r3 : R < f64InfMag) (hT : f64Mag tLarge < R) :
    (f64IsNaN (largeEstimate ln (f64Of false R)) = true ↔ magOfNat (2 ^ 32) < R) ∧
    (R = magOfNat (2 ^ 32) → largeEstimate ln (f64Of false R) = 0x7FF0000000000000) ∧
    (f64IsNaN (largeEstimate ln (f64Of false R)) = false → f64Neg (largeEstimate ln (f64Of false R)) = false) := by
  have h33 : 33 * 2 ^ 52 ≤ R := le_trans (by decide) r2
  have hX : R - 32 * 2 ^ 52 < f64InfMag := lt_of_le_of_lt (Nat.sub_le _ _) r3
  have hsc := magUnits_scale h33
  obtain ⟨-, t2, t3, t4⟩ := mag32
  have hll := le_trans large_low (magUnits_le.2 (le_of_lt hT))
  have hlow : oneUnits ≤ magUnits (R - 32 * 2 ^ 52) * 32 := by omega
  obtain ⟨c1, c2, c3⟩ := one_minus hX hlow
  obtain ⟨n1, n2⟩ := neg_two32
  have cmp1 : magUnits (R - 32 * 2 ^ 52) < oneUnits → R < magOfNat (2 ^ 32) := fun h => by
    by_contra hc; have := magUnits_le.2 (Nat.le_of_not_lt hc); omega
  have cmp2 : magUnits (R - 32 * 2 ^ 52) = oneUnits → R = magOfNat (2 ^ 32) := fun h => magUnits_inj (by omega)
  have cmp3 : oneUnits < magUnits (R - 32 * 2 ^ 52) → magOfNat (2 ^ 32) < R := fun h => by
    by_contra hc; have := magUnits_le.2 (Nat.le_of_not_lt hc); omega
  unfold largeEstimate
  rw [div32 r2 r3]
  rcases lt_trichotomy (magUnits (R - 32 * 2 ^ 52)) oneUnits with hx | hx | hx
  · obtain ⟨y, e, y1, y2⟩ := c1 hx
    have hR := cmp1 hx
    have hyi : y < f64InfMag := lt_trans y2 one_lt_inf
    have hp := f64Pos_of y1 hyi
    have hv := hs.below _ hp (by
      rw [fgt_positive one_positive hp, f64Units_of _ hyi]
      exact magUnits_lt y2)
    rw [e, n1]
    obtain ⟨g1, g2⟩ := fmul_good t3 (hs.finite _ hp) (neg_of_value_neg hv)
    refine ⟨⟨fun h => ?_, fun h => ?_⟩, fun h => ?_, fun _ => g2⟩
    · rw [g1] at h; exact absurd h (by decide)
    · omega
    · omega
  · have hR := cmp2 hx
    rw [c2 hx, hs.zero 0 (by decide), inf_edge]
    refine ⟨⟨fun h => absurd h (by decide), fun h => ?_⟩, fun _ => rfl, fun _ => by decide⟩
    omega
  · obtain ⟨y, e, y1, y2⟩ := c3 hx
    have hR := cmp3 hx
    have hyb : y < 2 ^ 63 := lt_of_le_of_lt y2 f64InfMag_lt
    have hN : f64IsNaN (ln (f64Of true y)) = true := by
      refine (hs.neg _ (.inr ⟨f64Neg_of _ hyb, ?_⟩)).1
      unfold f64IsZero; rw [f64Mag_of _ hyb]; exact decide_eq_false (by omega)
    rw [e, fmul_special n2 hN]
    refine ⟨⟨fun _ => hR, fun _ => by decide⟩, fun h => by omega, fun h => absurd h (by decide)⟩

theorem small_order (k : Nat) (h1 : 2 ≤ k) (h2 : k ≤ 16) : f64Order (fmul c25 (f64OfNat (2 ^ k))) ≤ f64Order tLarge := by
  interval_cases k <;> decide +kernel

theorem large_lt : f64Mag tLarge < magOfNat (2 ^ 32) ∧ f64IsNaN tLarge = false ∧ f64IsNaN cTwo32 = false ∧ f64Order cTwo32 = magOfNat (2 ^ 32) := by decide +kernel

theorem small_nn (k : Nat) (h1 : 2 ≤ k) (h2 : k ≤ 16) : f64IsNaN (fmul c25 (f64OfNat (2 ^ k))) = false := by
  interval_cases k <;> decide +kernel

theorem header_card (r : Regime) : responseHeader Opcode.card.code (regimeCode r) .ok = 0x05000000 ||| ((regimeCode r).setWidth 32 <<< 16) := by
  cases r <;> decide

theorem words_of (b : F64) : f64Words b = [b.setWidth 32, (b >>> 32).setWidth 32] := by
  unfold f64Words
  have e1 : b.extractLsb' 0 32 = b.setWidth 32 := by ext i hi; simp
  have e2 : b.extractLsb' 32 32 = (b >>> 32).setWidth 32 := by ext i hi; simp
  rw [e1, e2]

theorem drawn_quiet (n : Nat) : drawnNaN n &&& 0x7FF8000000000000 = 0x7FF8000000000000 := by
  unfold drawnNaN
  generalize Config.freeNaN n = b
  ext i hi
  interval_cases i <;> simp

theorem steps_zero (k : Nat) : indicatorSteps (List.replicate (2 ^ k) 0) = 2 ^ k * 2 ^ 255 := by
  unfold indicatorSteps; rw [List.map_replicate, List.sum_replicate]; rfl

end Sys2Proof.Machine
end

