-- ==== Sys2Proof/Laws/Invariants.lean ====
section
/-! SUPPORT. What a command's rule makes of a state that meets the invariants of 10_state.md R25. -/

namespace Sys2Proof.Machine

theorem invariants_send {s : State} (h : Invariants s) (d : Nat) (f : Frame) : Invariants ({ s with draws := d }.send f) := by
  obtain ⟨a, b, c, d⟩ := h; exact ⟨a, b, c, d⟩

theorem invariants_withPort {s : State} (h : Invariants s) (p : List HostEvent) : Invariants (s.withPort p) := by
  obtain ⟨a, b, c, d⟩ := h; exact ⟨a, b, c, d⟩

/-- The state every command leaves on success meets the invariants, if the one it started from does, whatever the parameters. -/
theorem invariants_okStateWith (p : Params) {n : Nat} {i : Instr} {s : State} (hwf : i.wfWith n = true) (hi : Invariants s)
    (he : commandError i s = .ok) : Invariants (okStateWith p i s) := by
  obtain ⟨h1, h2, h3, h4⟩ := commandError_ok he
  have hi' := hi
  obtain ⟨hc, hb, hp, hr⟩ := hi
  cases i with
  | init k seed =>
    have hk := h2 k seed rfl
    have hk5 : (k.extractLsb' 0 5).toNat = k.toNat := toNat_precision (by omega)
    refine ⟨memZero_wf hc _, fun c h => hb c (memZero_mem h).2, fun _ => ?_, fun _ i hi => ?_⟩
    · show Config.kMin ≤ (k.extractLsb' 0 5).toNat ∧ (k.extractLsb' 0 5).toNat ≤ Config.kMax
      rw [hk5]; unfold Config.kMin Config.kMax; omega
    · have hi2 : i < 2 ^ (k.extractLsb' 0 5).toNat := hi
      show (memRead (memZero _ _) i).toNat ≤ _
      rw [memRead_memZero, if_pos hi2]; decide
  | add d =>
    have hv := h1 rfl
    obtain ⟨p1, p2⟩ := hp hv
    refine ⟨writeIfGreater_wf hc _ _, fun c h => ?_, fun _ => hp hv, fun _ i hi => ?_⟩
    · rcases writeIfGreater_mem h with e | h
      · rw [e]; exact lt_of_lt_of_le (updatePairWith_fst_lt _ s d) (size_le_physical p2)
      · exact hb c h
    · show (memRead (writeIfGreater _ _ _) i).toNat ≤ _
      have hri := hr hv i hi
      rw [memRead_writeIfGreater hc]; split
      · rename_i e; subst e
        rw [byteMax_toNat]
        exact max_le hri (updatePairWith_snd_le _ p1 d)
      · exact hri
  | addv ds =>
    have hv := h1 rfl
    obtain ⟨p1, p2⟩ := hp hv
    refine ⟨arbitrate_wf hc _ _, fun c h => ?_, fun _ => hp hv, fun _ i hi => ?_⟩
    · rcases arbitrateRounds_mem h with ⟨q, hq, e⟩ | h
      · obtain ⟨d, -, rfl⟩ := List.mem_map.1 hq
        rw [e]; exact lt_of_lt_of_le (updatePairWith_fst_lt _ s d) (size_le_physical p2)
      · exact hb c h
    · show (memRead (arbitrate _ _ _) i).toNat ≤ _
      have hri := hr hv i hi
      refine memRead_arbitrate_le hc hri fun q hq => ?_
      obtain ⟨d, -, rfl⟩ := List.mem_map.1 hq
      exact updatePairWith_snd_le _ p1 d
  | merge ok o =>
    have hv := h1 rfl
    obtain ⟨p1, p2⟩ := hp hv
    obtain ⟨e1, e2⟩ := h3 ok o rfl
    simp only [Instr.wfWith, Bool.and_eq_true, decide_eq_true_eq] at hwf
    refine ⟨mergeCells_wf hc _ _, fun c h => ?_, fun _ => hp hv, fun _ i hi => ?_⟩
    · rcases mergeCells_mem h with ⟨-, h⟩ | h
      · rw [hwf.2, Nat.zero_add] at h
        exact lt_of_lt_of_le h (Nat.pow_le_pow_right (by decide) hwf.1.2)
      · exact hb c h
    · show (memRead (mergeCells _ _ _) i).toNat ≤ _
      have hri := hr hv i hi
      rw [memRead_mergeCells hc, if_pos (Nat.zero_le _), byteMax_toNat]
      refine max_le hri ?_
      rw [List.getD_eq_getElem?_getD]
      cases h : o[i - 0]? with
      | none => simp
      | some b =>
        have := List.mem_of_getElem? h
        by_contra hn
        exact e2 ⟨b, this, by unfold Config.rankMax at hn; simpa using hn⟩
  | setreg index rank =>
    have hv := h1 rfl
    obtain ⟨p1, p2⟩ := hp hv
    obtain ⟨e1, e2⟩ := h4 index rank rfl
    refine ⟨memWrite_wf hc _ _, fun c h => ?_, fun _ => hp hv, fun _ i hi => ?_⟩
    · rcases memWrite_mem h with e | h
      · rw [e]
        have := size_le_physical p2
        unfold State.size at this; omega
      · exact hb c h
    · show (memRead (memWrite _ _ _) i).toNat ≤ _
      have hri := hr hv i hi
      rw [memRead_memWrite hc]; split
      · simp only [BitVec.extractLsb'_toNat, Nat.shiftRight_zero]; unfold Config.rankMax; omega
      · exact hri
  | _ => exact hi'

end Sys2Proof.Machine
end

