-- ==== Sys2Proof/Laws/PerInstr.lean ====
section
/-! SUPPORT. A fact about the encoding of every command, one lemma per constructor: its header word has exactly the fixed bits of its row
in spec/opcode_table.json. -/

namespace Sys2Proof.Laws.HeaderMatches

open Sys2Proof

/-- The `mask` and `match` words of the command's row. -/
def row : Instr → Word × Word
  | .init _ _ => (0xFFFE0000, 0x01000000)
  | .add _ => (0xFFFFFFFF, 0x02000000)
  | .addv _ => (0xFFFF0000, 0x03000000)
  | .hash _ _ => (0xFFFEFFFF, 0x04000000)
  | .card => (0xFFFFFFFF, 0x05000000)
  | .merge _ _ => (0xFFFF0000, 0x06000000)
  | .rdregs => (0xFFFFFFFF, 0x07000000)
  | .setreg _ _ => (0xFFFFFFFF, 0x08000000)
  | .getseed => (0xFFFFFFFF, 0x09000000)
  | .getsize => (0xFFFFFFFF, 0x0A000000)

/-- The first word of the command's frame, under the mask of its row, is the row's `match`. -/
def Statement (i : Instr) : Prop := (encode i).headD 0 &&& (row i).1 = (row i).2

/-- An operand field the mask leaves out does not matter. -/
theorem header_and {op : Opcode} {s : Bool} {arg : BitVec 16} {mask want : Word}
    (h : ∀ j, j < 32 → (encodeHeader op s arg &&& mask).getLsbD j = want.getLsbD j) : encodeHeader op s arg &&& mask = want :=
  BitVec.eq_of_getLsbD_eq h

theorem init (k : BitVec 16) (seed : Option Word) : Statement (.init k seed) := by
  refine header_and fun j hj => ?_
  unfold row encodeHeader Opcode.code
  interval_cases j <;> simp

theorem add (data : List Byte) : Statement (.add data) := by
  show encodeHeader .add false 0 &&& 0xFFFFFFFF = 0x02000000
  decide

theorem addv (items : List (List Byte)) : Statement (.addv items) := by
  refine header_and fun j hj => ?_
  unfold row encodeHeader Opcode.code
  interval_cases j <;> simp

theorem hash (seed : Option Word) (data : List Byte) : Statement (.hash seed data) := by
  refine header_and fun j hj => ?_
  unfold row encodeHeader Opcode.code
  interval_cases j <;> simp

theorem card : Statement .card := by unfold Statement; decide

theorem merge (ok : BitVec 16) (operand : List Byte) : Statement (.merge ok operand) := by
  refine header_and fun j hj => ?_
  unfold row encodeHeader Opcode.code
  interval_cases j <;> simp

theorem rdregs : Statement .rdregs := by unfold Statement; decide

theorem setreg (index rank : Word) : Statement (.setreg index rank) := by
  show encodeHeader .setreg false 0 &&& 0xFFFFFFFF = 0x08000000
  decide

theorem getseed : Statement .getseed := by unfold Statement; decide

theorem getsize : Statement .getsize := by unfold Statement; decide

end Sys2Proof.Laws.HeaderMatches
end

