-- ==== Sys2Proof/Machine/Assembler.lean ====
section
/-! DEFINITION. The assembler of 30_encoding.md R75 and R76: one line of text, as a list of characters, to the frames it stands for. It
is the host's tool, not the block's; no step calls it. What R75 leaves open (blanks, digits' case, lines it gives no meaning) is log 14. -/

namespace Sys2Proof.Machine

/-- A token of a line. -/
inductive Token where
  | name (cs : List Char)
  | number (n : Nat)
  | item (data : List Byte)
  | comma
  | opened
  | closed
deriving DecidableEq, Repr

/-- Where in a line the lexer stands; what has been read of a token is kept last character first. -/
inductive LexMode where
  | blank
  | inName (cs : List Char)
  | inText (bs : List Byte)
  | inHex (cs : List Char)
  | inComment
deriving DecidableEq, Repr

/-- The value of a hexadecimal digit. -/
def hexDigit (c : Char) : Option Nat :=
  let n := c.toNat
  if 48 ≤ n ∧ n ≤ 57 then some (n - 48)
  else if 65 ≤ n ∧ n ≤ 70 then some (n - 55)
  else if 97 ≤ n ∧ n ≤ 102 then some (n - 87)
  else none

/-- A digit string in base `base`, continuing from `acc`. -/
def digitsValue (base : Nat) : Nat → List Char → Option Nat
  | acc, [] => some acc
  | acc, c :: cs =>
    match hexDigit c with
    | none => none
    | some d => if d < base then digitsValue base (acc * base + d) cs else none

/-- A number, decimal or `0x` hexadecimal, or a name. -/
def wordToken (cs : List Char) : Option Token :=
  match cs with
  | '0' :: 'x' :: d :: ds => (digitsValue 16 0 (d :: ds)).map Token.number
  | c :: _ =>
    if 48 ≤ c.toNat ∧ c.toNat ≤ 57 then (digitsValue 10 0 cs).map Token.number
    else some (.name cs)
  | [] => none

/-- Pairs of hexadecimal digits as bytes in order. -/
def hexBytes : List Char → Option (List Byte)
  | [] => some []
  | [_] => none
  | a :: b :: cs =>
    match hexDigit a, hexDigit b, hexBytes cs with
    | some x, some y, some bs => some (BitVec.ofNat 8 (16 * x + y) :: bs)
    | _, _, _ => none

/-- One character outside a token, with the tokens so far, last first. -/
def lexBlank (ts : List Token) (c : Char) : LexMode × List Token :=
  if c = ' ' ∨ c = '\t' then (.blank, ts)
  else if c = ';' then (.inComment, ts)
  else if c = ',' then (.blank, .comma :: ts)
  else if c = '[' then (.blank, .opened :: ts)
  else if c = ']' then (.blank, .closed :: ts)
  else if c = '"' then (.inText [], ts)
  else (.inName [c], ts)

/-- One character. -/
def lexStep (m : LexMode) (ts : List Token) (c : Char) : Option (LexMode × List Token) :=
  match m with
  | .blank => some (lexBlank ts c)
  | .inComment => some (.inComment, ts)
  | .inText bs =>
    if c = '"' then some (.blank, .item bs.reverse :: ts)
    else if c.toNat < 128 then some (.inText (BitVec.ofNat 8 c.toNat :: bs), ts)
    else none
  | .inHex cs =>
    if c = '"' then (hexBytes cs.reverse).map fun bs => (.blank, .item bs :: ts)
    else some (.inHex (c :: cs), ts)
  | .inName cs =>
    if c = '"' then (if cs = ['x'] then some (.inHex [], ts) else none)
    else if c = ' ' ∨ c = '\t' ∨ c = ';' ∨ c = ',' ∨ c = '[' ∨ c = ']' then
      (wordToken cs.reverse).map fun t => lexBlank (t :: ts) c
    else some (.inName (c :: cs), ts)

/-- The tokens of a line, in order. -/
def lexFrom : LexMode → List Token → List Char → Option (List Token)
  | .blank, ts, [] => some ts.reverse
  | .inComment, ts, [] => some ts.reverse
  | .inName cs, ts, [] => (wordToken cs.reverse).map fun t => (t :: ts).reverse
  | .inText _, _, [] => none
  | .inHex _, _, [] => none
  | m, ts, c :: cs =>
    match lexStep m ts c with
    | none => none
    | some (m', ts') => lexFrom m' ts' cs

/-- Items separated by commas. -/
def parseItems : List Token → Option (List (List Byte))
  | [.item d] => some [d]
  | .item d :: .comma :: ts => (parseItems ts).map (d :: ·)
  | _ => none

/-- Byte operands `b_i` separated by commas, up to the closing bracket at the end of the line. A number above 255 is no byte: for MERGE
there is no frame for it (R67); for RESTORE too is a DESIGN CHOICE, log 14. -/
def parseBytes : List Token → Option (List Byte)
  | [.number n, .closed] => if n < 2 ^ 8 then some [BitVec.ofNat 8 n] else none
  | .number n :: .comma :: ts => if n < 2 ^ 8 then (parseBytes ts).map (BitVec.ofNat 8 n :: ·) else none
  | _ => none

/-- The mnemonics of R75 and R76 as character lists. -/
def mnemonicChars : Opcode → List Char
  | .init => ['I', 'N', 'I', 'T']
  | .add => ['A', 'D', 'D']
  | .addv => ['A', 'D', 'D', 'V']
  | .hash => ['H', 'A', 'S', 'H']
  | .card => ['C', 'A', 'R', 'D']
  | .merge => ['M', 'E', 'R', 'G', 'E']
  | .rdregs => ['R', 'D', 'R', 'E', 'G', 'S']
  | .setreg => ['S', 'E', 'T', 'R', 'E', 'G']
  | .getseed => ['G', 'E', 'T', 'S', 'E', 'E', 'D']
  | .getsize => ['G', 'E', 'T', 'S', 'I', 'Z', 'E']

def restoreChars : List Char := ['R', 'E', 'S', 'T', 'O', 'R', 'E']
def getkChars : List Char := ['G', 'E', 'T', 'K']

/-- The operands of a command after its mnemonic (R75). A number that does not fit its field has no encoding; the ranges the commands
check themselves are not checked here. A line whose operands no frame of R61 to R67 carries (a MERGE whose list is not `2^ok` bytes
long, or whose `ok` is outside 2 .. 16; an item above MAX_LEN) assembles to nothing: DESIGN CHOICE, log 14. -/
def parseOperands (op : Opcode) (ts : List Token) : Option Instr :=
  Option.filter Instr.wf <|
  match op, ts with
  | .init, [.number k] => if k < 2 ^ 16 then some (.init (BitVec.ofNat 16 k) none) else none
  | .init, [.number k, .comma, .number seed] =>
    if k < 2 ^ 16 ∧ seed < 2 ^ 32 then some (.init (BitVec.ofNat 16 k) (some (BitVec.ofNat 32 seed))) else none
  | .add, [.item d] => some (.add d)
  | .addv, [] => some (.addv [])
  | .addv, ts =>
    match parseItems ts with
    | none => none
    | some ds => some (.addv ds)
  | .hash, [.item d] => some (.hash none d)
  | .hash, [.item d, .comma, .number seed] =>
    if seed < 2 ^ 32 then some (.hash (some (BitVec.ofNat 32 seed)) d) else none
  | .card, [] => some .card
  | .merge, .number ok :: .comma :: .opened :: rest =>
    match parseBytes rest with
    | none => none
    | some o => if ok < 2 ^ 16 then some (.merge (BitVec.ofNat 16 ok) o) else none
  | .rdregs, [] => some .rdregs
  | .setreg, [.number index, .comma, .number rank] =>
    if index < 2 ^ 32 ∧ rank < 2 ^ 32 then some (.setreg (BitVec.ofNat 32 index) (BitVec.ofNat 32 rank)) else none
  | .getseed, [] => some .getseed
  | .getsize, [] => some .getsize
  | _, _ => none

/-- The operands of RESTORE (R76). A list that is not `2^k` bytes long has no form there and assembles to nothing: DESIGN CHOICE, log 14.
So does a list with a `b_i` above 255: `b_i` is read as a byte of a snapshot, although the RANK of the SETREG it expands to is a full word:
DESIGN CHOICE, log 14. -/
def parseRestore : List Token → Option Pseudo
  | .number k :: .comma :: .number seed :: .comma :: .opened :: rest =>
    match parseBytes rest with
    | none => none
    | some cells =>
      if k < 2 ^ 16 ∧ seed < 2 ^ 32 ∧ cells.length = 2 ^ k then some (.restore (BitVec.ofNat 16 k) (BitVec.ofNat 32 seed) cells) else none
  | _ => none

/-- The commands of one line; none for a blank or comment line. -/
def parseLine : List Token → Option (List Instr)
  | [] => some []
  | .name cs :: ts =>
    if cs = restoreChars then (parseRestore ts).map Pseudo.expand
    else if cs = getkChars then (if ts = [] then some (Pseudo.expand .getk) else none)
    else
      match Opcode.all.find? (fun op => mnemonicChars op == cs) with
      | none => none
      | some op => (parseOperands op ts).map fun i => [i]
  | _ => none

/-- The frames of one line of assembler text (R75): exactly the frames of the encoder. -/
def assembleLine (line : List Char) : Option (List Frame) :=
  match lexFrom .blank [] line with
  | none => none
  | some ts => (parseLine ts).map fun is => is.map encode

end Sys2Proof.Machine
end

