-- ==== Sys2Proof/Tests/Slice0.lean ====
section
/-! SUPPORT. The model's own tests. Every expected value is one the spec states: the frame tables of 30_encoding.md and
95_test_vectors.md section 2, the rules R103, R119, R147, R167, R177, R190. After them, for every statement with hypotheses, a state and
operands that meet them. -/

namespace Sys2Proof.Tests

open Sys2Proof Sys2Proof.Machine

/-- The next state of an outcome. -/
def after : Host.Outcome State Fault Refusal → Option State
  | .next s => some s
  | .fault _ => none
  | .refused _ => none

/-- The store with these cells from index 0 on. -/
def storeOf (cells : List Byte) : Memory := (cells.zipIdx.filter fun c => c.1 != 0).map fun c => (c.2, c.1)

/-- A block with a sketch. -/
def sketch (k : BitVec 5) (cells : List Byte) : State := { State.reset with valid := true, k := k, seed := 314, store := storeOf cells }

/-- What a command answers. -/
def answer (i : Instr) (s : State) : Option (List Frame) := (after (exec i s)).map State.responses

/-- The cells a command leaves. -/
def cellsAfter (i : Instr) (s : State) : Option (List Byte) := (after (exec i s)).map snapshot

/-- What a step answers to a frame. -/
def reply (ws : Frame) (s : State) : Option (List Frame) := (after (step (presentFrame s ws))).map State.responses

/-! ## WellFormed: a term each check refuses -/

theorem test_wf_item_too_long (d : List Byte) (h : d.length = 2 ^ 32) :
    (Instr.add d).wf = false ∧ (Instr.addv [[], d]).wf = false ∧ (Instr.hash none d).wf = false := by
  have h' : itemWf Config.maxLen d = false := by rw [itemWf, h]; decide
  refine ⟨h', ?_, h'⟩
  rw [Instr.wf, Instr.wfWith, List.all_cons, List.all_cons, h', Bool.false_and, Bool.and_false, Bool.and_false]
theorem test_wf_addv_too_many (items : List (List Byte)) (h : items.length = 65536) : (Instr.addv items).wf = false := by
  rw [Instr.wf, Instr.wfWith, h]; rfl
theorem test_wf_merge_precision_low : (Instr.merge 1 [0, 0]).wf = false := by decide
theorem test_wf_merge_precision_high (o : List Byte) : (Instr.merge 17 o).wf = false := rfl
theorem test_wf_merge_length : (Instr.merge 2 [0, 0, 0]).wf = false := by decide

/-! ## Decode: the words of the spec (95_test_vectors.md sections 2.1 to 2.7) -/

theorem test_decode_init : decode [0x01010002, 0x00000001] = .ok (.init 2 (some 1)) := by decide
theorem test_decode_add : decode [0x02000000, 0x00000007, 0x6D657469, 0x0030312D] = .ok (.add [0x69, 0x74, 0x65, 0x6D, 0x2D, 0x31, 0x30]) := by
  decide
theorem test_decode_addv : decode [0x03000002, 0x00000003, 0x00636261, 0x00000000] = .ok (.addv [[0x61, 0x62, 0x63], []]) := by decide
theorem test_decode_hash : decode [0x04010000, 0xFFFFFFFF, 0x00000005, 0x64636261, 0x00000065]
    = .ok (.hash (some 0xFFFFFFFF) [0x61, 0x62, 0x63, 0x64, 0x65]) := by decide
theorem test_decode_card : decode [0x05000000] = .ok .card := by decide
theorem test_decode_merge : decode [0x06000002, 0x02000401] = .ok (.merge 2 [1, 4, 0, 2]) := by decide
theorem test_decode_rdregs : decode [0x07000000] = .ok .rdregs := by decide
theorem test_decode_setreg : decode [0x08000000, 0x00000004, 0x00000021] = .ok (.setreg 4 33) := by decide
theorem test_decode_getseed : decode [0x09000000] = .ok .getseed := by decide
theorem test_decode_getsize : decode [0x0A000000] = .ok .getsize := by decide
theorem test_decode_empty : decode [] = .error .illegalFrame := by decide
theorem test_decode_opcode_before_reserved : decode [0xFF020000] = .error .illegalCommand := by decide
theorem test_decode_padding : decode [0x04000000, 0x00000001, 0x00006100] = .error .illegalFrame := by decide
theorem test_decode_trailing : decode [0x02000000, 0x00000000, 0x00000000] = .error .illegalFrame := by decide
theorem test_decode_table_words : Opcode.all.map (fun op => (decodeTableWord 32 (op.code.toNat * 2 ^ 24)).map Instr.opcode)
    = Opcode.all.map fun op => if op = .merge then none else some op := by decide
theorem test_decode_table_merge : decodeTableWord 32 0x06000002 = some (.merge 2 [0, 0, 0, 0]) := by decide

/-! ## INIT (R190) -/

theorem test_init_constructs : (after (exec (.init 4 none) State.reset)).map (fun s => (s.valid, s.k, s.seed, s.responses))
    = some (true, 4, 314, [[0x01000000]]) := by decide
theorem test_init_refused : (after (exec (.init 17 none) (sketch 2 [1, 2, 3, 4]))).map (fun s => (s.k, snapshot s, s.responses))
    = some (2, [1, 2, 3, 4], [[0x01000001]]) := by decide

/-! ## ADD, ADDV (95_test_vectors.md section 2.2) -/

theorem test_add_abc : cellsAfter (.add [0x61, 0x62, 0x63]) (sketch 4 []) = some [0, 0, 0, 0, 0, 0, 0, 0, 0, 0, 2, 0, 0, 0, 0, 0] := by
  decide +kernel
theorem test_add_saturated : cellsAfter (.add [0x07, 0x50, 0x59, 0x50]) (sketch 2 [0, 7, 0, 0]) = some [31, 7, 0, 0] := by decide +kernel
theorem test_addv_items : cellsAfter (.addv [[0x69, 0x74, 0x65, 0x6D, 0x2D, 0x35], [0x69, 0x74, 0x65, 0x6D, 0x2D, 0x37]]) (sketch 4 [])
    = some [0, 0, 0, 0, 0, 0, 0, 0, 0, 0, 4, 0, 0, 0, 0, 0] := by decide +kernel
theorem test_addv_none : cellsAfter (.addv []) (sketch 2 [1, 2, 3, 4]) = some [1, 2, 3, 4] := by decide

/-! ## HASH (R103, 95_test_vectors.md section 2.1) -/

theorem test_hash_abc : answer (.hash none [0x61, 0x62, 0x63]) State.reset = some [[0x04000000, 0xA6BCA283]] := by decide +kernel
theorem test_hash_tail_unsigned : answer (.hash (some 0) [0x80, 0x81, 0x82]) State.reset = some [[0x04000000, 0x7508A955]] := by
  decide +kernel

/-! ## CARD (R147) -/

theorem test_card_linear : answer .card (sketch 2 [1, 0, 2, 0]) = some [[0x05010000, 0xFEFA39EF, 0x40062E42]] := by decide +kernel
theorem test_card_large : answer .card (sketch 4 (List.replicate 16 24)) = some [[0x05030000, 0xFD8643D6, 0x41A60085]] := by decide +kernel

/-! ## MERGE (R167, 95_test_vectors.md section 2.4) -/

theorem test_merge_max : cellsAfter (.merge 2 [1, 4, 0, 2]) (sketch 2 [3, 1, 0, 0]) = some [3, 4, 0, 2] := by decide
theorem test_merge_size_before_range : answer (.merge 3 (List.replicate 8 0xFF)) (sketch 2 [1, 2, 3, 4]) = some [[0x06000002]] := by decide

/-! ## RDREGS, SETREG, GETSEED, GETSIZE (R177, 95_test_vectors.md section 2.5) -/

theorem test_rdregs_packing : answer .rdregs (sketch 2 [1, 0, 2, 32]) = some [[0x07000000, 0x20020001]] := by decide
theorem test_setreg_lowers : cellsAfter (.setreg 2 0) (sketch 2 [1, 2, 3, 4]) = some [1, 2, 0, 4] := by decide
theorem test_setreg_index_before_rank : answer (.setreg 4 33) (sketch 2 [1, 2, 3, 4]) = some [[0x08000003]] := by decide
theorem test_getseed : answer .getseed (sketch 4 []) = some [[0x09000000, 0x0000013A]] := by decide
theorem test_getsize : answer .getsize (sketch 16 []) = some [[0x0A000000, 0x00010000]] := by decide

/-! ## Errors and steps (95_test_vectors.md section 2.7, 70_reset_and_hazards.md R232) -/

theorem test_reply_empty_frame : reply [] (sketch 4 []) = some [[0x00000012]] := by decide
theorem test_reply_no_sketch : reply [0x03000000] State.reset = some [[0x03000010]] := by decide
theorem test_reply_decode_error_first : reply [0x05000001] State.reset = some [[0x05000012]] := by decide
theorem test_step_waits : after (step (sketch 2 [1, 2, 3, 4])) = some (sketch 2 [1, 2, 3, 4]) := by decide
theorem test_word_placed : (after (step (State.reset.withFetchWord 32 0x01000004))).map (fun s => (s.valid, s.k, s.port))
    = some (true, 4, []) := by decide

/-! ## Assembler (R75, R76) -/

theorem test_assemble_hash : assembleLine ['H', 'A', 'S', 'H', ' ', '"', 'a', 'b', 'c', '"', ',', ' ', '3', '1', '4', ' ', ';', 'x']
    = some [[0x04010000, 0x0000013A, 0x00000003, 0x00636261]] := by decide
theorem test_assemble_merge_length : assembleLine ['M', 'E', 'R', 'G', 'E', ' ', '2', ',', '[', '1', ',', '2', ',', '3', ']'] = none ∧
    assembleLine ['M', 'E', 'R', 'G', 'E', ' ', '2', ',', '[', '1', ',', '4', ',', '0', ',', '2', ']']
      = some [[0x06000002, 0x02000401]] := by decide
theorem test_assemble_getk : assembleLine ['G', 'E', 'T', 'K'] = some [[0x0A000000]] := by decide

/-! ## Witnesses: for every statement with hypotheses, what meets them -/

/-- A frame at the port of a block with a sketch of precision 2. -/
def posed (ws : Frame) : State := presentFrame (sketch 2 [3, 1, 0, 0]) ws

theorem witness_DecodeInvertsEncode : (Instr.merge 2 [0, 32, 255, 1]).wf = true ∧ (Instr.addv []).wf = true ∧
    (Instr.hash (some 0xFFFFFFFF) []).wf = true ∧ (Instr.init 0xFFFF none).wf = true := by decide
theorem witness_EncodeInvertsDecode : decode [0x04010000, 0x00000000, 0x00000000] = .ok (.hash (some 0) []) := by decide
theorem witness_IllegalFrameExactlyWhenNoCommandEncodesIt :
    (decode [] = .error .illegalFrame ∧ (posed []).port = [.frame []]) ∧
    (decode [0x01000004, 0x00000000] = .error .illegalFrame ∧ (posed [0x01000004, 0x00000000]).port = [.frame [0x01000004, 0x00000000]]) := by
  decide
theorem witness_UndefinedOpcodeIsIllegalCommand :
    (((0x00FFFFFF : Word) >>> 24).toNat < 1 ∨ 10 < ((0x00FFFFFF : Word) >>> 24).toNat) ∧
    (((0x0B000000 : Word) >>> 24).toNat < 1 ∨ 10 < ((0x0B000000 : Word) >>> 24).toNat) ∧
    (posed [0x0B000000, 1]).port = .frame (0x0B000000 :: [1]) :: [] := by decide
theorem witness_HeaderMistakesAreIllegalFrame_reserved :
    1 ≤ ((0x01020000 : Word) >>> 24).toNat ∧ ((0x0A800000 : Word) >>> 24).toNat ≤ 10 ∧
    (0x01020000 : Word).getLsbD 17 = true ∧ (0x0A800000 : Word).getLsbD 23 = true := by decide
theorem witness_HeaderMistakesAreIllegalFrame_s : (0x02010000 : Word).getLsbD 16 = true ∧ ((0x02010000 : Word) >>> 24).toNat ≠ 1 ∧
    ((0x02010000 : Word) >>> 24).toNat ≠ 4 := by decide
theorem witness_HeaderMistakesAreIllegalFrame_arg : (0x04000001 : Word).toNat % 65536 ≠ 0 ∧ ((0x04000001 : Word) >>> 24).toNat ≠ 1 ∧
    ((0x04000001 : Word) >>> 24).toNat ≠ 3 ∧ ((0x04000001 : Word) >>> 24).toNat ≠ 6 := by decide
theorem witness_HeaderMistakesAreIllegalFrame_merge : ((0x06000001 : Word) >>> 24).toNat = 6 ∧ (0x06000001 : Word).toNat % 65536 < 2 ∧
    ((0x06000011 : Word) >>> 24).toNat = 6 ∧ 16 < (0x06000011 : Word).toNat % 65536 := by decide
theorem witness_DataItemLayout : ([1, 2, 3, 4, 5] : List Byte).length < 2 ^ 32 ∧ 1 < (([1, 2, 3, 4, 5] : List Byte).length + 3) / 4 := by decide
theorem witness_RegisterVectorLayout : 2 ≤ 2 ∧ ([1, 2, 3, 4] : List Byte).length = 2 ^ 2 ∧ 0 < 2 ^ (2 - 2) := by decide
theorem witness_FrameHasTheLengthItsCommandImplies : decode [0x03000001, 0x00000001, 0x00000061] = .ok (.addv [[0x61]]) := by decide
theorem witness_StepRunsTheDecodedCommand : (posed [0x05000000]).port = .frame [0x05000000] :: [] ∧ decode [0x05000000] = .ok .card := by
  decide
theorem witness_StepResetsOrWaits : ((sketch 2 []).withPort [.reset]).port = .reset :: [] ∧ (sketch 2 []).port = [] := by decide
theorem witness_EveryFrameIsAnsweredOnce : (posed []).port = .frame [] :: [] ∧ (posed [0xFFFFFFFF]).port = .frame [0xFFFFFFFF] :: [] := by
  decide
theorem witness_FirstErrorDecidesAndErrorsChangeNothing :
    (posed [0x06000002, 0x21000000]).port = .frame [0x06000002, 0x21000000] :: [] ∧
    firstError [0x06000002, 0x21000000] (posed [0x06000002, 0x21000000]) ≠ .ok ∧
    firstError [0x06000002, 0x20000000] (posed [0x06000002, 0x20000000]) = .ok := by decide
theorem witness_WordPlacedRunsNext : decodeTableWord 32 0x03000002 = some (.addv [[], []]) := by decide
theorem witness_AnswersBeforeConstruction : (presentFrame State.reset [0x01000010]).valid = false ∧
    (presentFrame State.reset [0x01000010]).port = .frame [0x01000010] :: [] ∧
    decode [0x01000010] = .ok (.init 16 none) ∧ decode [0x01000011] = .ok (.init 17 none) ∧ decode [0x01000002] = .ok (.init 2 none) ∧
    decode [0x01000001] = .ok (.init 1 none) ∧ decode [0x04000000, 0] = .ok (.hash none []) ∧ decode [0x0A000000] = .ok .getsize ∧
    decode [0x0A000001] = .error .illegalFrame ∧ decode [0x0B000000] = .error .illegalCommand := by decide

/-- Two blocks with the same sketch and another cell beyond it. -/
theorem witness_UnobservableStateStaysUnobservable : Memory.wf (sketch 2 [3, 1, 0, 0]).store = true ∧
    Memory.wf (sketch 2 [3, 1, 0, 0, 9]).store = true ∧ SameToTheHost (sketch 2 [3, 1, 0, 0]) (sketch 2 [3, 1, 0, 0, 9]) := by
  refine ⟨by decide, by decide, rfl, rfl, rfl, rfl, fun _ => ⟨rfl, rfl, ?_⟩⟩
  decide
theorem witness_NothingLeftByResetIsObserved : (presentFrame State.reset [0x01000002]).valid = false ∧
    Memory.wf (presentFrame State.reset [0x01000002]).store = true ∧ Memory.wf [(0, 9), (65535, 1)] = true := by decide

/-- A sketch that meets the invariants, its cells at both ends of their range. -/
theorem demo_invariants (ws : Frame) : Invariants (presentFrame (sketch 2 [32, 1, 0, 0]) ws) :=
  ⟨(by decide : Memory.wf (sketch 2 [32, 1, 0, 0]).store = true),
   (by decide : ∀ c ∈ (sketch 2 [32, 1, 0, 0]).store, c.1 < Config.physicalCells), fun _ => (by decide : Config.kMin ≤ (2 : BitVec 5).toNat ∧ (2 : BitVec 5).toNat ≤ Config.kMax),
   fun _ => (by decide : ∀ i, i < (sketch 2 [32, 1, 0, 0]).size → (readCell (sketch 2 [32, 1, 0, 0]) i).toNat ≤ Config.rankMax)⟩

theorem witness_EveryStepKeepsTheInvariants : ∃ s, Invariants s ∧ s.valid = true ∧ s.port = [.frame [0x06000002, 0x20202020]] :=
  ⟨_, demo_invariants [0x06000002, 0x20202020], rfl, rfl⟩
theorem witness_EveryResponseIsShaped : ResponsesShaped (posed [0x0A000000]) ∧
    ∃ t, step (posed [0x0A000000]) = .next t ∧ t.responses = [[0x0A000000, 4]] :=
  ⟨fun f hf => absurd hf (by simp [posed, presentFrame, sketch, State.reset, State.withPort]), _, rfl, by decide⟩
theorem witness_CellsNeverDecrease : Memory.wf (sketch 2 [3, 1, 0, 0]).store = true ∧ (Instr.merge 2 [1, 4, 0, 2]).raisesOnly = true ∧
    Instr.rdregs.readsOnly = true ∧ after (exec (.merge 2 [1, 4, 0, 2]) (sketch 2 [3, 1, 0, 0])) ≠ none := by decide
theorem witness_ControlIsWrittenByInitAndResetOnly :
    ((Instr.setreg 0 1).opcode ≠ .init ∧ after (exec (.setreg 0 1) (sketch 2 [])) ≠ none) ∧
    after (exec (.init 16 (some 7)) (sketch 2 [])) ≠ none ∧ after (exec (.init 17 none) (sketch 2 [])) ≠ none ∧
    (after (step ((sketch 2 []).withPort [.reset]))).map State.valid = some false := by decide
theorem witness_NoCellBeyondTheSketchIsWritten : (Instr.init 2 none).wf = true ∧ Memory.wf (sketch 3 [1, 2, 3, 4, 5]).store = true ∧
    (after (exec (.init 2 none) (sketch 3 [1, 2, 3, 4, 5]))).map (fun t => (2 ^ t.k.toNat, readCell t 4)) = some (4, 5) := by decide
theorem witness_ReadingCommandsWriteNothing : (Instr.hash none []).readsOnly = true ∧ Instr.card.readsOnly = true := by decide
theorem witness_NoSketchIsRefused : (Instr.addv []).needsSketch = true ∧ State.reset.valid = false := by decide
theorem witness_InitConstructsOrIsRefused : (2 ≤ (2 : BitVec 16).toNat ∧ (2 : BitVec 16).toNat ≤ 16) ∧
    (2 ≤ (16 : BitVec 16).toNat ∧ (16 : BitVec 16).toNat ≤ 16) ∧ (1 : BitVec 16).toNat < 2 ∧ 16 < (17 : BitVec 16).toNat := by decide
theorem witness_HashSplitsIntoIndexAndTail : hashIndex 2 0xFFFF0000 = 3 ∧ hashIndex 16 0xFFFF0000 = 65535 ∧ hashTail 16 0xFFFF0000 = 0 := by
  decide
theorem witness_RankIsThePlaceOfTheFirstSetBit : hashRank 2 0 = 31 ∧ hashRank 2 1 = 30 ∧ hashRank 16 0x00010000 = 17 ∧
    hashRank 16 0xFFFFFFFF = 1 := by decide
theorem witness_RankByAThirtyTwoBitCounter : 2 ≤ 2 ∧ 2 ≤ 16 ∧ hashRank 16 0x12345678 = 2 := by decide
theorem witness_AddRaisesTheSelectedCell : Memory.wf (sketch 2 [3, 1, 0, 0]).store = true ∧ (sketch 2 [3, 1, 0, 0]).valid = true := by decide
theorem witness_AddIsIdempotentAndCommutes : Memory.wf (sketch 16 [3]).store = true ∧ (sketch 16 [3]).valid = true := by decide
theorem witness_AddvRaisesEverySelectedCell : Memory.wf (sketch 16 []).store = true ∧ (sketch 16 []).valid = true := by decide
theorem witness_AddvEqualsItsAddsInAnyOrder : Memory.wf (sketch 4 [1]).store = true ∧ (sketch 4 [1]).valid = true ∧
    [[0x61], []].Perm ([[], [0x61]] : List (List Byte)) := by decide
theorem witness_ArbiterIsCorrectInAnyGroupingAndOrder : 1 ≤ Config.lanes ∧ 1 ≤ 4 ∧
    [(0, 3), (0, 5)].Perm ([(0, 5), (0, 3)] : List (Nat × Byte)) ∧ Memory.wf [(0, 4)] = true := by decide
theorem witness_CardAnswersTheEstimate : (sketch 2 [1, 0, 2, 0]).valid = true ∧
    f64IsNaN (estimate LN 2 [1, 0, 2, 0]).2 = false ∧ f64IsNaN (estimate LN 2 [31, 31, 31, 31]).2 = true := by decide +kernel
theorem witness_EmptySketchCountsZero : LN cOne = f64Of false 0 ∧ (sketch 2 []).valid = true ∧
    (∀ a, a < 2 ^ (sketch 2 []).k.toNat → readCell (sketch 2 []) a = 0) ∧ 2 ≤ (sketch 2 []).k.toNat ∧ (sketch 2 []).k.toNat ≤ 16 :=
  ⟨LN_one, by decide, by decide, by decide, by decide⟩
theorem witness_TheTwoReadingsOfTheLargeRangeClauseAgree : 2 ≤ 2 ∧ 16 ≤ 16 ∧ (estimate LN 2 [3, 3, 3, 3]).1 = .raw := by decide +kernel
theorem witness_IndicatorSumIsExactForAnyAdderTree : 2 ≤ 16 ∧ ([0, 32, 5, 1] : List Byte).length = 2 ^ 2 ∧
    (∀ r ∈ ([0, 32, 5, 1] : List Byte), r.toNat ≤ 32) ∧
    (AdderTree.sum (.sum (.cell 1) (.cell 0)) (.sum (.cell 5) (.cell 32))).cells.Perm [0, 32, 5, 1] := by decide
theorem witness_EstimateDoesNotDependOnTheOrderOfCells : [3, 1, 0, 0].Perm ([0, 1, 0, 3] : List Byte) := by decide

/-- A logarithm with the six properties of R141, and legal sketches in the regimes of R142. -/
theorem witness_EstimateIsNaNExactlyAboveTheHashSpace : ∃ ln : F64 → F64, LnSpec ln ∧ 2 ≤ 2 ∧
    (∀ r ∈ ([31, 31, 31, 31] : List Byte), r.toNat ≤ 32) ∧ ([31, 31, 31, 31] : List Byte).length = 2 ^ 2 ∧
    fgt (rawEstimate (2 ^ 2) [31, 31, 31, 31]) cTwo32 = true ∧ f64IsNaN (estimate ln 2 [0, 1, 1, 1]).2 = false := by
  have hB : (2 : ℝ) ^ 1074 = oneUnits := by rw [oneUnits_eq, Nat.cast_pow, Nat.cast_ofNat]
  refine ⟨LN, ⟨LN_one, fun _ => LN_finite, fun _ h => ?_, fun _ => LN_above, fun _ => LN_below,
    fun _ _ hx hy h => LN_mono hx hy (mag_le_of_fle hx hy h), fun _ => LN_zero, fun _ h => ?_, by decide +kernel⟩, le_refl 2, by decide,
    by decide, by decide +kernel, by decide +kernel⟩
  · rw [hB]; exact LN_faithful h
  · rw [LN_nan h]; decide
theorem witness_TheDefaultLogarithmAtTheEdges : (0xBFF0000000000000 : F64).msb = true ∧ (0xBFF0000000000000 : F64) ≠ 0x8000000000000000 ∧
    f64IsNaN 0x7FF8000000000000 = true := by decide
theorem witness_MergeIsThePointwiseMaximum : (Instr.merge 2 [32, 0, 0, 33]).wf = true ∧ (Instr.merge 3 (List.replicate 8 32)).wf = true ∧
    Memory.wf (sketch 2 [3, 1, 0, 0]).store = true ∧ State.reset.valid = false ∧ (sketch 2 []).valid = true ∧
    (2 : BitVec 16).toNat = (sketch 2 []).k.toNat ∧ (3 : BitVec 16).toNat ≠ (sketch 2 []).k.toNat ∧
    (∃ b ∈ ([32, 0, 0, 33] : List Byte), 32 < b.toNat) ∧ (∀ b ∈ ([32, 0, 0, 32] : List Byte), b.toNat ≤ 32) := by decide
theorem witness_MergeIsIdempotentAndCommutes : ∃ s, Invariants s ∧ s.valid = true ∧ (2 : BitVec 16).toNat = s.k.toNat ∧
    (∀ x ∈ ([32, 0, 1, 2] : List Byte), x.toNat ≤ 32) := ⟨_, demo_invariants [], rfl, rfl, by decide⟩
theorem witness_RaisingCommandsEndInTheSameStoreInAnyOrder : Memory.wf (sketch 2 [3]).store = true ∧
    (∀ i ∈ [Instr.add [0x61], .merge 2 [1, 4, 0, 2], .addv []], i.raisesOnly = true) ∧
    [Instr.add [0x61], .addv []].Perm [.addv [], .add [0x61]] := by decide
theorem witness_RdregsAnswersTheSnapshot : State.reset.valid = false ∧ (sketch 2 []).valid = true ∧ 2 ≤ (sketch 2 []).k.toNat := by decide
theorem witness_SetregOverwritesOneCellOrIsRefused : Memory.wf (sketch 2 [3]).store = true ∧ State.reset.valid = false ∧
    (sketch 2 [3]).valid = true ∧ 2 ^ (sketch 2 [3]).k.toNat ≤ (4 : Word).toNat ∧ (3 : Word).toNat < 2 ^ (sketch 2 [3]).k.toNat ∧
    32 < (33 : Word).toNat ∧ (32 : Word).toNat ≤ 32 := by decide
theorem witness_RdregsShowsWhatSetregWrote : Memory.wf (sketch 2 [3]).store = true ∧ (sketch 2 [3]).valid = true ∧
    2 ≤ (sketch 2 [3]).k.toNat ∧ (3 : Word).toNat < 2 ^ (sketch 2 [3]).k.toNat ∧ (32 : Word).toNat ≤ 32 := by decide
theorem witness_GetseedAnswersTheSeed : (sketch 2 []).valid = true ∧ State.reset.valid = false := by decide
theorem witness_GetsizeAnswersTheSize : (sketch 16 []).valid = true ∧ State.reset.valid = false := by decide
theorem witness_RestoreRebuildsTheSketch : ∃ s u, Invariants s ∧ s.valid = true ∧ Memory.wf u.store = true ∧ u = sketch 3 [9, 9] :=
  ⟨_, _, demo_invariants [], rfl, by decide, rfl⟩
theorem witness_MergeIntoAFreshSketchRebuildsIt : ∃ s u, Invariants s ∧ s.valid = true ∧ Memory.wf u.store = true ∧ u = State.reset :=
  ⟨_, _, demo_invariants [], rfl, by decide, rfl⟩

/-- A block with other parameters. -/
def other : Params := { defaults with maxLen := 2, lanes := 4 }

theorem witness_DecodeAndEncodeAgreeForEveryMaxLen : other.maxLen < 2 ^ 32 ∧ (Instr.add [0x61, 0x62]).wfWith other.maxLen = true ∧
    decodeWith other.maxLen [0x02000000, 0x00000002, 0x00006261] = .ok (.add [0x61, 0x62]) ∧
    other.maxLen < ([0x61, 0x62, 0x63] : List Byte).length ∧
    decodeWith other.maxLen [0x02000000, 0x00000003, 0x00636261] = .error .illegalFrame := by decide
theorem witness_TheNumberOfLanesIsNotObservable : 1 ≤ other.lanes ∧ 1 ≤ defaults.lanes ∧ Memory.wf (sketch 4 [1]).store = true ∧
    (posed [0x03000002, 0, 0]).port = [.frame [0x03000002, 0, 0]] := by decide

end Sys2Proof.Tests
end

/-! PROOFS of the statements of 00_scope.md. -/

namespace Sys2Proof.Machine

/-! ## The number of lanes -/

/-- Two numbers of lanes leave the same store: each cell ends at the maximum `memRead_arbitrate` gives, which names no lane. -/
theorem arbitrate_lanes_eq {m : Memory} (h : Memory.wf m = true) {lanes lanes' : Nat} (hl : 1 ≤ lanes) (hl' : 1 ≤ lanes')
    (ps : List (Nat × Byte)) : arbitrate lanes ps m = arbitrate lanes' ps m :=
  Memory.ext_of_read (arbitrate_wf h lanes ps) (arbitrate_wf h lanes' ps) fun a => by
    rw [memRead_arbitrate h hl, memRead_arbitrate h hl']

/-- ADDV is the only command that reads `LANES`. -/
theorem execWith_lanes_eq {p : Params} {lanes : Nat} {s : State} (hp : 1 ≤ p.lanes) (hl : 1 ≤ lanes) (h : Memory.wf s.store = true)
    (i : Instr) : execWith { p with lanes := lanes } i s = execWith p i s := by
  cases i with
  | addv items => simp only [execWith, addvWith, arbitrate_lanes_eq h hl hp]
  | _ => rfl

/-! ## Steps of two blocks with one decoder -/

/-- A step depends on the meanings of the commands only at the state whose event has left the port. -/
theorem stepBy_congr {dec : Frame → Except DecodeError Instr} {run run' : Instr → State → Host.Outcome State Fault Refusal} {s : State}
    (h : ∀ i rest, run i (s.withPort rest) = run' i (s.withPort rest)) : stepBy dec run s = stepBy dec run' s := by
  match hport : s.port with
  | [] => rw [stepBy_of_nil hport, stepBy_of_nil hport]
  | .reset :: rest => rw [stepBy_of_reset hport, stepBy_of_reset hport]
  | .frame ws :: rest =>
    cases hd : dec ws with
    | ok i => rw [stepBy_of_command hport hd, stepBy_of_command hport hd, h]
    | error e => rw [stepBy_of_rejected hport hd, stepBy_of_rejected hport hd]

/-! ## The obligations -/

/-- Settles O60: the decoder does not read `LANES`, and no command's meaning depends on it. -/
theorem theNumberOfLanesIsNotObservable : Obligations.TheNumberOfLanesIsNotObservable := by
  intro p lanes s hp hl hwf
  exact stepBy_congr fun i rest => execWith_lanes_eq (s := s.withPort rest) hp hl hwf i

/-- Settles O10: the command case of a step (`step_of_command`). -/
theorem stepRunsTheDecodedCommand : Obligations.StepRunsTheDecodedCommand :=
  fun _ _ _ _ hport hdecode => step_of_command hport hdecode

end Sys2Proof.Machine

/-! PROOFS of the statements of 10_state.md. -/

namespace Sys2Proof

/-! ## What a frame that decodes says of its command -/

/-- The operands taken from a payload are operands a frame can carry. -/
theorem wfWith_of_takeOperands {n : Nat} {op : Opcode} {h : Word} {ws rest : List Word} {i : Instr}
    (he : takeOperands n op h ws = some (i, rest)) : i.wfWith n = true := by
  cases op <;> simp only [takeOperands] at he
  case card | rdregs | getseed | getsize => cases he; rfl
  case init | setreg => split at he <;> cases he; rfl
  case add =>
    split at he <;> cases he
    next hd => exact (takeItem_some hd).1
  case hash =>
    split at he
    · cases he
    · split at he <;> cases he
      next hd => exact (takeItem_some hd).1
  case addv =>
    split at he <;> cases he
    next hds =>
      obtain ⟨hlen, hall, -⟩ := takeItems_some hds
      simp only [Instr.wfWith, Bool.and_eq_true, decide_eq_true_eq]
      exact ⟨hlen ▸ (headerArg h).isLt, hall⟩
  case merge =>
    split at he
    · cases he
    next hk =>
      split at he <;> cases he
      next ho =>
        obtain ⟨hmin, hmax⟩ := not_or.1 hk
        have hlen := (takeVector_some (Nat.le_of_not_lt hmin) ho).1
        simp only [Instr.wfWith, Bool.and_eq_true, decide_eq_true_eq]
        exact ⟨⟨Nat.le_of_not_lt hmin, Nat.le_of_not_lt hmax⟩, hlen⟩

/-- Every command the decoder answers is well-formed, whatever `MAX_LEN`. -/
theorem wfWith_of_decodeWith {n : Nat} {ws : Frame} {i : Instr} (h : decodeWith n ws = .ok i) : i.wfWith n = true := by
  obtain ⟨_, _, _, -, -, -, ht⟩ := decodeWith_ok h
  exact wfWith_of_takeOperands ht

end Sys2Proof

namespace Sys2Proof.Machine

/-! ## The invariants (R25) -/

/-- Without a sketch, and with nothing in the store, the invariants ask for nothing. -/
theorem invariants_of_empty {s : State} (hv : s.valid = false) (hs : s.store = []) : Invariants s where
  canonical := by rw [hs]; rfl
  bounded := by simp [hs]
  precision h := absurd h (by simp [hv])
  range h := absurd h (by simp [hv])

/-- A well-formed command keeps the invariants, with any parameters. -/
theorem execWith_keeps_invariants {p : Params} {n : Nat} {i : Instr} {s t : State} (hwf : i.wfWith n = true) (hs : Invariants s)
    (h : execWith p i s = .next t) : Invariants t := by
  obtain ⟨st, -, rfl⟩ | ⟨hok, info, payload, d, rfl, -⟩ := execWith_cases h
  · exact invariants_send hs s.draws _
  · exact invariants_send (invariants_okStateWith p hwf hs hok) d _

/-- Every step answers a next state and keeps the invariants, with any parameters. -/
theorem stepWith_keeps_invariants (p : Params) {s : State} (hs : Invariants s) : ∃ t, stepWith p s = .next t ∧ Invariants t := by
  match hport : s.port with
  | [] => exact ⟨s, stepBy_of_nil hport, hs⟩
  | .reset :: rest => exact ⟨_, stepBy_of_reset hport, invariants_of_empty rfl rfl⟩
  | .frame ws :: rest =>
    have hrest : Invariants (s.withPort rest) := invariants_withPort hs rest
    cases hd : decodeWith p.maxLen ws with
    | ok i =>
      obtain ⟨t, ht⟩ := execWith_answers p i (s.withPort rest)
      exact ⟨t, (stepBy_of_command hport hd).trans ht, execWith_keeps_invariants (wfWith_of_decodeWith hd) hrest ht⟩
    | error e => exact ⟨_, stepBy_of_rejected hport hd, invariants_send hrest s.draws _⟩

/-! ## The control state (R21, R22, R23) -/

/-- A command other than INIT writes none of `VALID`, `K` and `SEED`. -/
theorem exec_control {i : Instr} {s t : State} (hi : i.opcode ≠ .init) (h : exec i s = .next t) :
    t.valid = s.valid ∧ t.k = s.k ∧ t.seed = s.seed := by
  obtain ⟨st, -, rfl⟩ | ⟨-, info, payload, d, rfl, -⟩ := exec_cases h
  · exact ⟨rfl, rfl, rfl⟩
  · exact okState_control s hi

/-- INIT leaves the control state, or sets it with a legal precision and the seed operand (45_config.md R186, R187). -/
theorem exec_init_control {k : BitVec 16} {seed : Option Word} {s t : State} (h : exec (.init k seed) s = .next t) :
    (t.valid = s.valid ∧ t.k = s.k ∧ t.seed = s.seed) ∨
    (2 ≤ k.toNat ∧ k.toNat ≤ 16 ∧ t.valid = true ∧ t.k.toNat = k.toNat ∧ t.seed = seed.getD 314) := by
  obtain ⟨st, -, rfl⟩ | ⟨hok, info, payload, d, rfl, -⟩ := exec_cases h
  · exact .inl ⟨rfl, rfl, rfl⟩
  · obtain ⟨-, hinit, -, -⟩ := commandError_ok hok
    have hk := hinit k seed rfl
    exact .inr ⟨by omega, by omega, rfl, toNat_precision (by omega), rfl⟩

/-- No command clears `VALID`. -/
theorem exec_keeps_valid {i : Instr} {s t : State} (h : exec i s = .next t) (hv : s.valid = true) : t.valid = true := by
  cases i with
  | init k seed =>
    obtain ⟨hsame, -⟩ | ⟨-, -, hset, -⟩ := exec_init_control h
    · rw [hsame, hv]
    · exact hset
  | _ =>
    obtain ⟨hsame, -⟩ := exec_control (by simp [Instr.opcode]) h
    rw [hsame, hv]

/-- A step that clears `VALID` takes a reset event (R21). -/
theorem port_of_step_clears_valid {s t : State} (h : step s = .next t) (hv : s.valid = true) (ht : t.valid = false) :
    ∃ rest, s.port = .reset :: rest := by
  match hport : s.port with
  | [] => rw [step_of_nil hport] at h; cases h; simp [hv] at ht
  | .reset :: rest => exact ⟨rest, rfl⟩
  | .frame ws :: rest =>
    cases hd : decode ws with
    | ok i =>
      rw [step_of_command hport hd] at h
      simp [exec_keeps_valid h hv] at ht
    | error e =>
      rw [step_of_rejected hport hd, raise_eq] at h; cases h
      simp [hv] at ht

/-! ## The cells (R24, R25) -/

/-- What this block's arbiter does to a cell. -/
theorem memRead_arbitrate_lanes {m : Memory} (h : Memory.wf m = true) (ps : List (Nat × Byte)) (x : Nat) :
    memRead (arbitrate Config.lanes ps m) x = byteMax (memRead m x) (maxAimedAt x ps) :=
  memRead_arbitrate h (by decide) ps x

theorem memRead_overwrite {m : Memory} (h : Memory.wf m = true) (i : Nat) (v : Byte) (x : Nat) :
    memRead (overwrite m i v) x = if x = i then v else memRead m x := memRead_memWrite h i v x

theorem overwrite_wf {m : Memory} (h : Memory.wf m = true) (i : Nat) (v : Byte) : Memory.wf (overwrite m i v) = true := memWrite_wf h i v

/-- The commands that raise cells or only read leave no cell lower. -/
theorem le_readCell_okState {i : Instr} {s : State} (hwf : Memory.wf s.store = true) (hi : i.raisesOnly = true ∨ i.readsOnly = true)
    (a : Nat) : (readCell s a).toNat ≤ (readCell (okState i s) a).toNat := by
  cases i with
  | init k seed => simp [Instr.raisesOnly, Instr.readsOnly] at hi
  | setreg index rank => simp [Instr.raisesOnly, Instr.readsOnly] at hi
  | add d => exact le_memRead_writeIfGreater hwf _ _ a
  | addv ds =>
    rw [okState, readCell_withStore, memRead_arbitrate_lanes hwf, byteMax_toNat]
    exact le_max_left _ _
  | merge ok o =>
    rw [okState, readCell_withStore, memRead_mergeCells hwf, if_pos (Nat.zero_le a), byteMax_toNat]
    exact le_max_left _ _
  | _ => exact le_rfl

/-- A well-formed command writes no cell from the end of the sketch on; INIT's sketch is the one it constructs (45_config.md R189). -/
theorem readCell_okState_beyond {i : Instr} {s : State} (hwf : i.wf = true) (hs : Memory.wf s.store = true)
    (hok : commandError i s = .ok) {a : Nat} (ha : (okState i s).size ≤ a) : readCell (okState i s) a = readCell s a := by
  obtain ⟨-, -, hmerge, hset⟩ := commandError_ok hok
  cases i with
  | init k seed => exact (memRead_memZero _ _ a).trans (if_neg (Nat.not_lt.2 ha))
  | add d =>
    have hlt : (updatePair s d).1 < a := (updatePair_fst_lt s d).trans_le ha
    exact (memRead_writeIfGreater hs _ _ a).trans (if_neg hlt.ne')
  | addv ds =>
    have hnone : ¬ ∃ q ∈ ds.map (updatePair s), q.1 = a := by
      rintro ⟨q, hq, rfl⟩
      obtain ⟨d, -, rfl⟩ := List.mem_map.1 hq
      exact Nat.not_lt.2 ha (updatePair_fst_lt s d)
    rw [okState, readCell_withStore, memRead_arbitrate_lanes hs, maxAimedAt_of_none a hnone, readCell_eq]
    exact byteMax_zero_right _
  | merge ok o =>
    simp only [Instr.wf, Instr.wfWith, Bool.and_eq_true, decide_eq_true_eq] at hwf
    obtain ⟨hk, -⟩ := hmerge ok o rfl
    have hlen : o.length ≤ a := by rw [hwf.2, hk]; exact ha
    rw [okState, readCell_withStore, memRead_mergeCells hs, if_pos (Nat.zero_le a), Nat.sub_zero,
      List.getD_eq_default _ _ hlen, readCell_eq]
    exact byteMax_zero_right _
  | setreg index rank =>
    obtain ⟨hindex, -⟩ := hset index rank rfl
    have hlt : index.toNat < a := (Nat.lt_of_not_le hindex).trans_le ha
    exact (memRead_overwrite hs _ _ a).trans (if_neg hlt.ne')
  | _ => rfl

/-! ## Two blocks that differ in nothing a command can read (R21, R24; 70_reset_and_hazards.md R231) -/

/-- Canonical stores, and nothing a command can read differs. -/
structure Alike (s t : State) : Prop where
  left : Memory.wf s.store = true
  right : Memory.wf t.store = true
  same : SameToTheHost s t

/-- Both outcomes are next states, and these are alike. -/
def OutcomesAlike (o o' : Host.Outcome State Fault Refusal) : Prop := ∃ s t, o = .next s ∧ o' = .next t ∧ Alike s t

namespace Alike

variable {s t : State}

theorem valid_eq (h : Alike s t) : s.valid = t.valid := by
  obtain ⟨-, -, -, hvalid, -⟩ := h.same
  exact hvalid

theorem draws_eq (h : Alike s t) : s.draws = t.draws := by
  obtain ⟨-, -, hdraws, -⟩ := h.same
  exact hdraws

theorem port_eq (h : Alike s t) : s.port = t.port := by
  obtain ⟨hport, -⟩ := h.same
  exact hport

theorem k_eq (h : Alike s t) (hv : s.valid = true) : s.k = t.k := by
  obtain ⟨-, -, -, -, hsketch⟩ := h.same
  exact (hsketch hv).1

theorem seed_eq (h : Alike s t) (hv : s.valid = true) : s.seed = t.seed := by
  obtain ⟨-, -, -, -, hsketch⟩ := h.same
  obtain ⟨-, hseed, -⟩ := hsketch hv
  exact hseed

theorem cell_eq (h : Alike s t) (hv : s.valid = true) {i : Nat} (hi : i < s.size) : readCell s i = readCell t i := by
  obtain ⟨-, -, -, -, hsketch⟩ := h.same
  obtain ⟨-, -, hcells⟩ := hsketch hv
  exact hcells i hi

/-! ### What the updates of the state keep -/

theorem withPort (h : Alike s t) (p : List HostEvent) : Alike (s.withPort p) (t.withPort p) := by
  obtain ⟨hleft, hright, -, hresponses, hrest⟩ := h
  exact ⟨hleft, hright, rfl, hresponses, hrest⟩

theorem send (h : Alike s t) (f : Frame) : Alike (s.send f) (t.send f) := by
  obtain ⟨hleft, hright, hport, hresponses, hrest⟩ := h
  exact ⟨hleft, hright, hport, by rw [State.send_responses, State.send_responses, hresponses], hrest⟩

theorem drawn (h : Alike s t) : Alike s.drawn t.drawn := by
  obtain ⟨hleft, hright, hport, hresponses, hdraws, hrest⟩ := h
  exact ⟨hleft, hright, hport, hresponses, by rw [State.drawn_draws, State.drawn_draws, hdraws], hrest⟩

theorem reset (h : Alike s t) : Alike (takeReset s) (takeReset t) := by
  obtain ⟨-, -, hport, hresponses, hdraws, -⟩ := h
  exact ⟨rfl, rfl, hport, hresponses, hdraws, rfl, fun hv => absurd hv (by simp)⟩

/-- A construction writes everything a command can read. -/
theorem construct (h : Alike s t) (k : BitVec 5) (seed : Word) : Alike (s.construct k seed) (t.construct k seed) := by
  obtain ⟨hleft, hright, hport, hresponses, hdraws, -⟩ := h
  refine ⟨memZero_wf hleft _, memZero_wf hright _, hport, hresponses, hdraws, rfl, fun _ => ⟨rfl, rfl, fun i (hi : i < 2 ^ k.toNat) => ?_⟩⟩
  rw [readCell_eq, readCell_eq, State.construct_store, State.construct_store, zeroInit, zeroInit, memRead_memZero, memRead_memZero,
    if_pos hi, if_pos hi]

/-- Two stores written so that a cell that read the same still does. -/
theorem withStore (h : Alike s t) {m m' : Memory} (hm : Memory.wf m = true) (hm' : Memory.wf m' = true)
    (hread : ∀ a, memRead s.store a = memRead t.store a → memRead m a = memRead m' a) : Alike (s.withStore m) (t.withStore m') := by
  obtain ⟨-, -, hport, hresponses, hdraws, hvalid, hsketch⟩ := h
  refine ⟨hm, hm', hport, hresponses, hdraws, hvalid, fun hv => ?_⟩
  obtain ⟨hk, hseed, hcells⟩ := hsketch hv
  exact ⟨hk, hseed, fun i hi => hread i (hcells i hi)⟩

/-! ### What the commands read is the same -/

theorem snapshot_eq (h : Alike s t) (hv : s.valid = true) : snapshot s = snapshot t :=
  snapshot_congr (by rw [State.size, State.size, h.k_eq hv]) fun _ => h.cell_eq hv

theorem updatePair_eq (h : Alike s t) (hv : s.valid = true) : updatePair s = updatePair t := by
  funext d
  simp only [updatePair, updatePairWith, h.k_eq hv, h.seed_eq hv]

/-- The first error depends on `VALID` and, with a sketch, on the precision (60_exceptions.md R205). -/
theorem commandError_eq (h : Alike s t) (i : Instr) : commandError i s = commandError i t := by
  cases hv : s.valid with
  | true => simp only [commandError, ← h.valid_eq, hv, h.k_eq hv]
  | false =>
    have ht : t.valid = false := h.valid_eq ▸ hv
    cases i with
    | init k seed => rfl
    | hash seed d => rfl
    | _ => rw [commandError_of_noSketch rfl hv, commandError_of_noSketch rfl ht]

/-! ### What the commands answer is the same -/

theorem outcomes_respond (h : Alike s t) (op : Opcode) (info : Byte) (payload : List Word) :
    OutcomesAlike (respond op info payload s) (respond op info payload t) := ⟨_, _, rfl, rfl, h.send _⟩

theorem outcomes_raise (h : Alike s t) (opc : Byte) (st : Status) : OutcomesAlike (raise opc st s) (raise opc st t) :=
  ⟨_, _, rfl, rfl, h.send _⟩

/-- CARD's estimate is a function of the precision and the snapshot, a NaN's bits one of the counter. -/
theorem outcomes_card (h : Alike s t) (hv : s.valid = true) : OutcomesAlike (exec .card s) (exec .card t) := by
  have ht : t.valid = true := h.valid_eq ▸ hv
  cases he : estimate LN s.k.toNat (snapshot s) with
  | mk r e =>
    have he' : estimate LN t.k.toNat (snapshot t) = (r, e) := by rw [← h.k_eq hv, ← h.snapshot_eq hv, he]
    cases hn : f64IsNaN e with
    | false =>
      rw [exec_card_number hv he hn, exec_card_number ht he' hn]
      exact h.outcomes_respond ..
    | true =>
      rw [exec_card_nan hv he hn, exec_card_nan ht he' hn, h.draws_eq]
      exact h.drawn.outcomes_respond ..

/-- A command finds the same error in alike states, or its rule reads the same in both. -/
theorem outcomes_exec (h : Alike s t) (i : Instr) : OutcomesAlike (exec i s) (exec i t) := by
  by_cases hok : commandError i s = .ok
  · obtain ⟨hv, hinit, hmerge, hset⟩ := commandError_ok hok
    obtain ⟨hv', -, hmerge', hset'⟩ := commandError_ok ((h.commandError_eq i).symm.trans hok)
    have hleft := h.left
    have hright := h.right
    cases i with
    | init k seed =>
      rw [exec_init_legal (hinit k seed rfl), exec_init_legal (hinit k seed rfl)]
      exact (h.construct ..).outcomes_respond ..
    | add d =>
      rw [exec_add_ok (hv rfl), exec_add_ok (hv' rfl), h.updatePair_eq (hv rfl)]
      refine (h.withStore (writeIfGreater_wf hleft _ _) (writeIfGreater_wf hright _ _) fun a ha => ?_).outcomes_respond ..
      rw [memRead_writeIfGreater hleft, memRead_writeIfGreater hright]
      split
      next hx => rw [← hx, ha]
      next => exact ha
    | addv ds =>
      rw [exec_addv_ok (hv rfl), exec_addv_ok (hv' rfl), h.updatePair_eq (hv rfl)]
      refine (h.withStore (arbitrate_wf hleft _ _) (arbitrate_wf hright _ _) fun a ha => ?_).outcomes_respond ..
      rw [memRead_arbitrate_lanes hleft, memRead_arbitrate_lanes hright, ha]
    | hash seed d => exact h.outcomes_respond ..
    | card => exact h.outcomes_card (hv rfl)
    | merge ok o =>
      obtain ⟨hk, hbytes⟩ := hmerge ok o rfl
      obtain ⟨hk', -⟩ := hmerge' ok o rfl
      rw [exec_merge_ok (hv rfl) hk hbytes, exec_merge_ok (hv' rfl) hk' hbytes]
      refine (h.withStore (mergeCells_wf hleft _ _) (mergeCells_wf hright _ _) fun a ha => ?_).outcomes_respond ..
      rw [memRead_mergeCells hleft, memRead_mergeCells hright, ha]
    | rdregs =>
      rw [exec_rdregs_ok (hv rfl), exec_rdregs_ok (hv' rfl), h.snapshot_eq (hv rfl)]
      exact h.outcomes_respond ..
    | setreg index rank =>
      obtain ⟨hindex, hrank⟩ := hset index rank rfl
      obtain ⟨hindex', -⟩ := hset' index rank rfl
      rw [exec_setreg_ok (hv rfl) hindex hrank, exec_setreg_ok (hv' rfl) hindex' hrank]
      refine (h.withStore (overwrite_wf hleft _ _) (overwrite_wf hright _ _) fun a ha => ?_).outcomes_respond ..
      rw [memRead_overwrite hleft, memRead_overwrite hright, ha]
    | getseed =>
      rw [exec_getseed_ok (hv rfl), exec_getseed_ok (hv' rfl), h.seed_eq (hv rfl)]
      exact h.outcomes_respond ..
    | getsize =>
      rw [exec_getsize_ok (hv rfl), exec_getsize_ok (hv' rfl), h.k_eq (hv rfl)]
      exact h.outcomes_respond ..
  · rw [exec_of_error hok, exec_of_error (h.commandError_eq i ▸ hok), h.commandError_eq i]
    exact h.outcomes_raise ..

/-- One step keeps two blocks alike. -/
theorem outcomes_step (h : Alike s t) : OutcomesAlike (step s) (step t) := by
  match hport : s.port with
  | [] => exact ⟨s, t, step_of_nil hport, step_of_nil (h.port_eq ▸ hport), h⟩
  | .reset :: rest =>
    exact ⟨_, _, step_of_reset hport, step_of_reset (h.port_eq ▸ hport), (h.withPort rest).reset⟩
  | .frame ws :: rest =>
    have hport' : t.port = .frame ws :: rest := h.port_eq ▸ hport
    cases hd : decode ws with
    | ok i =>
      rw [step_of_command hport hd, step_of_command hport' hd]
      exact (h.withPort rest).outcomes_exec i
    | error e =>
      rw [step_of_rejected hport hd, step_of_rejected hport' hd]
      exact (h.withPort rest).outcomes_raise ..

end Alike

/-! ## The obligations -/

/-- Settles O18: one step keeps two blocks alike (`Alike.outcomes_step`). -/
theorem unobservableStateStaysUnobservable : Obligations.UnobservableStateStaysUnobservable := by
  intro s t hs ht hsame
  obtain ⟨s', t', hstep, hstep', hs', ht', hsame'⟩ := Alike.outcomes_step ⟨hs, ht, hsame⟩
  exact ⟨s', t', hstep, hstep', hsame', hs', ht'⟩

/-- Settles O21: the block's step is the step at its own parameters, and every step keeps the invariants. -/
theorem everyStepKeepsTheInvariants : Obligations.EveryStepKeepsTheInvariants := fun s hs =>
  ⟨step_eq s ▸ stepWith_keeps_invariants defaults hs, fun p => stepWith_keeps_invariants p hs⟩

/-- Settles O23: an error writes no cell, and the success of a raising or reading command lowers none. -/
theorem cellsNeverDecrease : Obligations.CellsNeverDecrease := by
  intro i s t hwf hi h a
  obtain ⟨st, -, rfl⟩ | ⟨-, info, payload, d, rfl, -⟩ := exec_cases h
  · exact le_rfl
  · exact le_readCell_okState hwf hi a

/-- Settles O24: the other commands, INIT, and the step. -/
theorem controlIsWrittenByInitAndResetOnly : Obligations.ControlIsWrittenByInitAndResetOnly :=
  ⟨fun _ _ _ hi h => exec_control hi h, fun _ _ _ _ h => exec_init_control h, fun _ _ h hv ht => port_of_step_clears_valid h hv ht⟩

/-- Settles O25: an error writes no cell, and success none beyond the sketch it leaves. -/
theorem noCellBeyondTheSketchIsWritten : Obligations.NoCellBeyondTheSketchIsWritten := by
  intro i s t hwf hs h a ha
  obtain ⟨st, -, rfl⟩ | ⟨hok, info, payload, d, rfl, -⟩ := exec_cases h
  · rfl
  · exact readCell_okState_beyond hwf hs hok ha

/-- Settles O16: the reset state's fields, and the field `VALID` of the reset event. -/
theorem resetLeavesNoSketch : Obligations.ResetLeavesNoSketch := ⟨rfl, rfl, rfl, takeReset_valid⟩

/-- Settles O20: the reset state has no sketch, an empty store and no response. -/
theorem resetMeetsTheInvariants : Obligations.ResetMeetsTheInvariants :=
  ⟨invariants_of_empty rfl rfl, fun _ hf => absurd hf List.not_mem_nil⟩

/-- Settles O58: the arms of the two dispatchers agree at the default parameters. -/
theorem theBlockIsTheInstanceAtItsParameters : Obligations.TheBlockIsTheInstanceAtItsParameters := ⟨exec_eq, step_eq⟩

end Sys2Proof.Machine

/-! PROOFS of the statements of 20_memory.md. -/

namespace Sys2Proof.Machine

/-! ## The commands that only read (R46) -/

/-- The rule of a reading command writes nothing. -/
theorem okState_of_readsOnly {i : Instr} (hi : i.readsOnly = true) (s : State) : okState i s = s := by
  cases i with
  | hash | card | rdregs | getseed | getsize => rfl
  | init | add | addv | merge | setreg => simp [Instr.readsOnly] at hi

/-! ## The commands that only raise cells (R53) -/

/-- The byte that the rule of a raising command raises cell `a` to; 0, which raises nothing, where the command does not aim at it. -/
def aimedAt (s : State) (a : Nat) : Instr → Byte
  | .add d => maxAimedAt a [updatePair s d]
  | .addv ds => maxAimedAt a (ds.map (updatePair s))
  | .merge _ o => o.getD a 0
  | .init _ _ | .hash _ _ | .card | .rdregs | .setreg _ _ | .getseed | .getsize => 0

/-- The same with the command's checks: a command that is refused raises no cell. -/
def raisedTo (s : State) (a : Nat) (i : Instr) : Byte := if commandError i s = .ok then aimedAt s a i else 0

/-- What a raising command raises a cell to depends on `VALID`, `K` and `SEED` alone, not on what the cells hold. -/
theorem raisedTo_congr {s t : State} (hvalid : t.valid = s.valid) (hk : t.k = s.k) (hseed : t.seed = s.seed) : raisedTo t = raisedTo s := by
  have hpair : updatePair t = updatePair s := by funext d; simp only [updatePair, updatePairWith, hk, hseed]
  funext a i
  have herror : commandError i t = commandError i s := by simp only [commandError, hvalid, hk]
  have haim : aimedAt t a i = aimedAt s a i := by cases i <;> simp only [aimedAt, hpair]
  rw [raisedTo, raisedTo, herror, haim]

theorem opcode_ne_init_of_raisesOnly {i : Instr} (hi : i.raisesOnly = true) : i.opcode ≠ .init := by
  cases i <;> simp [Instr.raisesOnly, Instr.opcode] at hi ⊢

/-- The rule of a raising command keeps the store canonical and takes the maximum in every cell. -/
theorem okState_raises {i : Instr} {s : State} (hi : i.raisesOnly = true) (hs : Memory.wf s.store = true) :
    Memory.wf (okState i s).store = true ∧ ∀ a, readCell (okState i s) a = byteMax (readCell s a) (aimedAt s a i) := by
  cases i with
  | add d => exact ⟨writeIfGreater_wf hs _ _, memRead_foldl_writeIfGreater hs [updatePair s d]⟩
  | addv ds => exact ⟨arbitrate_wf hs _ _, memRead_arbitrate_lanes hs _⟩
  | merge ok o =>
    exact ⟨mergeCells_wf hs _ _, fun a => (memRead_mergeCells hs 0 o a).trans (if_pos (Nat.zero_le a))⟩
  | init | hash | card | rdregs | setreg | getseed | getsize => simp [Instr.raisesOnly] at hi

/-- A raising command, refused or not, keeps the store canonical and takes the maximum in every cell. -/
theorem exec_raises {i : Instr} {s t : State} (hi : i.raisesOnly = true) (hs : Memory.wf s.store = true) (h : exec i s = .next t) :
    Memory.wf t.store = true ∧ ∀ a, readCell t a = byteMax (readCell s a) (raisedTo s a i) := by
  by_cases hok : commandError i s = .ok
  · obtain ⟨info, payload, d, hexec, -⟩ := exec_of_ok hok
    rw [hexec] at h; cases h
    simp only [raisedTo, if_pos hok]
    exact okState_raises hi hs
  · rw [exec_of_error hok, raise_eq] at h; cases h
    simp only [raisedTo, if_neg hok]
    exact ⟨hs, fun a => (byteMax_zero_right _).symm⟩

/-- Raising commands one after another all run, and take in every cell the maximum of what it holds and of what each command, seen from
the first state, raises it to. -/
theorem execAll_raises {cs : List Instr} {s : State} (hcs : ∀ i ∈ cs, i.raisesOnly = true) (hs : Memory.wf s.store = true) :
    ∃ t, execAll cs s = .next t ∧ Memory.wf t.store = true ∧
      ∀ a, readCell t a = cs.foldl (fun b i => byteMax b (raisedTo s a i)) (readCell s a) := by
  induction cs generalizing s with
  | nil => exact ⟨s, rfl, hs, fun _ => rfl⟩
  | cons i cs ih =>
    obtain ⟨hi, hrest⟩ := List.forall_mem_cons.1 hcs
    obtain ⟨u, hu⟩ := exec_answers i s
    obtain ⟨hvalid, hk, hseed⟩ := exec_control (opcode_ne_init_of_raisesOnly hi) hu
    obtain ⟨huwf, hucell⟩ := exec_raises hi hs hu
    obtain ⟨t, ht, htwf, htcell⟩ := ih hrest huwf
    refine ⟨t, (execAll_cons hu).trans ht, htwf, fun a => ?_⟩
    rw [htcell, hucell, raisedTo_congr hvalid hk hseed, List.foldl_cons]

/-- A maximum taken over a list does not depend on the list's order. -/
theorem foldl_byteMax_perm (f : Instr → Byte) {cs ds : List Instr} (h : cs.Perm ds) (b : Byte) :
    cs.foldl (fun b i => byteMax b (f i)) b = ds.foldl (fun b i => byteMax b (f i)) b :=
  h.foldl_eq' (fun i _ j _ c => by rw [byteMax_assoc, byteMax_assoc, byteMax_comm (f i)]) b

/-! ## The obligations -/

/-- Settles O26: an error writes nothing, and neither does a reading command's rule; CARD may advance the counter. -/
theorem readingCommandsWriteNothing : Obligations.ReadingCommandsWriteNothing := by
  intro i s hi
  obtain ⟨t, ht⟩ := exec_answers i s
  obtain ⟨st, -, rfl⟩ | ⟨-, info, payload, d, rfl, -⟩ := exec_cases ht
  · exact ⟨_, _, ht, rfl, rfl, rfl, rfl, rfl, rfl⟩
  · rw [okState_of_readsOnly hi] at ht
    exact ⟨_, _, ht, rfl, rfl, rfl, rfl, rfl, rfl⟩

/-- Settles O50: in both orders every cell ends at the maximum over the same commands (`execAll_raises`), and canonical stores with equal
cells are equal. -/
theorem raisingCommandsEndInTheSameStoreInAnyOrder : Obligations.RaisingCommandsEndInTheSameStoreInAnyOrder := by
  intro cs ds s hs hcs hperm
  obtain ⟨t, ht, htwf, htcell⟩ := execAll_raises hcs hs
  obtain ⟨u, hu, huwf, hucell⟩ := execAll_raises (fun i hi => hcs i (hperm.mem_iff.2 hi)) hs
  refine ⟨t, u, ht, hu, Memory.ext_of_read htwf huwf fun a => ?_⟩
  calc memRead t.store a
      = cs.foldl (fun b i => byteMax b (raisedTo s a i)) (readCell s a) := htcell a
    _ = ds.foldl (fun b i => byteMax b (raisedTo s a i)) (readCell s a) := foldl_byteMax_perm (raisedTo s a) hperm _
    _ = memRead u.store a := (hucell a).symm

end Sys2Proof.Machine

/-! PROOFS of the statements of 30_encoding.md. -/

namespace Sys2Proof

/-! ## Decoding inverts encoding (R71) -/

/-- Decoding reads back what encoding wrote, command by command: the header's fields, then each operand. -/
theorem decodeWith_encode {n : Nat} (hn : n < 2 ^ 32) {i : Instr} (h : i.wfWith n = true) : decodeWith n (encode i) = .ok i := by
  cases i with
  | init k seed =>
    have hseed := takeSeed_encodeSeed seed []
    rw [List.append_nil] at hseed
    exact decodeWith_of_parts (fun _ => rfl) (.inr rfl) (by simp [takeOperands, hseed])
  | add d =>
    have hitem := takeItem_encodeItem hn h []
    rw [List.append_nil] at hitem
    exact decodeWith_of_parts nofun (.inl rfl) (by simp [takeOperands, hitem])
  | addv ds =>
    simp only [Instr.wfWith, Bool.and_eq_true, decide_eq_true_eq] at h
    obtain ⟨hlen, hall⟩ := h
    have hitems := takeItems_encode hn hall []
    rw [List.append_nil] at hitems
    have hcount : (BitVec.ofNat 16 ds.length).toNat = ds.length := by rw [BitVec.toNat_ofNat, Nat.mod_eq_of_lt hlen]
    exact decodeWith_of_parts nofun (.inr rfl) (by simp only [takeOperands, headerArg_encodeHeader, hcount, hitems])
  | hash seed d =>
    have hitem := takeItem_encodeItem hn h []
    rw [List.append_nil] at hitem
    exact decodeWith_of_parts (fun _ => rfl) (.inl rfl) (by simp [takeOperands, takeSeed_encodeSeed, hitem])
  | merge ok o =>
    simp only [Instr.wfWith, Bool.and_eq_true, decide_eq_true_eq] at h
    obtain ⟨⟨hmin, hmax⟩, hlen⟩ := h
    have hvector := takeVector_packBytes hmin hlen []
    rw [List.append_nil] at hvector
    have hlegal : ¬ (ok.toNat < Config.kMin ∨ ok.toNat > Config.kMax) := by omega
    exact decodeWith_of_parts nofun (.inr rfl) (by simp only [takeOperands, headerArg_encodeHeader, if_neg hlegal, hvector])
  | card | rdregs | setreg | getseed | getsize => exact decodeWith_of_parts nofun (.inl rfl) rfl

/-! ## Encoding inverts decoding (R71) -/

theorem headerLegal_iff (op : Opcode) (h : Word) : headerLegal op h = true ↔
    headerRsv h = 0 ∧ (headerS h = true → op.takesSeed = true) ∧ (headerArg h ≠ 0 → op.takesArg = true) := by
  cases hs : headerS h <;> simp [headerLegal, hs, and_assoc, or_iff_not_imp_left]

/-- A legal header is the encoder's of its own `S` and `ARG`. -/
theorem encodeHeader_of_legal {op : Opcode} {h : Word} (ho : op.code = headerOpc h) (hl : headerLegal op h = true) :
    encodeHeader op (headerS h) (headerArg h) = h :=
  encodeHeader_of_fields ho ((headerLegal_iff op h).1 hl).1

theorem headerS_of_legal {op : Opcode} {h : Word} (hl : headerLegal op h = true) (hs : op.takesSeed = false) : headerS h = false := by
  obtain ⟨-, hseed, -⟩ := (headerLegal_iff op h).1 hl
  simpa [hs] using hseed

theorem headerArg_of_legal {op : Opcode} {h : Word} (hl : headerLegal op h = true) (ha : op.takesArg = false) : headerArg h = 0 := by
  obtain ⟨-, -, harg⟩ := (headerLegal_iff op h).1 hl
  simpa [ha] using harg

/-- The same for a command that uses neither field. -/
theorem encodeHeader_of_plain {op : Opcode} {h : Word} (ho : op.code = headerOpc h) (hl : headerLegal op h = true)
    (hs : op.takesSeed = false) (ha : op.takesArg = false) : encodeHeader op false 0 = h := by
  simpa only [headerS_of_legal hl hs, headerArg_of_legal hl ha] using encodeHeader_of_legal ho hl

/-- Encoding writes back the frame whose header is legal and whose payload is exactly the command's operands. -/
theorem encode_of_takeOperands {n : Nat} {op : Opcode} {h : Word} {ws : List Word} {i : Instr} (ho : op.code = headerOpc h)
    (hl : headerLegal op h = true) (he : takeOperands n op h ws = some (i, [])) : encode i = h :: ws := by
  have hheader := encodeHeader_of_legal ho hl
  cases op <;> simp only [takeOperands] at he
  case card | rdregs | getseed | getsize =>
    cases he
    rw [encode, encodeHeader_of_plain ho hl rfl rfl]
  case setreg =>
    split at he <;> cases he
    rw [encode, encodeHeader_of_plain ho hl rfl rfl]
  case init =>
    split at he <;> cases he
    next hseed =>
      obtain ⟨hsome, rfl⟩ := takeSeed_some hseed
      rw [encode, hsome, hheader, List.append_nil]
  case add =>
    split at he <;> cases he
    next hitem =>
      obtain ⟨-, rfl⟩ := takeItem_some hitem
      rw [encode, encodeHeader_of_plain ho hl rfl rfl, List.append_nil]
  case addv =>
    split at he <;> cases he
    next hitems =>
      obtain ⟨hlen, -, rfl⟩ := takeItems_some hitems
      rw [headerS_of_legal hl rfl] at hheader
      rw [encode, hlen, BitVec.ofNat_toNat, BitVec.setWidth_eq, hheader, List.append_nil]
  case hash =>
    split at he
    · cases he
    next hseed =>
      split at he <;> cases he
      next hitem =>
        obtain ⟨hsome, rfl⟩ := takeSeed_some hseed
        obtain ⟨-, rfl⟩ := takeItem_some hitem
        rw [headerArg_of_legal hl rfl] at hheader
        rw [encode, hsome, hheader, List.append_nil]
  case merge =>
    split at he
    · cases he
    next hk =>
      split at he <;> cases he
      next hvector =>
        obtain ⟨-, rfl⟩ := takeVector_some (Nat.le_of_not_lt (not_or.1 hk).1) hvector
        rw [headerS_of_legal hl rfl] at hheader
        rw [encode, hheader, List.append_nil]

/-- The encoding is canonical: a frame that decodes is the encoding of what it decodes to, whatever `MAX_LEN`. -/
theorem encode_of_decodeWith {n : Nat} {ws : Frame} {i : Instr} (h : decodeWith n ws = .ok i) : encode i = ws := by
  obtain ⟨hd, payload, op, rfl, hop, hl, ht⟩ := decodeWith_ok h
  exact encode_of_takeOperands (code_of_ofCode hop) hl ht

/-! ## Frames that are no command (R72) -/

/-- An illegal header is `IllegalFrame`, whatever follows it. -/
theorem decodeWith_of_illegal_header {n : Nat} {op : Opcode} {h : Word} {ws : List Word} (hop : Opcode.ofCode (headerOpc h) = some op)
    (hl : ¬ headerLegal op h = true) : decodeWith n (h :: ws) = .error .illegalFrame := by
  simp only [decodeWith, hop, if_neg hl]

/-- A payload without the command's operands is `IllegalFrame`, whatever the rest of the header. -/
theorem decodeWith_of_no_operands {n : Nat} {op : Opcode} {h : Word} {ws : List Word} (hop : Opcode.ofCode (headerOpc h) = some op)
    (ht : takeOperands n op h ws = none) : decodeWith n (h :: ws) = .error .illegalFrame := by
  simp only [decodeWith, hop, ht, ite_self]

/-- An item longer than `MAX_LEN` is refused at its length word. -/
theorem takeItem_of_longer {n : Nat} {d : List Byte} (hn : n < d.length) (hd : d.length < 2 ^ 32) :
    takeItem n (encodeItem d) = none := by
  have hlen : (BitVec.ofNat 32 d.length).toNat = d.length := by rw [BitVec.toNat_ofNat, Nat.mod_eq_of_lt hd]
  rw [encodeItem, takeItem, hlen, if_pos hn]

theorem decodeWith_add_longer {n : Nat} {d : List Byte} (hn : n < d.length) (hd : d.length < 2 ^ 32) :
    decodeWith n (encode (.add d)) = .error .illegalFrame :=
  decodeWith_of_no_operands (op := .add) (by simp) (by simp only [takeOperands, takeItem_of_longer hn hd])

theorem decodeWith_hash_longer {n : Nat} (seed : Option Word) {d : List Byte} (hn : n < d.length) (hd : d.length < 2 ^ 32) :
    decodeWith n (encode (.hash seed d)) = .error .illegalFrame :=
  decodeWith_of_no_operands (op := .hash) (by simp)
    (by simp only [takeOperands, headerS_encodeHeader, takeSeed_encodeSeed, takeItem_of_longer hn hd])

/-! ## The header's fields as numbers (R61) -/

theorem headerArg_toNat (h : Word) : (headerArg h).toNat = h.toNat % 65536 := by
  simp [headerArg, BitVec.extractLsb'_toNat]

theorem headerRsv_ne_zero {h : Word} {j : Nat} (hmin : 17 ≤ j) (hmax : j ≤ 23) (hj : h.getLsbD j = true) : headerRsv h ≠ 0 := by
  intro hzero
  have hbit : (headerRsv h).getLsbD (j - 17) = h.getLsbD j := by
    rw [headerRsv, BitVec.getLsbD_extractLsb', decide_eq_true (by omega), Bool.true_and, Nat.add_sub_cancel' hmin]
  simp [hzero, hj] at hbit

theorem takesSeed_iff (op : Opcode) : op.takesSeed = true ↔ op.code.toNat = 1 ∨ op.code.toNat = 4 := by cases op <;> decide

theorem takesArg_iff (op : Opcode) : op.takesArg = true ↔ op.code.toNat = 1 ∨ op.code.toNat = 3 ∨ op.code.toNat = 6 := by
  cases op <;> decide

/-- No two commands share an opcode (R62). -/
theorem code_injective : Function.Injective Opcode.code := fun op op' h => by
  have hsome : some op = some op' := by rw [← ofCode_code op, h, ofCode_code op']
  exact Option.some.inj hsome

/-- A header whose opcode byte is a defined number names a command with that code (R62). -/
theorem exists_opcode {h : Word} (hmin : 1 ≤ (h >>> 24).toNat) (hmax : (h >>> 24).toNat ≤ 10) :
    ∃ op, Opcode.ofCode (headerOpc h) = some op ∧ op.code.toNat = (h >>> 24).toNat := by
  have hdefined : Opcode.ofCode (headerOpc h) ≠ none := by
    rw [Ne, ofCode_eq_none_iff, headerOpc_toNat]
    omega
  obtain ⟨op, hop⟩ := Option.ne_none_iff_exists'.1 hdefined
  exact ⟨op, hop, by rw [code_of_ofCode hop, headerOpc_toNat]⟩

/-- A MERGE whose `ARG` is no legal precision has no operands. -/
theorem takeOperands_merge_illegal {n : Nat} {h : Word} (ws : List Word) (hk : h.toNat % 65536 < 2 ∨ 16 < h.toNat % 65536) :
    takeOperands n .merge h ws = none := by
  have hk' : (headerArg h).toNat < Config.kMin ∨ (headerArg h).toNat > Config.kMax := by rw [headerArg_toNat]; exact hk
  simp only [takeOperands, if_pos hk']

/-! ## Lengths (R73) -/

theorem length_encodeSeed (seed : Option Word) : (encodeSeed seed).length = if seed.isSome then 1 else 0 := by cases seed <;> rfl

/-- A register vector of precision `p` is `2^(p-2)` words (R67). -/
theorem length_packBytes_vector {p : Nat} {o : List Byte} (hp : 2 ≤ p) (h : o.length = 2 ^ p) : (packBytes o).length = 2 ^ (p - 2) := by
  have := pow_sub_two hp
  rw [length_packBytes, h]
  omega

theorem length_encode {n : Nat} {i : Instr} (h : i.wfWith n = true) : (encode i).length = Machine.frameLength i := by
  cases i with
  | init k seed => rw [encode, List.length_cons, length_encodeSeed, Nat.add_comm]; rfl
  | add d => rw [encode, List.length_cons, length_encodeItem, Machine.frameLength]; omega
  | addv ds =>
    simp only [encode, List.length_cons, List.length_flatMap, length_encodeItem, Machine.frameLength]
    omega
  | hash seed d =>
    rw [encode, List.length_cons, List.length_append, length_encodeSeed, length_encodeItem, Machine.frameLength]
    omega
  | merge ok o =>
    simp only [Instr.wfWith, Bool.and_eq_true, decide_eq_true_eq] at h
    obtain ⟨⟨hmin, -⟩, hlen⟩ := h
    rw [encode, List.length_cons, length_packBytes_vector hmin hlen, Nat.add_comm]; rfl
  | card | rdregs | setreg | getseed | getsize => rfl

end Sys2Proof

namespace Sys2Proof.Machine

/-! ## The shape of a response (R68, R70) -/

/-- An error response has the shape, whatever opcode it echoes. -/
theorem responseShaped_error {opc : Byte} {st : Status} (h : st ≠ .ok) : ResponseShaped [responseHeader opc 0 st] :=
  ⟨opc, 0, st, [], rfl, by decide, fun _ hok => absurd hok h, fun _ => rfl, fun _ => ⟨rfl, rfl⟩⟩

theorem eq_card_of_opcode {i : Instr} (h : i.opcode = .card) : i = .card := by
  cases i with
  | card => rfl
  | _ => cases h

theorem responsesShaped_send {s : State} {f : Frame} (hs : ResponsesShaped s) (hf : ResponseShaped f) : ResponsesShaped (s.send f) := by
  intro g hg
  rcases List.mem_append.1 hg with hold | hnew
  · exact hs g hold
  · exact List.mem_singleton.1 hnew ▸ hf

/-- A command keeps the shape: it sends the error response of its first error, or an OK response whose `INFO` is CARD's. -/
theorem responsesShaped_exec {i : Instr} {s t : State} (hs : ResponsesShaped s) (h : exec i s = .next t) : ResponsesShaped t := by
  obtain ⟨st, hst, rfl⟩ | ⟨-, info, payload, d, rfl, hmax, hcard, hother⟩ := exec_cases h
  · exact responsesShaped_send hs (responseShaped_error hst)
  · have hs' : ResponsesShaped { okState i s with draws := d } := by
      rw [ResponsesShaped, (okState_streams i s).2]; exact hs
    have hinfo : i.opcode.code ≠ Opcode.card.code → info = 0 := fun hne =>
      (hother fun hi => hne (congrArg (fun j : Instr => j.opcode.code) hi)).1
    exact responsesShaped_send hs'
      ⟨_, info, .ok, payload, rfl, hmax, fun hc _ => hcard (eq_card_of_opcode (code_injective hc)), hinfo, fun hne => absurd rfl hne⟩

theorem decodeStatus_ne_ok (e : DecodeError) : decodeStatus e ≠ .ok := by cases e <;> decide

/-! ## The opcode table's word (log 8, log 12) -/

theorem decode_of_decodeTableWord {nbits w : Nat} {i : Instr} (h : decodeTableWord nbits w = some i) :
    decode (tableFrame nbits w) = .ok i := by
  rw [decodeTableWord] at h
  split at h
  next hd => rw [hd, Option.some.inj h]
  next => cases h

/-! ## The obligations -/

/-- Settles O2: `decodeWith_encode` at this block's `MAX_LEN`. -/
theorem decodeInvertsEncode : Obligations.DecodeInvertsEncode := fun _ h => decodeWith_encode maxLen_lt h

/-- Settles O3: what decodes is well-formed, and its encoding is the frame it was read from. -/
theorem encodeInvertsDecode : Obligations.EncodeInvertsDecode := fun _ _ h => ⟨wfWith_of_decodeWith h, encode_of_decodeWith h⟩

/-- Settles O59: both round trips hold at every `MAX_LEN`, and a longer item is refused at its length word. -/
theorem decodeAndEncodeAgreeForEveryMaxLen : Obligations.DecodeAndEncodeAgreeForEveryMaxLen := fun _ hn =>
  ⟨fun _ h => decodeWith_encode hn h, fun _ _ h => ⟨wfWith_of_decodeWith h, encode_of_decodeWith h⟩,
    fun _ seed hlong hd => ⟨decodeWith_add_longer hlong hd, decodeWith_hash_longer seed hlong hd⟩⟩

/-- Settles O6: three mistakes make the header illegal, the fourth leaves MERGE without operands. -/
theorem headerMistakesAreIllegalFrame : Obligations.HeaderMistakesAreIllegalFrame := by
  intro h rest hmin hmax
  obtain ⟨op, hop, hcode⟩ := exists_opcode hmin hmax
  rw [← hcode]
  refine ⟨?reserved, ?seed, ?arg, ?merge⟩
  case reserved =>
    rintro ⟨j, hj17, hj23, hbit⟩
    refine decodeWith_of_illegal_header hop fun hl => ?_
    obtain ⟨hrsv, -, -⟩ := (headerLegal_iff op h).1 hl
    exact headerRsv_ne_zero hj17 hj23 hbit hrsv
  case seed =>
    intro hs hinit hhash
    refine decodeWith_of_illegal_header hop fun hl => ?_
    obtain ⟨-, hseed, -⟩ := (headerLegal_iff op h).1 hl
    exact ((takesSeed_iff op).1 (hseed hs)).elim hinit hhash
  case arg =>
    intro harg hinit haddv hmerge
    refine decodeWith_of_illegal_header hop fun hl => ?_
    obtain ⟨-, -, hused⟩ := (headerLegal_iff op h).1 hl
    have hne : headerArg h ≠ 0 := fun hzero => harg (by rw [← headerArg_toNat, hzero]; rfl)
    obtain h1 | h3 | h6 := (takesArg_iff op).1 (hused hne)
    · exact hinit h1
    · exact haddv h3
    · exact hmerge h6
  case merge =>
    intro h6 hk
    obtain rfl : op = .merge := code_injective (BitVec.eq_of_toNat_eq h6)
    exact decodeWith_of_no_operands hop (takeOperands_merge_illegal rest hk)

/-- Settles O7: the length word is not truncated, and the packing puts four bytes in a word (`getD_packBytes`). -/
theorem dataItemLayout : Obligations.DataItemLayout := by
  intro data hd
  refine ⟨length_encodeItem data, ?_, fun j _ => ?_⟩
  · rw [encodeItem, List.getD_cons_zero, BitVec.toNat_ofNat, Nat.mod_eq_of_lt hd]
  · rw [encodeItem, Nat.add_comm, List.getD_cons_succ, getD_packBytes]

/-- Settles O8: the packing of a whole number of words. -/
theorem registerVectorLayout : Obligations.RegisterVectorLayout := by
  intro p cells hp hlen
  have hwhole : cells.length % 4 = 0 := by rw [hlen, ← pow_sub_two hp, Nat.mul_mod_right]
  exact ⟨length_packBytes_vector hp hlen, fun j _ => getD_packBytes cells j, unpackWords_packBytes_whole hwhole⟩

/-- Settles O9: the frame is the encoding of its command, whose length is `length_encode`. -/
theorem frameHasTheLengthItsCommandImplies : Obligations.FrameHasTheLengthItsCommandImplies := by
  intro ws i h
  rw [← encode_of_decodeWith h]
  exact length_encode (wfWith_of_decodeWith h)

/-- Settles O22: a step sends nothing, or what a command sends, or the error response of a frame that is no command. -/
theorem everyResponseIsShaped : Obligations.EveryResponseIsShaped := by
  intro s t hs h
  match hport : s.port with
  | [] => rw [step_of_nil hport] at h; cases h; exact hs
  | .reset :: rest => rw [step_of_reset hport] at h; cases h; exact hs
  | .frame ws :: rest =>
    have hrest : ResponsesShaped (s.withPort rest) := hs
    cases hd : decode ws with
    | ok i =>
      rw [step_of_command hport hd] at h
      exact responsesShaped_exec hrest h
    | error e =>
      rw [step_of_rejected hport hd, raise_eq] at h; cases h
      exact responsesShaped_send hrest (responseShaped_error (decodeStatus_ne_ok e))

/-- Settles O1: thirteen closed frames, decoded. -/
theorem wordsOfTheSpecDecode : Obligations.WordsOfTheSpecDecode := by
  unfold Obligations.WordsOfTheSpecDecode
  decide

/-- Settles O15: the placed frame is the next event, and when it has left the port the state is as before. -/
theorem wordPlacedRunsNext : Obligations.WordPlacedRunsNext := fun s _ _ _ h =>
  step_of_command (s := s.withFetchWord _ _) (rest := s.port) rfl (decode_of_decodeTableWord h)

end Sys2Proof.Machine

/-! PROOFS of the statements of 40_hash.md. -/

namespace Sys2Proof.Machine

/-! ## The program's three phases (R91) -/

/-- The body of the program of R97: the whole blocks, in rising order. -/
def programBody (p : HashParams) (data : List Byte) (h : Word) : Word :=
  (List.range (data.length / 4)).foldl (murmurLoop p data) h

/-- The value `t` of the program of R97 before its scramble. -/
def programTailWord (data : List Byte) : Word :=
  let o := 4 * (data.length / 4)
  let r := data.length - o
  let t : Word := 0
  let t := if r = 3 then t ^^^ ((data.getD (o + 2) 0).setWidth 32 <<< 16) else t
  let t := if 2 ≤ r then t ^^^ ((data.getD (o + 1) 0).setWidth 32 <<< 8) else t
  t ^^^ (data.getD o 0).setWidth 32

/-- The hash tail of the program of R97. -/
def programTail (p : HashParams) (data : List Byte) (h : Word) : Word :=
  if 1 ≤ data.length - 4 * (data.length / 4) then h ^^^ scramble p (programTailWord data) else h

/-- The program is its body, its tail, the length and the avalanche. -/
theorem murmurProgram_eq (p : HashParams) (data : List Byte) (seed : Word) :
    murmurProgram p data seed =
      avalanche p (programTail p data (programBody p data seed) ^^^ BitVec.ofNat 32 data.length) := rfl

/-! ## A block in front of the data -/

section Block
variable (p : HashParams) (a b c d : Byte) (rest : List Byte) (h : Word)

theorem length_block : (a :: b :: c :: d :: rest).length = rest.length + 4 := rfl

theorem murmurLoop_block_zero : murmurLoop p (a :: b :: c :: d :: rest) h 0 = mixBlock p h (le32 a b c d) := rfl

theorem murmurLoop_block_succ (i : Nat) :
    murmurLoop p (a :: b :: c :: d :: rest) h (i + 1) = murmurLoop p rest h i := rfl

/-- The loop mixes the first block in, then it runs as on the rest. -/
theorem programBody_block :
    programBody p (a :: b :: c :: d :: rest) h = programBody p rest (mixBlock p h (le32 a b c d)) := by
  have hblocks : (rest.length + 4) / 4 = rest.length / 4 + 1 := by omega
  simp only [programBody, length_block, hblocks, List.range_succ_eq_map, List.foldl_cons, List.foldl_map,
    murmurLoop_block_zero, murmurLoop_block_succ]

/-- The tail does not see the first block: it starts four bytes later, and as many bytes are left. -/
theorem programTail_block : programTail p (a :: b :: c :: d :: rest) h = programTail p rest h := by
  have hstart : 4 * ((rest.length + 4) / 4) = 4 * (rest.length / 4) + 4 := by omega
  simp only [programTail, programTailWord, length_block, hstart, Nat.add_sub_add_right]
  rfl

end Block

/-- The tail's bytes lie in different bits, so the program's xors build the model's little-endian number (R95). -/
theorem le32_eq_xor (a b c : Byte) :
    le32 a b c 0#8 = (c.setWidth 32 <<< 16) ^^^ (b.setWidth 32 <<< 8) ^^^ a.setWidth 32 := by
  unfold le32; ext i hi; interval_cases i <;> simp

/-- The recursion on the bytes computes what the program's loop and tail compute. -/
theorem mixData_eq_program (p : HashParams) (data : List Byte) (h : Word) :
    mixData p h data = programTail p data (programBody p data h) := by
  induction h, data using mixData.induct p with
  | case1 h => rfl
  | case2 h a => simp [mixData, programTail, programTailWord, programBody, tailWord, le32_eq_xor]
  | case3 h a b => simp [mixData, programTail, programTailWord, programBody, tailWord, le32_eq_xor]
  | case4 h a b c => simp [mixData, programTail, programTailWord, programBody, tailWord, le32_eq_xor]
  | case5 h a b c d rest ih => rw [mixData, ih, programBody_block, programTail_block]

/-! ## The steps of the hash are invertible (R99) -/

/-- A word that equals its own right shift is zero. -/
theorem eq_zero_of_ushiftRight_eq {s : Nat} (hs : s ≠ 0) {z : Word} (hz : z >>> s = z) : z = 0 := by
  by_contra hne
  have hpos : 0 < z.toNat := Nat.pos_of_ne_zero fun h0 => hne (BitVec.eq_of_toNat_eq h0)
  have hlt : z.toNat / 2 ^ s < z.toNat := Nat.div_lt_self hpos (Nat.one_lt_two_pow hs)
  have heq : z.toNat / 2 ^ s = z.toNat := by rw [← Nat.shiftRight_eq_div_pow, ← BitVec.toNat_ushiftRight, hz]
  omega

/-- `h ^ (h >> s)`: two words with one image differ in a word that equals its own shift. -/
theorem xorShift_injective {s : Nat} (hs : s ≠ 0) : Function.Injective fun h : Word => h ^^^ h >>> s := by
  intro x y hxy
  have hzero : (x ^^^ y) ^^^ (x ^^^ y) >>> s = 0 := by
    calc (x ^^^ y) ^^^ (x ^^^ y) >>> s
      _ = (x ^^^ x >>> s) ^^^ (y ^^^ y >>> s) := by rw [BitVec.ushiftRight_xor_distrib]; ac_rfl
      _ = 0 := BitVec.xor_eq_zero_iff.2 hxy
  exact BitVec.xor_eq_zero_iff.1 (eq_zero_of_ushiftRight_eq hs (BitVec.xor_eq_zero_iff.1 hzero).symm)

/-- Multiplication by an odd word. -/
theorem mul_injective {c : Word} (hc : Odd c.toNat) : Function.Injective fun h : Word => h * c := by
  intro x y hxy
  have hmod : x.toNat * c.toNat ≡ y.toNat * c.toNat [MOD 2 ^ 32] := by
    simpa [Nat.ModEq] using congrArg BitVec.toNat hxy
  have hcoprime : Nat.Coprime (2 ^ 32) c.toNat := (Nat.coprime_two_left.2 hc).pow_left 32
  exact BitVec.eq_of_toNat_eq ((Nat.ModEq.cancel_right_of_coprime hcoprime hmod).eq_of_lt_of_lt x.isLt y.isLt)

/-- Where a rotation puts bit `i`. -/
theorem getLsbD_rotl32 (x : Word) {r i : Nat} (hr : r ≤ 32) (hi : i < 32) :
    (rotl32 x r).getLsbD ((i + r) % 32) = x.getLsbD i := by
  rw [rotl32, BitVec.getLsbD_or, BitVec.getLsbD_shiftLeft, BitVec.getLsbD_ushiftRight]
  obtain hlt | hge := Nat.lt_or_ge (i + r) 32
  · have hout : x.getLsbD (32 - r + (i + r)) = false := BitVec.getLsbD_of_ge _ _ (by omega)
    simp [Nat.mod_eq_of_lt hlt, hlt, hout]
  · have hmod : (i + r) % 32 = i + r - 32 := by omega
    have hlow : i + r - 32 < r := by omega
    have hback : 32 - r + (i + r - 32) = i := by omega
    simp [hmod, hlow, hback]

theorem rotl32_injective {r : Nat} (hr : r ≤ 32) : Function.Injective fun h : Word => rotl32 h r := by
  intro x y hxy
  refine BitVec.eq_of_getLsbD_eq fun i hi => ?_
  rw [← getLsbD_rotl32 x hr hi, ← getLsbD_rotl32 y hr hi]
  exact congrArg (fun w : Word => w.getLsbD ((i + r) % 32)) hxy

theorem scramble_injective : Function.Injective (scramble Config.hash) :=
  (mul_injective (by decide)).comp ((rotl32_injective (r := 15) (by decide)).comp (mul_injective (by decide)))

theorem mixBlock_injective (h : Word) : Function.Injective (mixBlock Config.hash h) :=
  (add_left_injective _).comp <| (mul_injective (by decide)).comp <|
    (rotl32_injective (r := 13) (by decide)).comp fun _ _ hxy => scramble_injective ((BitVec.xor_right_inj h).1 hxy)

theorem avalanche_injective : Function.Injective (avalanche Config.hash) :=
  (xorShift_injective (s := 16) (by decide)).comp <| (mul_injective (by decide)).comp <|
    (xorShift_injective (s := 13) (by decide)).comp <| (mul_injective (by decide)).comp <|
      xorShift_injective (s := 16) (by decide)

/-- On four bytes there is one block and no tail. -/
theorem murmur3_wordBytes (w seed : Word) :
    murmur3 (wordBytes w) seed = avalanche Config.hash (mixBlock Config.hash seed w ^^^ 4) := by
  rw [murmur3, murmur3With, length_wordBytes, wordBytes, mixData, le32_extract, mixData]
  rfl

/-! ## The obligations -/

/-- Settles O37: the two differ only in how they walk the data (`mixData_eq_program`). -/
theorem hashIsTheSpecsProgram : Obligations.HashIsTheSpecsProgram := fun p data seed => by
  rw [murmur3With, mixData_eq_program, murmurProgram_eq]

/-- Settles O38: every step is injective, and an injective map on the words is a bijection. -/
theorem hashOfFourBytesIsABijection : Obligations.HashOfFourBytesIsABijection := fun seed => by
  refine Finite.injective_iff_bijective.1 fun x y hxy => ?_
  simp only [murmur3_wordBytes] at hxy
  exact mixBlock_injective seed ((BitVec.xor_left_inj 4).1 (avalanche_injective hxy))

/-- Settles O39: the meaning of HASH (`exec_hash`), its value by O37. -/
theorem hashAnswersInEveryState : Obligations.HashAnswersInEveryState := fun seed data s => by
  have hheader : responseHeader Opcode.hash.code 0 .ok = 0x04000000 := by decide
  rw [exec_hash, respond_eq, hheader, murmur3, hashIsTheSpecsProgram]
  rfl

end Sys2Proof.Machine

/-! PROOFS of the statements of 41_update.md. -/

namespace Sys2Proof.Machine

/-! ## The counter of leading zeros (R112) -/

/-- The logarithm is the place of the highest set bit. -/
theorem log2_eq_iff_testBit {t m : Nat} (h0 : t ≠ 0) :
    Nat.log2 t = m ↔ t.testBit m = true ∧ ∀ b, m < b → t.testBit b = false := by
  constructor
  · rintro rfl
    exact ⟨Nat.testBit_log2 h0, fun b hb =>
      Nat.testBit_lt_two_pow (Nat.lt_of_lt_of_le Nat.lt_log2_self (Nat.pow_le_pow_right Nat.two_pos hb))⟩
  · rintro ⟨hbit, habove⟩
    exact (Nat.log2_eq_iff h0).2 ⟨Nat.ge_two_pow_of_testBit hbit, Nat.lt_pow_two_of_testBit t habove⟩

@[simp] theorem clz_zero (w : Nat) : clz w 0 = w := if_pos rfl

/-- In a field that holds `t`, the leading zeros, the highest set bit and the places below it fill the field. -/
theorem clz_add_log2 {w t : Nat} (h0 : t ≠ 0) (ht : t < 2 ^ w) : clz w t + Nat.log2 t + 1 = w := by
  have hlog : Nat.log2 t < w := (Nat.log2_lt h0).2 ht
  rw [clz, if_neg h0]
  omega

theorem clz_eq_width_iff {w t : Nat} (ht : t < 2 ^ w) : clz w t = w ↔ t = 0 := by
  refine ⟨fun hclz => by_contra fun h0 => ?_, fun h0 => h0 ▸ clz_zero w⟩
  have := clz_add_log2 h0 ht
  omega

/-- There are `i` leading zeros exactly when the highest set bit is the one `i` places below the top of the field. -/
theorem clz_eq_iff_testBit {w t i : Nat} (ht : t < 2 ^ w) (hi : i < w) :
    clz w t = i ↔ t.testBit (w - 1 - i) = true ∧ ∀ b, w - 1 - i < b → t.testBit b = false := by
  by_cases h0 : t = 0
  · simp only [h0, clz_zero, Nat.zero_testBit, Bool.false_eq_true, false_and, iff_false]
    omega
  · have := clz_add_log2 h0 ht
    rw [← log2_eq_iff_testBit h0]
    omega

/-- Zeros appended below do not change the number of leading zeros. -/
theorem clz_mul_two_pow {w t : Nat} (h0 : t ≠ 0) (ht : t < 2 ^ w) (k : Nat) : clz (w + k) (t * 2 ^ k) = clz w t := by
  have hshifted : t * 2 ^ k < 2 ^ (w + k) := by
    rw [Nat.pow_add]
    exact Nat.mul_lt_mul_of_pos_right ht (Nat.two_pow_pos k)
  have hlow := clz_add_log2 h0 ht
  have hhigh := clz_add_log2 (Nat.mul_ne_zero h0 (Nat.two_pow_pos k).ne') hshifted
  obtain ⟨hmin, hmax⟩ := log2_scaled (k := k) (Nat.log2_self_le h0) Nat.lt_log2_self
  omega

/-! ## The tail and the rank (R111, R113, R114) -/

theorem hashTail_lt (k : Nat) (h : Word) : hashTail k h < 2 ^ (32 - k) := Nat.mod_lt _ (Nat.two_pow_pos _)

theorem testBit_hashTail (k : Nat) (h : Word) (b : Nat) : (hashTail k h).testBit b = (decide (b < 32 - k) && h.getLsbD b) := by
  rw [hashTail, Nat.testBit_mod_two_pow, BitVec.testBit_toNat]

/-- Shifting the index out of the word leaves the tail at its top. -/
theorem toNat_shiftLeft_eq_hashTail {k : Nat} (hk : k ≤ 32) (h : Word) : (h <<< k).toNat = hashTail k h * 2 ^ k := by
  have hsplit : 2 ^ 32 = 2 ^ (32 - k) * 2 ^ k := by rw [← Nat.pow_add, Nat.sub_add_cancel hk]
  rw [BitVec.toNat_shiftLeft, Nat.shiftLeft_eq, hsplit, Nat.mul_mod_mul_right, hashTail]

theorem hashRank_eq_saturated_iff {k : Nat} (hk : k ≤ 32) (h : Word) : hashRank k h = 33 - k ↔ hashTail k h = 0 := by
  rw [← clz_eq_width_iff (hashTail_lt k h), hashRank]
  omega

/-- Rank `j` names the tail's bit `32 - K - j` as its highest set bit. -/
theorem hashRank_eq_iff {k j : Nat} (h : Word) (hmin : 1 ≤ j) (hmax : j ≤ 32 - k) :
    hashRank k h = j ↔ h.getLsbD (32 - k - j) = true ∧ ∀ b, 32 - k - j < b → b < 32 - k → h.getLsbD b = false := by
  have hclz : hashRank k h = j ↔ clz (32 - k) (hashTail k h) = j - 1 := by rw [hashRank]; omega
  have hplace : 32 - k - 1 - (j - 1) = 32 - k - j := by omega
  have hinside : 32 - k - j < 32 - k := by omega
  rw [hclz, clz_eq_iff_testBit (hashTail_lt k h) (by omega), hplace]
  simp [testBit_hashTail, hinside]

/-! ## ADD and ADDV on a sketch (R115, R117) -/

/-- The state an ADD of the item `d` leaves on a sketch: one raise of the store and one answer. -/
def afterAdd (s : State) (d : List Byte) : State :=
  (s.withStore (writeIfGreater s.store (updatePair s d).1 (updatePair s d).2)).send [0x02000000]

@[simp] theorem afterAdd_valid (s : State) (d : List Byte) : (afterAdd s d).valid = s.valid := rfl
@[simp] theorem afterAdd_k (s : State) (d : List Byte) : (afterAdd s d).k = s.k := rfl
@[simp] theorem afterAdd_seed (s : State) (d : List Byte) : (afterAdd s d).seed = s.seed := rfl
@[simp] theorem afterAdd_store (s : State) (d : List Byte) :
    (afterAdd s d).store = writeIfGreater s.store (updatePair s d).1 (updatePair s d).2 := rfl
@[simp] theorem afterAdd_port (s : State) (d : List Byte) : (afterAdd s d).port = s.port := rfl
@[simp] theorem afterAdd_responses (s : State) (d : List Byte) : (afterAdd s d).responses = s.responses ++ [[0x02000000]] := rfl
@[simp] theorem afterAdd_draws (s : State) (d : List Byte) : (afterAdd s d).draws = s.draws := rfl

/-- An ADD does not move the pair of a later item. -/
@[simp] theorem updatePair_afterAdd (s : State) (d : List Byte) : updatePair (afterAdd s d) = updatePair s := by
  rw [afterAdd, updatePair_send, updatePair_withStore]

theorem exec_add_next {d : List Byte} {s : State} (hv : s.valid = true) : exec (.add d) s = .next (afterAdd s d) := by
  have hheader : responseHeader Opcode.add.code 0 .ok = 0x02000000 := by decide
  rw [exec_add_ok hv, respond_eq, hheader, afterAdd]

theorem exec_addv_next {ds : List (List Byte)} {s : State} (hv : s.valid = true) :
    exec (.addv ds) s = .next ((s.withStore (arbitrate Config.lanes (ds.map (updatePair s)) s.store)).send [0x03000000]) := by
  have hheader : responseHeader Opcode.addv.code 0 .ok = 0x03000000 := by decide
  rw [exec_addv_ok hv, respond_eq, hheader]

theorem execAll_add {s : State} (hv : s.valid = true) (ds : List (List Byte)) :
    execAll (ds.map Instr.add) s = .next (ds.foldl afterAdd s) := by
  induction ds generalizing s with
  | nil => rfl
  | cons d ds ih => rw [List.map_cons, execAll_cons (exec_add_next hv), ih (s := afterAdd s d) hv, List.foldl_cons]

theorem foldl_afterAdd_control (s : State) (ds : List (List Byte)) :
    (ds.foldl afterAdd s).valid = s.valid ∧ (ds.foldl afterAdd s).k = s.k ∧ (ds.foldl afterAdd s).seed = s.seed := by
  induction ds generalizing s with
  | nil => exact ⟨rfl, rfl, rfl⟩
  | cons d ds ih => exact ih (afterAdd s d)

/-- ADDs one after another raise the cells of their pairs one after another. -/
theorem foldl_afterAdd_store (s : State) (ds : List (List Byte)) :
    (ds.foldl afterAdd s).store = (ds.map (updatePair s)).foldl (fun m p => writeIfGreater m p.1 p.2) s.store := by
  induction ds generalizing s with
  | nil => rfl
  | cons d ds ih => rw [List.foldl_cons, ih, updatePair_afterAdd, afterAdd_store, List.map_cons, List.foldl_cons]

theorem afterAdd_idem {s : State} (hs : Memory.wf s.store = true) (a : List Byte) :
    (afterAdd (afterAdd s a) a).store = (afterAdd s a).store := by
  rw [afterAdd_store, updatePair_afterAdd, afterAdd_store, writeIfGreater_idem hs]

/-- Two ADDs commute, the answers included: both send the same frame. The fields go by their lemmas, since `rfl` would compare the stores
and run into the hash. -/
theorem afterAdd_comm {s : State} (hs : Memory.wf s.store = true) (a b : List Byte) :
    afterAdd (afterAdd s a) b = afterAdd (afterAdd s b) a := by
  have hstore : (afterAdd (afterAdd s a) b).store = (afterAdd (afterAdd s b) a).store := by
    rw [afterAdd_store, afterAdd_store, afterAdd_store, afterAdd_store, updatePair_afterAdd, updatePair_afterAdd, writeIfGreater_comm hs]
  apply State.ext_fields (h4 := hstore) <;> simp

/-! ## The arbiter (R118) -/

/-- The arbiter and the raises one after another, in any order of the pairs, leave the same store. -/
theorem arbitrate_eq_foldl {m : Memory} (h : Memory.wf m = true) {lanes : Nat} (hl : 1 ≤ lanes) {ps qs : List (Nat × Byte)}
    (hperm : ps.Perm qs) : arbitrate lanes ps m = qs.foldl (fun m p => writeIfGreater m p.1 p.2) m :=
  Memory.ext_of_read (arbitrate_wf h lanes ps) (foldl_writeIfGreater_wf h qs) fun a => by
    rw [memRead_arbitrate h hl, memRead_foldl_writeIfGreater h, maxAimedAt_perm a hperm]

/-! ## The obligations -/

/-- Settles O36: every number of lanes and every order end where the same raises one after another end, and each cell holds the maximum
`memRead_arbitrate` gives. -/
theorem arbiterIsCorrectInAnyGroupingAndOrder : Obligations.ArbiterIsCorrectInAnyGroupingAndOrder := by
  intro lanes lanes' ps qs m hl hl' hperm hm
  refine ⟨?_, fun a => ?_⟩
  · rw [arbitrate_eq_foldl hm hl hperm, arbitrate_eq_foldl hm hl' (.refl qs)]
  · rw [memRead_arbitrate hm hl, byteMax_toNat, max_maxAimedAt]

/-- Settles O29: quotient and remainder by `2^(32 - K)`. -/
theorem hashSplitsIntoIndexAndTail : Obligations.HashSplitsIntoIndexAndTail := by
  intro k h _ hmax
  refine ⟨hashIndex_lt (by omega) h, hashTail_lt k h, ?_, (BitVec.toNat_ushiftRight h _).symm⟩
  rw [hashIndex, hashTail, Nat.shiftRight_eq_div_pow, Nat.div_add_mod']

/-- Settles O30: the rank counts the tail's leading zeros, which its highest set bit ends. -/
theorem rankIsThePlaceOfTheFirstSetBit : Obligations.RankIsThePlaceOfTheFirstSetBit := by
  intro k h hmin hmax
  have hle : hashRank k h ≤ 33 - k := hashRank_le (by omega) h
  exact ⟨hashRank_pos k h, hle, by omega, rfl, hashRank_eq_saturated_iff (by omega) h, fun _ hj hj' => hashRank_eq_iff h hj hj'⟩

/-- Settles O31: the shifted word is the tail with `K` zeros below it; where the tail is 0 the counter sees 32 zeros and the minimum
cuts them to `32 - K`. -/
theorem rankByAThirtyTwoBitCounter : Obligations.RankByAThirtyTwoBitCounter := by
  intro k h _ hmax
  rw [toNat_shiftLeft_eq_hashTail (by omega), hashRank]
  by_cases h0 : hashTail k h = 0
  · rw [h0, Nat.zero_mul, clz_zero, clz_zero, Nat.min_eq_right (Nat.sub_le 32 k)]
  · have hclz : clz 32 (hashTail k h * 2 ^ k) = clz (32 - k) (hashTail k h) := by
      rw [← clz_mul_two_pow h0 (hashTail_lt k h) k, Nat.sub_add_cancel (by omega)]
    rw [hclz, Nat.min_eq_left (clz_le _ _)]

/-- Settles O32: ADD is one raise of the store (`exec_add_next`). -/
theorem addRaisesTheSelectedCell : Obligations.AddRaisesTheSelectedCell := by
  intro data s hs hv
  refine ⟨_, exec_add_next hv, ⟨rfl, rfl, rfl, rfl, rfl⟩, rfl, ?_, fun a ha => ?_⟩
  · rw [readCell_eq, afterAdd_store, updatePair_fst, memRead_writeIfGreater hs, if_pos rfl, byteMax_toNat,
      updatePair_snd_toNat, readCell_eq]
  · rw [readCell_eq, afterAdd_store, updatePair_fst, memRead_writeIfGreater hs, if_neg ha, readCell_eq]

/-- Settles O33: raises of a canonical store are idempotent and commute, and each ADD sends the same answer. -/
theorem addIsIdempotentAndCommutes : Obligations.AddIsIdempotentAndCommutes := by
  intro a b s hs hv
  exact ⟨_, _, _, _, execAll_add hv [a], execAll_add hv [a, a], execAll_add hv [a, b], execAll_add hv [b, a],
    afterAdd_idem hs a, afterAdd_comm hs a b⟩

/-- Settles O34: ADDV sends its pairs through the arbiter (`exec_addv_next`), which takes the maximum in every cell. -/
theorem addvRaisesEverySelectedCell : Obligations.AddvRaisesEverySelectedCell := by
  intro items s hs hv
  refine ⟨_, exec_addv_next hv, ⟨rfl, rfl, rfl, rfl, rfl⟩, rfl, fun a => ?_⟩
  rw [readCell_send, readCell_withStore, memRead_arbitrate_lanes hs, byteMax_toNat, max_maxAimedAt_updatePair, readCell_eq]

/-- Settles O35: the ADDs make the raises of their pairs one after another, and the arbiter leaves the same store in any order. -/
theorem addvEqualsItsAddsInAnyOrder : Obligations.AddvEqualsItsAddsInAnyOrder := by
  intro items order s hs hv hperm
  obtain ⟨hvalid, hk, hseed⟩ := foldl_afterAdd_control s order
  refine ⟨_, _, exec_addv_next hv, execAll_add hv order, ?_, hvalid.symm, hk.symm, hseed.symm⟩
  rw [foldl_afterAdd_store]
  exact arbitrate_eq_foldl hs (by decide) (hperm.symm.map _)

end Sys2Proof.Machine

/-! PROOFS of the statements of 42_estimator.md. -/

namespace Sys2Proof.Machine

/-! ## The default logarithm (R141, log 2) -/

theorem LN_inf : LN (f64Of false f64InfMag) = f64Of false f64InfMag := by decide +kernel

/-! ## Comparisons (R131) -/

/-- Finite values above zero are in the order of their magnitude bits. -/
theorem fgt_iff_mag {x y : F64} (hx : f64Positive x) (hy : f64Positive y) : fgt x y = true ↔ f64Mag y < f64Mag x := by
  unfold fgt
  rw [(f64Positive_tests hx).1, (f64Positive_tests hy).1, order_of_positive hx, order_of_positive hy]
  simp

theorem tLarge_positive : f64Positive tLarge := by unfold f64Positive; decide

theorem cTwo32_positive : f64Positive cTwo32 := by unfold f64Positive; decide

/-- R140: the small-range bound of every precision lies below the large-range bound, so a value in the small range is not in the large. -/
theorem fgt_tLarge_of_fle_small {k : Nat} (hmin : 2 ≤ k) (hmax : k ≤ 16) {x : F64} (h : fle x (fmul c25 (f64OfNat (2 ^ k))) = true) :
    fgt x tLarge = false := by
  have hbounds := small_order k hmin hmax
  unfold fle at h
  simp only [Bool.and_eq_true, decide_eq_true_eq] at h
  obtain ⟨-, hx⟩ := h
  unfold fgt
  rw [decide_eq_false (by omega), Bool.and_false]

/-! ## The indicator sum (R134, R135) -/

theorem numer_lt {cells : List Byte} (h : cells.length ≤ 2 ^ 16) : numer cells < 2 ^ 53 := by
  have hsum := (numer_bounds cells).2
  omega

theorem cellUnits_eq : cellUnits = 2 ^ 1042 := by unfold cellUnits; rfl

/-- `fadd` of finite values that are not negative: the sum, rounded once. -/
theorem fadd_nonneg {m n : Nat} (hm : m < f64InfMag) (hn : n < f64InfMag) :
    fadd (f64Of false m) (f64Of false n) = f64Of false (roundMag (magUnits m + magUnits n) 1) := by
  have hsign : ¬ ((magUnits m + magUnits n : ℕ) : ℤ) < 0 := by omega
  rw [fadd_finite false false hm hn (v := ((magUnits m + magUnits n : ℕ) : ℤ)) (by simp), Int.natAbs_natCast, decide_eq_false hsign,
    Bool.and_self, ite_self]

/-- A leaf is the sum of its one cell, and a node's addition rounds nothing. -/
theorem AdderTree.eval_eq_indicatorSum (tree : AdderTree) (hlen : tree.cells.length ≤ 2 ^ 16) (hlegal : ∀ r ∈ tree.cells, r.toNat ≤ 32) :
    tree.eval = indicatorSum tree.cells := by
  induction tree with
  | cell r =>
    have hr : r.toNat ≤ 32 := hlegal r (by simp [cells])
    have hone : numer [r] = 2 ^ (32 - r.toNat) := by simp [numer]
    rw [indicator_numer _ hlegal, cells, hone, cellUnits_leaf hr]
    rfl
  | sum l r ihl ihr =>
    have hlegall : ∀ c ∈ l.cells, c.toNat ≤ 32 := fun c hc => hlegal c (by simp [cells, hc])
    have hlegalr : ∀ c ∈ r.cells, c.toNat ≤ 32 := fun c hc => hlegal c (by simp [cells, hc])
    rw [cells, List.length_append] at hlen
    have hlenl : l.cells.length ≤ 2 ^ 16 := by omega
    have hlenr : r.cells.length ≤ 2 ^ 16 := by omega
    obtain ⟨hl, hlfin⟩ := cellUnits_round (numer_lt hlenl)
    obtain ⟨hr, hrfin⟩ := cellUnits_round (numer_lt hlenr)
    rw [indicator_numer _ hlegal, cells, numer_append, eval, ihl hlenl hlegall, ihr hlenr hlegalr, indicator_numer _ hlegall,
      indicator_numer _ hlegalr, fadd_nonneg hlfin hrfin, hl, hr, Nat.add_mul]

theorem indicatorSum_perm {cells cells' : List Byte} (h : cells.Perm cells') : indicatorSum cells = indicatorSum cells' := by
  have hsteps : indicatorSteps cells = indicatorSteps cells' := (h.map _).sum_eq
  rw [indicatorSum, indicatorSum, hsteps]

/-! ## The regimes (R139) -/

/-- The large regime is decided by the large-range test alone. -/
theorem estimate_of_large {ln : F64 → F64} {k : Nat} {cells : List Byte} (hmin : 2 ≤ k) (hmax : k ≤ 16)
    (h : fgt (rawEstimate (2 ^ k) cells) tLarge = true) :
    estimate ln k cells = (.large, largeEstimate ln (rawEstimate (2 ^ k) cells)) := by
  have hsmall : ¬ fle (rawEstimate (2 ^ k) cells) (fmul c25 (f64OfNat (2 ^ k))) = true := fun hle => by
    rw [fgt_tLarge_of_fle_small hmin hmax hle] at h
    cases h
  simp only [estimate, if_neg hsmall, if_pos h]

/-- Outside the large range the estimate is the linear-counting one, of a sketch with a cell at 0, or the raw one. -/
theorem estimate_of_not_large {ln : F64 → F64} {k : Nat} {cells : List Byte} (h : fgt (rawEstimate (2 ^ k) cells) tLarge = false) :
    (0 < zeroCells cells ∧ estimate ln k cells = (.linear, linearEstimate ln (2 ^ k) (zeroCells cells))) ∨
    estimate ln k cells = (.raw, rawEstimate (2 ^ k) cells) := by
  have hlarge : ¬ fgt (rawEstimate (2 ^ k) cells) tLarge = true := by rw [h]; decide
  by_cases hsmall : fle (rawEstimate (2 ^ k) cells) (fmul c25 (f64OfNat (2 ^ k))) = true
  · by_cases hv : 0 < zeroCells cells
    · exact .inl ⟨hv, by simp only [estimate, if_pos hsmall, if_pos hv]⟩
    · exact .inr (by simp only [estimate, if_pos hsmall, if_neg hv])
  · exact .inr (by simp only [estimate, if_neg hsmall, if_neg hlarge])

/-- A legal sketch outside the large range has an estimate that is a number and not negative. -/
theorem estimate_good_of_not_large {ln : F64 → F64} (hs : LnSpec ln) {k : Nat} {cells : List Byte} (hmin : 2 ≤ k) (hmax : k ≤ 16)
    (hlen : cells.length = 2 ^ k) (hlegal : ∀ r ∈ cells, r.toNat ≤ 32) (h : fgt (rawEstimate (2 ^ k) cells) tLarge = false) :
    f64IsNaN (estimate ln k cells).2 = false ∧ f64Neg (estimate ln k cells).2 = false := by
  obtain ⟨hv, he⟩ | he := estimate_of_not_large (ln := ln) h
  · have hvm : zeroCells cells ≤ 2 ^ k := hlen ▸ List.count_le_length
    simp only [he]
    exact linear_good hs hv hvm (Nat.pow_le_pow_right (by decide) hmax)
  · obtain ⟨R, hraw, -, hfin⟩ := raw_shape k cells hmin hmax hlen hlegal
    rw [he, hraw]
    exact ⟨not_nan_of hfin.le, f64Neg_of false (hfin.trans f64InfMag_lt)⟩

/-! ## The empty sketch (R143) -/

/-- `Z = M` for an empty sketch, so its raw estimate is in the small range. -/
theorem fle_small_empty {k : Nat} (hmin : 2 ≤ k) (hmax : k ≤ 16) :
    fle (rawEstimate (2 ^ k) (List.replicate (2 ^ k) 0)) (fmul c25 (f64OfNat (2 ^ k))) = true := by
  rw [rawEstimate, indicatorSum, steps_zero]
  interval_cases k <;> decide +kernel

theorem fdiv_ofNat_self {k : Nat} (hmin : 2 ≤ k) (hmax : k ≤ 16) : fdiv (f64OfNat (2 ^ k)) (f64OfNat (2 ^ k)) = cOne := by
  interval_cases k <;> decide +kernel

theorem fmul_ofNat_zero {k : Nat} (hmin : 2 ≤ k) (hmax : k ≤ 16) : fmul (f64OfNat (2 ^ k)) (f64Of false 0) = 0 := by
  interval_cases k <;> decide +kernel

theorem estimate_empty {ln : F64 → F64} {k : Nat} (hmin : 2 ≤ k) (hmax : k ≤ 16) (hone : ln cOne = f64Of false 0) :
    estimate ln k (List.replicate (2 ^ k) 0) = (.linear, 0) := by
  have hzero : zeroCells (List.replicate (2 ^ k) 0) = 2 ^ k := List.count_replicate_self
  have hlinear : linearEstimate ln (2 ^ k) (2 ^ k) = 0 := by
    rw [linearEstimate, fdiv_ofNat_self hmin hmax, hone, fmul_ofNat_zero hmin hmax]
  simp only [estimate, hzero, if_pos (fle_small_empty hmin hmax), if_pos (Nat.two_pow_pos k), hlinear]

theorem snapshot_of_zero {s : State} (h : ∀ a, a < s.size → readCell s a = 0) : snapshot s = List.replicate s.size 0 := by
  refine List.eq_replicate_iff.2 ⟨length_snapshot s, fun b hb => ?_⟩
  obtain ⟨i, hi, rfl⟩ := mem_snapshot hb
  exact h i hi

/-! ## CARD's answer (R145, R146) -/

/-- The response frame of a CARD in a regime, with the estimate's bits. -/
theorem respond_card_eq (r : Regime) (b : F64) (s : State) : respond .card (regimeCode r) (f64Words b) s =
    .next (s.send [0x05000000 ||| ((regimeCode r).setWidth 32 <<< 16), b.setWidth 32, (b >>> 32).setWidth 32]) := by
  rw [respond_eq, header_card, words_of]

/-! ## The obligations -/

/-- Settles O43: any tree computes the exact sum of its cells, which is a whole number of steps of `2^-32` and needs no rounding. -/
theorem indicatorSumIsExactForAnyAdderTree : Obligations.IndicatorSumIsExactForAnyAdderTree := by
  intro k cells hmax hlen hlegal
  have hlen' : cells.length ≤ 2 ^ 16 := hlen ▸ Nat.pow_le_pow_right (by decide) hmax
  obtain ⟨hunits, hfin⟩ := cellUnits_round (numer_lt hlen')
  obtain ⟨hlow, hhigh⟩ := numer_bounds cells
  rw [hlen] at hlow hhigh
  refine ⟨fun tree hperm => ?_, ?_, ?_, ?_, hlow, hhigh⟩
  · rw [tree.eval_eq_indicatorSum (hperm.length_eq ▸ hlen') fun r hr => hlegal r (hperm.mem_iff.1 hr), indicatorSum_perm hperm]
  · rw [indicator_numer cells hlegal, f64Neg_of _ (roundMag_lt _ _)]
  · rw [indicator_numer cells hlegal, f64Mag_of _ (roundMag_lt _ _)]
    exact hfin
  · rw [indicator_numer cells hlegal, f64Units_of _ hfin, hunits, numer, cellUnits_eq]

/-- Settles O45: in the large range `large_good` says it, and elsewhere the raw estimate is below `2^32` and the estimate a number. -/
theorem estimateIsNaNExactlyAboveTheHashSpace : Obligations.EstimateIsNaNExactlyAboveTheHashSpace := by
  intro ln k cells hs hmin hmax hlen hlegal
  obtain ⟨R, hraw, hone, hfin⟩ := raw_shape k cells hmin hmax hlen hlegal
  obtain ⟨hedge, -, hinf32, -⟩ := mag32
  obtain ⟨hbelow, -⟩ := large_lt
  obtain ⟨-, hcOne, -⟩ := one_positive
  have hpos : f64Positive (f64Of false R) := f64Pos_of (hcOne.trans_le hone) hfin
  have hmag : f64Mag (f64Of false R) = R := f64Mag_of false (hfin.trans f64InfMag_lt)
  have hmag32 : f64Mag cTwo32 = magOfNat (2 ^ 32) := by rw [hedge, f64Mag_of false (hinf32.trans f64InfMag_lt)]
  have habove : fgt (f64Of false R) cTwo32 = true ↔ magOfNat (2 ^ 32) < R := by rw [fgt_iff_mag hpos cTwo32_positive, hmag, hmag32]
  have heq : f64Of false R = cTwo32 → R = magOfNat (2 ^ 32) := fun h => by rw [← hmag, h, hmag32]
  have hlarge : fgt (f64Of false R) tLarge = true ↔ f64Mag tLarge < R := by rw [fgt_iff_mag hpos tLarge_positive, hmag]
  by_cases hT : f64Mag tLarge < R
  · obtain ⟨hnan, hinf, hneg⟩ := large_good hs hone hfin hT
    rw [estimate_of_large hmin hmax (hraw ▸ hlarge.2 hT), hraw]
    exact ⟨hnan.trans habove.symm, fun _ => rfl, fun h => Prod.ext rfl (hinf (heq h)), hneg⟩
  · have hnot : fgt (rawEstimate (2 ^ k) cells) tLarge = false := by rw [hraw]; exact Bool.eq_false_iff.2 fun h => hT (hlarge.1 h)
    obtain ⟨hnum, hneg⟩ := estimate_good_of_not_large hs hmin hmax hlen hlegal hnot
    rw [hraw, habove, hnum]
    have hnotAbove : ¬ magOfNat (2 ^ 32) < R := by omega
    have hnotAt : R ≠ magOfNat (2 ^ 32) := by omega
    exact ⟨⟨fun h => absurd h (by decide), fun h => absurd h hnotAbove⟩, fun h => absurd h hnotAbove, fun h => absurd (heq h) hnotAt,
      fun _ => hneg⟩

/-- Settles O46: the lemmas of Laws/Log.lean, one per property. -/
theorem theDefaultLogarithmHasTheSixProperties : Obligations.TheDefaultLogarithmHasTheSixProperties where
  one := LN_one
  finite _ := LN_finite
  faithful x hx := by
    have hunits : (2 : ℝ) ^ 1074 = oneUnits := by rw [oneUnits_eq, Nat.cast_pow, Nat.cast_ofNat]
    rw [hunits]
    exact LN_faithful hx
  above _ := LN_above
  below _ := LN_below
  mono _ _ hx hy h := LN_mono hx hy (mag_le_of_fle hx hy h)
  zero _ := LN_zero
  neg _ hx := by rw [LN_nan hx]; decide
  inf := LN_inf

/-- Settles O42: a sketch that passed the small-range test fails the large-range test (`fgt_tLarge_of_fle_small`), so making it changes
nothing. -/
theorem theTwoReadingsOfTheLargeRangeClauseAgree : Obligations.TheTwoReadingsOfTheLargeRangeClauseAgree := by
  intro ln k cells hmin hmax
  by_cases hsmall : fle (rawEstimate (2 ^ k) cells) (fmul c25 (f64OfNat (2 ^ k))) = true
  · have hlarge := fgt_tLarge_of_fle_small hmin hmax hsmall
    by_cases hv : 0 < zeroCells cells <;> simp [literalEstimate, estimate, hsmall, hlarge, hv]
  · simp [literalEstimate, estimate, hsmall]

/-- Settles O44: the sum and the count of zeros do not depend on the order. -/
theorem estimateDoesNotDependOnTheOrderOfCells : Obligations.EstimateDoesNotDependOnTheOrderOfCells := by
  intro ln k cells cells' hperm
  have hraw : rawEstimate (2 ^ k) cells = rawEstimate (2 ^ k) cells' := by rw [rawEstimate, rawEstimate, indicatorSum_perm hperm]
  have hzero : zeroCells cells = zeroCells cells' := hperm.count_eq 0
  simp only [estimate, hraw, hzero]

/-- Settles O41: an empty sketch is in the small range, every cell counts as zero, and `ln 1` is +0.0. -/
theorem emptySketchCountsZero : Obligations.EmptySketchCountsZero := by
  refine ⟨fun ln k hmin hmax hone => estimate_empty hmin hmax hone, fun s hv hmin hmax hcells => ?_⟩
  have hestimate : estimate LN s.k.toNat (snapshot s) = (.linear, 0) := by
    rw [snapshot_of_zero hcells]
    exact estimate_empty hmin hmax LN_one
  rw [exec_card_number hv hestimate (by decide), respond_card_eq]
  rfl

/-- Settles O40: an estimate that is a number is sent as it is, a NaN's bits are drawn and quiet. -/
theorem cardAnswersTheEstimate : Obligations.CardAnswersTheEstimate := by
  refine ⟨by decide, fun s hv => ?_⟩
  obtain ⟨r, e, he⟩ : ∃ r e, estimate LN s.k.toNat (snapshot s) = (r, e) := ⟨_, _, rfl⟩
  cases hn : f64IsNaN e with
  | false =>
    have hcard := exec_card_number hv he hn
    rw [respond_card_eq] at hcard
    exact ⟨_, e, r, e, hcard, he, rfl, rfl, rfl, rfl, fun _ => rfl, rfl, fun _ => ⟨rfl, rfl⟩, fun h => by simp [hn] at h⟩
  | true =>
    have hcard := exec_card_nan hv he hn
    rw [respond_card_eq] at hcard
    exact ⟨_, drawnNaN s.draws, r, e, hcard, he, rfl, rfl, rfl, rfl, fun _ => rfl, rfl, fun h => by simp [hn] at h,
      fun _ => drawn_quiet s.draws⟩

/-- Settles O47: the exceptional cases of the logarithm's definition. -/
theorem theDefaultLogarithmAtTheEdges : Obligations.TheDefaultLogarithmAtTheEdges := by
  refine ⟨LN_one, LN_zero (by decide), LN_zero (by decide), LN_inf, fun x hneg hx => ?_, fun x hx => ?_⟩
  · have hmag : f64IsZero x = false := decide_eq_false fun h0 => hx (by rw [← f64Of_mag x, h0, f64Neg, hneg]; rfl)
    rw [LN_nan (.inr ⟨hneg, hmag⟩)]
    decide
  · rw [LN_nan (.inl hx)]
    decide

end Sys2Proof.Machine

/-! PROOFS of the statements of 43_merge.md. -/

namespace Sys2Proof.Machine

/-! ## MERGE on a sketch (R161) -/

/-- The state a MERGE of the operand `o` leaves on a sketch that accepts it: the maximum in every cell and one answer. -/
def afterMerge (s : State) (o : List Byte) : State := (s.withStore (mergeCells 0 o s.store)).send [0x06000000]

@[simp] theorem afterMerge_store (s : State) (o : List Byte) : (afterMerge s o).store = mergeCells 0 o s.store := rfl

theorem encode_merge (ok : BitVec 16) (o : List Byte) : encode (.merge ok o) = (0x06000000 ||| ok.setWidth 32) :: packBytes o := rfl

theorem exec_merge_noSketch {ok : BitVec 16} {o : List Byte} {s : State} (hv : s.valid = false) :
    exec (.merge ok o) s = raise Opcode.merge.code .noSketch s := exec_of_noSketch rfl hv

/-- With `OK = K` and every byte at most 32 no check of MERGE fails. -/
theorem exec_merge_next {ok : BitVec 16} {o : List Byte} {s : State} (hv : s.valid = true) (hk : ok.toNat = s.k.toNat)
    (ho : ∀ b ∈ o, b.toNat ≤ 32) : exec (.merge ok o) s = .next (afterMerge s o) := by
  have hnone : ¬ ∃ b ∈ o, 32 < b.toNat := fun ⟨b, hb, hlt⟩ => Nat.not_lt.2 (ho b hb) hlt
  have hheader : responseHeader Opcode.merge.code 0 .ok = 0x06000000 := by decide
  rw [exec_merge_ok hv hk hnone, respond_eq, hheader, afterMerge]

/-- Accepted MERGEs one after another. -/
theorem execAll_merge {ok : BitVec 16} {s : State} (hv : s.valid = true) (hk : ok.toNat = s.k.toNat) {os : List (List Byte)}
    (hos : ∀ o ∈ os, ∀ b ∈ o, b.toNat ≤ 32) : execAll (os.map (Instr.merge ok)) s = .next (os.foldl afterMerge s) := by
  induction os generalizing s with
  | nil => rfl
  | cons o os ih =>
    obtain ⟨ho, hrest⟩ := List.forall_mem_cons.1 hos
    rw [List.map_cons, execAll_cons (exec_merge_next hv hk ho), ih (s := afterMerge s o) hv hk hrest, List.foldl_cons]

/-- Every cell ends at the maximum of itself and its operand byte; past the operand's end that byte is 0. -/
theorem readCell_afterMerge {s : State} (hs : Memory.wf s.store = true) (o : List Byte) (a : Nat) :
    readCell (afterMerge s o) a = byteMax (readCell s a) (o.getD a 0) := by
  rw [readCell_eq, afterMerge_store, memRead_mergeCells hs, if_pos (Nat.zero_le a), Nat.sub_zero, readCell_eq]

theorem readCell_afterMerge_of_length_le {s : State} (hs : Memory.wf s.store = true) {o : List Byte} {a : Nat} (ha : o.length ≤ a) :
    readCell (afterMerge s o) a = readCell s a := by
  rw [readCell_afterMerge hs, List.getD_eq_default _ _ ha]
  exact byteMax_zero_right _

/-! ## The laws of MERGE (R164) -/

/-- Merging the own snapshot takes the maximum of every cell with itself. -/
theorem afterMerge_snapshot_store {s : State} (hs : Memory.wf s.store = true) : (afterMerge s (snapshot s)).store = s.store := by
  refine Memory.ext_of_read (mergeCells_wf hs _ _) hs fun a => ?_
  rw [← readCell_eq, ← readCell_eq]
  by_cases ha : a < s.size
  · rw [readCell_afterMerge hs, getD_snapshot s ha, byteMax_self]
  · exact readCell_afterMerge_of_length_le hs (by simpa using ha)

/-- Two MERGEs commute, the answers included: both send the same frame. -/
theorem afterMerge_comm {s : State} (hs : Memory.wf s.store = true) (a b : List Byte) :
    afterMerge (afterMerge s a) b = afterMerge (afterMerge s b) a :=
  State.ext_fields rfl rfl rfl (mergeCells_comm hs b a) rfl rfl rfl

/-! ## The obligations -/

/-- Settles O48: the frame is the command's encoding, each failed check is its error response (R205), and on success every cell takes the
maximum (`readCell_afterMerge`), which past the operand's `2^K` bytes changes nothing. -/
theorem mergeIsThePointwiseMaximum : Obligations.MergeIsThePointwiseMaximum := by
  intro ok o s hwf hs
  refine ⟨?frame, ?noSketch, ?size, ?range, ?success⟩
  case frame => rw [← encode_merge]; exact decodeWith_encode maxLen_lt hwf
  case noSketch => exact fun hv => exec_merge_noSketch hv
  case size => exact fun hv hk => exec_merge_size hv hk
  case range => exact fun hv hk hb => exec_merge_range hv hk hb
  case success =>
    intro hv hk ho
    have hlen : o.length = s.size := by
      simp only [Instr.wf, Instr.wfWith, Bool.and_eq_true, decide_eq_true_eq] at hwf
      rw [hwf.2, hk, State.size]
    refine ⟨_, exec_merge_next hv hk ho, ⟨rfl, rfl, rfl, rfl, rfl⟩, rfl, fun a _ => ?_, fun a ha => ?_⟩
    · rw [readCell_afterMerge hs, byteMax_toNat]
    · exact readCell_afterMerge_of_length_le hs (hlen.trans_le ha)

/-- Settles O49: the invariants make the snapshot a legal operand and the store canonical, and the pointwise maximum is idempotent and
commutative (`mergeCells_idem`, `mergeCells_comm`). -/
theorem mergeIsIdempotentAndCommutes : Obligations.MergeIsIdempotentAndCommutes := by
  intro ok s hi hv hk
  have hs : Memory.wf s.store = true := hi.canonical
  refine ⟨?snapshot, fun a b ha hb => ?laws⟩
  case snapshot =>
    have hlegal : ∀ b ∈ snapshot s, b.toNat ≤ 32 := fun b hb => by
      obtain ⟨i, hlt, rfl⟩ := mem_snapshot hb
      exact hi.range hv i hlt
    exact ⟨_, exec_merge_next hv hk hlegal, afterMerge_snapshot_store hs⟩
  case laws =>
    have run : ∀ os : List (List Byte), (∀ o ∈ os, ∀ x ∈ o, x.toNat ≤ 32) →
        execAll (os.map (Instr.merge ok)) s = .next (os.foldl afterMerge s) := fun _ => execAll_merge hv hk
    exact ⟨_, _, _, _, run [a] (by simpa using ha), run [a, a] (by simpa using ha), run [a, b] (by simpa using ⟨ha, hb⟩),
      run [b, a] (by simpa using ⟨hb, ha⟩), mergeCells_idem hs a, afterMerge_comm hs a b⟩

end Sys2Proof.Machine

/-! PROOFS of the statements of 44_inspect.md. -/

namespace Sys2Proof.Machine

/-! ## The commands on a sketch (R171, R174, R186) -/

/-- RDREGS on a sketch changes nothing but the response stream. -/
theorem exec_rdregs_next {s : State} (hv : s.valid = true) :
    exec .rdregs s = .next (s.send (0x07000000 :: vectorWords (snapshot s))) := by
  have hheader : responseHeader Opcode.rdregs.code 0 .ok = 0x07000000 := by decide
  rw [exec_rdregs_ok hv, respond_eq, hheader]

/-- The state a SETREG of cell `i` to `v` leaves when no check fails: the one cell overwritten and one answer. -/
def afterSetreg (s : State) (i : Nat) (v : Byte) : State := (s.withStore (overwrite s.store i v)).send [0x08000000]

@[simp] theorem afterSetreg_valid (s : State) (i : Nat) (v : Byte) : (afterSetreg s i v).valid = s.valid := rfl
@[simp] theorem afterSetreg_k (s : State) (i : Nat) (v : Byte) : (afterSetreg s i v).k = s.k := rfl
@[simp] theorem afterSetreg_seed (s : State) (i : Nat) (v : Byte) : (afterSetreg s i v).seed = s.seed := rfl
@[simp] theorem afterSetreg_store (s : State) (i : Nat) (v : Byte) : (afterSetreg s i v).store = overwrite s.store i v := rfl
@[simp] theorem size_afterSetreg (s : State) (i : Nat) (v : Byte) : (afterSetreg s i v).size = s.size := rfl

theorem exec_setreg_noSketch {index rank : Word} {s : State} (hv : s.valid = false) :
    exec (.setreg index rank) s = raise Opcode.setreg.code .noSketch s := exec_of_noSketch rfl hv

/-- With INDEX below `2^K` and RANK at most 32 no check of SETREG fails. -/
theorem exec_setreg_next {index rank : Word} {s : State} (hv : s.valid = true) (hi : index.toNat < 2 ^ s.k.toNat) (hr : rank.toNat ≤ 32) :
    exec (.setreg index rank) s = .next (afterSetreg s index.toNat (rank.setWidth 8)) := by
  have hheader : responseHeader Opcode.setreg.code 0 .ok = 0x08000000 := by decide
  rw [exec_setreg_ok hv (Nat.not_le.2 hi) (Nat.not_lt.2 hr), respond_eq, hheader, ← BitVec.setWidth_eq_extractLsb' (by decide),
    afterSetreg]

theorem readCell_afterSetreg {s : State} (hs : Memory.wf s.store = true) (i : Nat) (v : Byte) (a : Nat) :
    readCell (afterSetreg s i v) a = if a = i then v else readCell s a := memRead_overwrite hs i v a

/-- The overwrite shows in the snapshot at its own byte alone (R176). -/
theorem snapshot_afterSetreg {s : State} (hs : Memory.wf s.store = true) (i : Nat) (v : Byte) :
    snapshot (afterSetreg s i v) = (snapshot s).set i v := by
  refine List.ext_getElem (by simp) fun a _ _ => ?_
  simp only [snapshot, List.getElem_set, List.getElem_map, List.getElem_range, readCell_afterSetreg hs, eq_comm (a := i)]

/-- The state a successful INIT leaves: a fresh sketch and one answer. -/
def afterInit (u : State) (k : BitVec 5) (seed : Word) : State := (u.construct k seed).send [0x01000000]

@[simp] theorem afterInit_k (u : State) (k : BitVec 5) (seed : Word) : (afterInit u k seed).k = k := rfl
@[simp] theorem afterInit_seed (u : State) (k : BitVec 5) (seed : Word) : (afterInit u k seed).seed = seed := rfl
@[simp] theorem size_afterInit (u : State) (k : BitVec 5) (seed : Word) : (afterInit u k seed).size = 2 ^ k.toNat := rfl

/-- INIT with a precision of a sketch and a seed. -/
theorem exec_init_next {k : BitVec 5} (hmin : Config.kMin ≤ k.toNat) (hmax : k.toNat ≤ Config.kMax) (seed : Word) (u : State) :
    exec (.init (k.setWidth 16) (some seed)) u = .next (afterInit u k seed) := by
  have hk : (k.setWidth 16).toNat = k.toNat := BitVec.toNat_setWidth_of_le (by decide)
  have hfield : (k.setWidth 16).extractLsb' 0 5 = k := by
    rw [BitVec.extractLsb'_setWidth_of_le (by decide), BitVec.extractLsb'_eq_self]
  have hlegal : ¬ ((k.setWidth 16).toNat < 2 ∨ 16 < (k.setWidth 16).toNat) := by
    rw [hk]; exact not_or.2 ⟨Nat.not_lt.2 hmin, Nat.not_lt.2 hmax⟩
  have hheader : responseHeader Opcode.init.code 0 .ok = 0x01000000 := by decide
  rw [exec_init_legal hlegal, respond_eq, hheader, hfield]; rfl

theorem afterInit_wf {u : State} (hu : Memory.wf u.store = true) (k : BitVec 5) (seed : Word) :
    Memory.wf (afterInit u k seed).store = true := memZero_wf hu _

theorem readCell_afterInit {k : BitVec 5} {a : Nat} (ha : a < 2 ^ k.toNat) (seed : Word) (u : State) :
    readCell (afterInit u k seed) a = 0 := (memRead_memZero u.store _ a).trans (if_pos ha)

/-! ## The snapshot sent back (R173) -/

/-- (I-range) of R25, for the snapshot. -/
theorem snapshot_legal {s : State} (hi : Invariants s) (hv : s.valid = true) : ∀ b ∈ snapshot s, b.toNat ≤ 32 := by
  intro b hb
  obtain ⟨i, hlt, rfl⟩ := mem_snapshot hb
  exact hi.range hv i hlt

/-- SETREGs of legal bytes to the cells from `i` on all run, and leave those bytes there and every other cell as it was. -/
theorem execAll_replayCells {bs : List Byte} {i : Nat} {s : State} (hs : Memory.wf s.store = true) (hv : s.valid = true)
    (hfit : i + bs.length ≤ s.size) (hbs : ∀ b ∈ bs, b.toNat ≤ 32) :
    ∃ t, execAll (replayCells i bs) s = .next t ∧ t.valid = true ∧ t.k = s.k ∧ t.seed = s.seed ∧
      ∀ a, readCell t a = if a < i then readCell s a else bs.getD (a - i) (readCell s a) := by
  induction bs generalizing i s with
  | nil => exact ⟨s, rfl, hv, rfl, rfl, fun a => by simp⟩
  | cons b bs ih =>
    obtain ⟨hb, hrest⟩ := List.forall_mem_cons.1 hbs
    rw [List.length_cons] at hfit
    have hlt : i < s.size := by omega
    have hindex : (BitVec.ofNat 32 i).toNat = i := by
      have hsize : s.size ≤ 2 ^ 32 := Nat.pow_le_pow_right (by decide) s.k.isLt.le
      exact Nat.mod_eq_of_lt (hlt.trans_le hsize)
    have hrank : (b.setWidth 32).toNat = b.toNat := BitVec.toNat_setWidth_of_le (by decide)
    have hbyte : (b.setWidth 32).setWidth 8 = b := by rw [BitVec.setWidth_setWidth_of_le _ (by decide), BitVec.setWidth_eq]
    have hfirst : exec (.setreg (BitVec.ofNat 32 i) (b.setWidth 32)) s = .next (afterSetreg s i b) := by
      rw [exec_setreg_next hv (hindex.symm ▸ hlt) (hrank.symm ▸ hb), hindex, hbyte]
    obtain ⟨t, ht, htv, htk, htseed, htcell⟩ := ih (i := i + 1) (s := afterSetreg s i b) (overwrite_wf hs i b) hv
      (by rw [size_afterSetreg]; omega) hrest
    refine ⟨t, (execAll_cons hfirst).trans ht, htv, htk, htseed, fun a => ?_⟩
    rw [htcell, readCell_afterSetreg hs]
    obtain hbelow | rfl | habove := lt_trichotomy a i
    · rw [if_pos (by omega), if_neg hbelow.ne, if_pos hbelow]
    · rw [if_pos (by omega), if_pos rfl, if_neg (by omega), Nat.sub_self, List.getD_cons_zero]
    · rw [if_neg (by omega), if_neg habove.ne', if_neg (by omega), show a - i = a - (i + 1) + 1 by omega, List.getD_cons_succ]

/-! ## The obligations -/

/-- Settles O51: the payload is the packed snapshot, and word `j` of a packing holds four bytes from `4j` on (`getD_packBytes`). -/
theorem rdregsAnswersTheSnapshot : Obligations.RdregsAnswersTheSnapshot := by
  refine ⟨decodeWith_encode (i := .rdregs) maxLen_lt rfl, fun s => ⟨fun hv => exec_of_noSketch rfl hv, fun hv hk => ?_⟩⟩
  refine ⟨_, exec_rdregs_next hv, length_packBytes_vector hk (length_snapshot s), fun j hj => ?_⟩
  have hsize : 4 * 2 ^ (s.k.toNat - 2) = s.size := pow_sub_two hk
  have hlast : 4 * j + 3 < s.size := by omega
  rw [vectorWords, getD_packBytes, le32At, getD_snapshot s (i := 4 * j) (by omega), getD_snapshot s (i := 4 * j + 1) (by omega),
    getD_snapshot s (i := 4 * j + 2) (by omega), getD_snapshot s hlast]

/-- Settles O52: the frame is the command's encoding, each failed check is its error response (R205), and on success one cell is
overwritten (`readCell_afterSetreg`) by the rank, which eight bits hold. -/
theorem setregOverwritesOneCellOrIsRefused : Obligations.SetregOverwritesOneCellOrIsRefused := by
  intro index rank s hs
  refine ⟨?frame, ?noSketch, ?index, ?rank, ?success⟩
  case frame => exact decodeWith_encode (i := .setreg index rank) maxLen_lt rfl
  case noSketch => exact fun hv => exec_setreg_noSketch hv
  case index => exact fun hv hi => exec_setreg_index hv hi
  case rank => exact fun hv hi hr => exec_setreg_rank hv (Nat.not_le.2 hi) hr
  case success =>
    intro hv hi hr
    refine ⟨_, exec_setreg_next hv hi hr, ⟨rfl, rfl, rfl, rfl, rfl⟩, rfl, ?_, fun a ha => ?_⟩
    · rw [readCell_afterSetreg hs, if_pos rfl, BitVec.toNat_setWidth, Nat.mod_eq_of_lt (by omega)]
    · rw [readCell_afterSetreg hs, if_neg ha]

/-- Settles O53: both payloads unpack to their snapshots, and SETREG sets one byte of the snapshot (`snapshot_afterSetreg`). -/
theorem rdregsShowsWhatSetregWrote : Obligations.RdregsShowsWhatSetregWrote := by
  intro index rank s hs hv hk hi hr
  have hrun : execAll [.setreg index rank, .rdregs] s =
      .next ((afterSetreg s index.toNat (rank.setWidth 8)).send
        (0x07000000 :: vectorWords (snapshot (afterSetreg s index.toNat (rank.setWidth 8))))) := by
    rw [execAll_cons (exec_setreg_next hv hi hr), execAll_cons (exec_rdregs_next (by rw [afterSetreg_valid, hv])), execAll]
  refine ⟨_, _, _, exec_rdregs_next hv, hrun, List.getLast?_concat, ?_⟩
  rw [unpack_vector s hk, unpack_vector _ (by rw [afterSetreg_k]; exact hk), snapshot_afterSetreg hs]

/-- Settles O56: INIT makes a sketch of the same precision and seed, the SETREGs write its every cell (`execAll_replayCells`), and the
estimate is a function of the precision and the cells. -/
theorem restoreRebuildsTheSketch : Obligations.RestoreRebuildsTheSketch := by
  intro s u hi hv hu
  obtain ⟨hmin, hmax⟩ := hi.precision hv
  obtain ⟨t, ht, htv, htk, htseed, htcell⟩ := execAll_replayCells (i := 0) (s := afterInit u s.k s.seed) (afterInit_wf hu _ _) rfl
    (by rw [length_snapshot, Nat.zero_add, size_afterInit, State.size]) (snapshot_legal hi hv)
  rw [afterInit_k] at htk
  rw [afterInit_seed] at htseed
  have hcells : ∀ a, a < s.size → readCell t a = readCell s a := fun a ha => by
    have hlisted : a < (snapshot s).length := by rwa [length_snapshot]
    rw [htcell, if_neg (Nat.not_lt_zero a), Nat.sub_zero, ← getD_snapshot s ha, List.getD_eq_getElem _ _ hlisted,
      List.getD_eq_getElem _ _ hlisted]
  have hsnapshot : snapshot s = snapshot t := snapshot_congr (by rw [State.size, State.size, htk]) fun a ha => (hcells a ha).symm
  exact ⟨t, (execAll_cons (exec_init_next hmin hmax s.seed u)).trans ht, htv, htk, htseed, hcells,
    fun ln => by rw [htk, hsnapshot]⟩

/-- Settles O57: INIT leaves 0 in every cell of the sketch, and the maximum of 0 and a byte of the snapshot is that byte. -/
theorem mergeIntoAFreshSketchRebuildsIt : Obligations.MergeIntoAFreshSketchRebuildsIt := by
  intro s u hi hv hu
  obtain ⟨hmin, hmax⟩ := hi.precision hv
  have hk : (s.k.setWidth 16).toNat = (afterInit u s.k s.seed).k.toNat := BitVec.toNat_setWidth_of_le (by decide)
  have hrun : execAll [.init (s.k.setWidth 16) (some s.seed), .merge (s.k.setWidth 16) (snapshot s)] u =
      .next (afterMerge (afterInit u s.k s.seed) (snapshot s)) := by
    rw [execAll_cons (exec_init_next hmin hmax s.seed u), execAll_cons (exec_merge_next rfl hk (snapshot_legal hi hv)), execAll]
  refine ⟨_, hrun, rfl, rfl, rfl, fun a ha => ?_⟩
  rw [readCell_afterMerge (afterInit_wf hu s.k s.seed), readCell_afterInit ha, getD_snapshot s ha]
  exact byteMax_zero_left _

/-- Settles O54: GETSEED's answer, and `NoSketch` (R210). -/
theorem getseedAnswersTheSeed : Obligations.GetseedAnswersTheSeed := by
  refine ⟨decodeWith_encode (i := .getseed) maxLen_lt rfl, fun s => ⟨fun hv => ?_, fun hv => exec_of_noSketch rfl hv⟩⟩
  have hheader : responseHeader Opcode.getseed.code 0 .ok = 0x09000000 := by decide
  rw [exec_getseed_ok hv, respond_eq, hheader]

/-- Settles O55: `1 << K` is `2^K`, since the five-bit `K` is below 32 and no bit is shifted out. -/
theorem getsizeAnswersTheSize : Obligations.GetsizeAnswersTheSize := by
  refine ⟨decodeWith_encode (i := .getsize) maxLen_lt rfl, fun s => ⟨fun hv => ?_, fun hv => exec_of_noSketch rfl hv⟩⟩
  have hheader : responseHeader Opcode.getsize.code 0 .ok = 0x0A000000 := by decide
  refine ⟨(1 : Word) <<< s.k.toNat, by rw [exec_getsize_ok hv, respond_eq, hheader], ?_⟩
  have hlt : 2 ^ s.k.toNat < 2 ^ 32 := Nat.pow_lt_pow_right (by decide) s.k.isLt
  rw [BitVec.toNat_shiftLeft, Nat.shiftLeft_eq, show (1 : Word).toNat = 1 from rfl, Nat.one_mul, Nat.mod_eq_of_lt hlt]

end Sys2Proof.Machine

/-! PROOFS of the statements of 45_config.md. -/

namespace Sys2Proof.Machine

/-! ## INIT (R186, R187, R189) -/

theorem encode_init_default (k : BitVec 16) : encode (.init k none) = [0x01000000 ||| k.setWidth 32] := rfl

theorem encode_init_seed (k : BitVec 16) (w : Word) : encode (.init k (some w)) = [0x01010000 ||| k.setWidth 32, w] := by
  have hfixed : (Opcode.init.code.setWidth 32 <<< 24) ||| ((BitVec.ofBool true).setWidth 32 <<< 16) = (0x01010000 : Word) := by decide
  rw [encode, Option.isSome_some, encodeHeader, hfixed, encodeSeed]

/-- INIT with a legal precision, for both forms of the seed operand. -/
theorem exec_init_afterInit {k : BitVec 16} (hmin : 2 ≤ k.toNat) (hmax : k.toNat ≤ 16) (seed : Option Word) (s : State) :
    exec (.init k seed) s = .next (afterInit s (k.extractLsb' 0 5) (seed.getD 314)) := by
  have hlegal : ¬ (k.toNat < 2 ∨ 16 < k.toNat) := not_or.2 ⟨Nat.not_lt.2 hmin, Nat.not_lt.2 hmax⟩
  have hheader : responseHeader Opcode.init.code 0 .ok = 0x01000000 := by decide
  rw [exec_init_legal hlegal, respond_eq, hheader]; rfl

/-- The cells beyond the fresh sketch are not written (R189). -/
theorem readCell_afterInit_beyond {k : BitVec 5} {a : Nat} (ha : 2 ^ k.toNat ≤ a) (seed : Word) (u : State) :
    readCell (afterInit u k seed) a = readCell u a := (memRead_memZero u.store _ a).trans (if_neg (Nat.not_lt.2 ha))

/-! ## The obligations -/

/-- Settles O28: both frames are the command's encoding, a legal precision fits the five bits of `K` (`toNat_precision`), so `afterInit`
zeroes the cells below `2^k` and no others, and any other precision is refused before a write (R187). -/
theorem initConstructsOrIsRefused : Obligations.InitConstructsOrIsRefused := by
  intro k seed s
  refine ⟨?frame, fun w => ?frameWithSeed, ?success, ?refused⟩
  case frame => rw [← encode_init_default]; exact decodeWith_encode maxLen_lt rfl
  case frameWithSeed => rw [← encode_init_seed]; exact decodeWith_encode maxLen_lt rfl
  case success =>
    intro hmin hmax
    have hk : (k.extractLsb' 0 5).toNat = k.toNat := toNat_precision hmax
    refine ⟨_, exec_init_afterInit hmin hmax seed s, rfl, hk, rfl, fun a ha => ?_, fun a ha => ?_, rfl, rfl, rfl⟩
    · exact readCell_afterInit (hk.symm ▸ ha) _ s
    · exact readCell_afterInit_beyond (hk.symm ▸ ha) _ s
  case refused => exact fun h => exec_init_illegal h

end Sys2Proof.Machine

/-! PROOFS of the statements of 60_exceptions.md. -/

namespace Sys2Proof.Machine

/-! ## Which frames are which decode error (R208, R209) -/

/-- The decoder accepts exactly the encodings of the well-formed commands. -/
theorem decode_ok_iff (ws : Frame) (i : Instr) : decode ws = .ok i ↔ i.wf = true ∧ encode i = ws := by
  refine ⟨fun h => ⟨wfWith_of_decodeWith h, encode_of_decodeWith h⟩, ?_⟩
  rintro ⟨hwf, rfl⟩
  exact decodeWith_encode maxLen_lt hwf

/-- A frame is `IllegalFrame` exactly when it neither decodes nor is `IllegalCommand`. -/
theorem decode_illegalFrame_iff (ws : Frame) :
    decode ws = .error .illegalFrame ↔ decode ws ≠ .error .illegalCommand ∧ ∀ i, decode ws ≠ .ok i := by
  cases decode ws with
  | ok i => simp
  | error e => cases e <;> simp

/-- The same for a frame with a header: its opcode is defined and no command encodes it. -/
theorem decode_cons_illegalFrame_iff (h : Word) (rest : List Word) : decode (h :: rest) = .error .illegalFrame ↔
    (1 ≤ (h >>> 24).toNat ∧ (h >>> 24).toNat ≤ 10) ∧ ∀ i : Instr, i.wf = true → encode i ≠ h :: rest := by
  have hdefined : decode (h :: rest) ≠ .error .illegalCommand ↔ 1 ≤ (h >>> 24).toNat ∧ (h >>> 24).toNat ≤ 10 := by
    simp [decode_illegalCommand_iff, Nat.one_le_iff_ne_zero]
  simp only [decode_illegalFrame_iff, hdefined, ne_eq, decode_ok_iff, not_and]

/-! ## The status of an answer (R205, R206) -/

/-- A command's first error does not depend on the command stream. -/
@[simp] theorem commandError_withPort (i : Instr) (s : State) (p : List HostEvent) : commandError i (s.withPort p) = commandError i s := rfl

/-- Every command sends one response frame, whose header carries its first error. -/
theorem exec_status (i : Instr) (s : State) : ∃ (t : State) (info : Byte) (payload : List Word), exec i s = .next t ∧
    t.responses = s.responses ++ [responseHeader i.opcode.code info (commandError i s) :: payload] := by
  by_cases hok : commandError i s = .ok
  · obtain ⟨info, payload, d, hexec, -⟩ := exec_of_ok hok
    have hold : (okState i s).responses = s.responses := (okState_streams i s).2
    exact ⟨_, info, payload, hexec, by rw [State.send_responses, hold, hok]⟩
  · exact ⟨_, 0, [], exec_of_error hok, rfl⟩

/-- The checks a command makes are those R206 lists for it. -/
theorem commandError_mem_possibleStatuses (i : Instr) (s : State) : commandError i s ∈ possibleStatuses i.opcode := by
  unfold commandError
  split
  next hnone =>
    cases i with
    | init | hash => simp [Instr.needsSketch] at hnone
    | _ => simp [Instr.opcode, possibleStatuses]
  next =>
    cases i with
    | init => dsimp only; split <;> simp [Instr.opcode, possibleStatuses]
    | merge | setreg =>
      dsimp only
      split
      · simp [Instr.opcode, possibleStatuses]
      · split <;> simp [Instr.opcode, possibleStatuses]
    | _ => simp [Instr.opcode, possibleStatuses]

/-! ## The one error answer (R203) -/

/-- A step at a frame that is no command answers the one word of its decode error. -/
theorem step_of_decodeError {s : State} {ws : Frame} {rest : List HostEvent} {e : DecodeError} (hport : s.port = .frame ws :: rest)
    (hd : decode ws = .error e) : step s =
      .next ((s.withPort rest).send [((ws.headD 0) >>> 24 <<< 24) ||| (statusCode (decodeStatus e)).setWidth 32]) := by
  rw [step_of_rejected hport hd, raise_eq, errorHeader_eq]

/-- A step at a command with a first error answers the one word of that error. -/
theorem step_of_commandError {s : State} {ws : Frame} {rest : List HostEvent} {i : Instr} (hport : s.port = .frame ws :: rest)
    (hd : decode ws = .ok i) (he : commandError i s ≠ .ok) : step s =
      .next ((s.withPort rest).send [((ws.headD 0) >>> 24 <<< 24) ||| (statusCode (commandError i s)).setWidth 32]) := by
  rw [step_of_command hport hd, exec_of_error (s := s.withPort rest) he, raise_eq, ← frameOpc_of_decode hd, errorHeader_eq,
    commandError_withPort]

/-! ## The obligations -/

/-- Settles O4: a frame with a header is no command's encoding exactly when it does not decode, and its opcode is defined exactly when
that is not `IllegalCommand` (`decode_cons_illegalFrame_iff`); the answer is the decode error's word. -/
theorem illegalFrameExactlyWhenNoCommandEncodesIt : Obligations.IllegalFrameExactlyWhenNoCommandEncodesIt := by
  refine fun ws => ⟨?_, fun hd s rest hport => step_of_decodeError hport hd⟩
  cases ws with
  | nil => exact iff_of_true rfl (.inl rfl)
  | cons h rest =>
    rw [decode_cons_illegalFrame_iff]
    constructor
    · rintro ⟨⟨hmin, hmax⟩, hnone⟩
      exact .inr ⟨⟨h, rest, rfl, hmin, hmax⟩, hnone⟩
    · rintro (hnil | ⟨⟨_, _, hcons, hmin, hmax⟩, hnone⟩)
      · cases hnil
      · cases hcons
        exact ⟨⟨hmin, hmax⟩, hnone⟩

/-- Settles O13: past the decoder the first error is the command's (`firstError_of_command`), before it the decode error, which is never
`ok`; either is answered with its word, and a command without one with an OK header. -/
theorem firstErrorDecidesAndErrorsChangeNothing : Obligations.FirstErrorDecidesAndErrorsChangeNothing := by
  intro s ws rest hport
  cases hd : decode ws with
  | error e =>
    rw [firstError_of_rejected hd]
    exact ⟨fun _ => step_of_decodeError hport hd, fun hok => absurd hok (decodeStatus_ne_ok e)⟩
  | ok i =>
    rw [firstError_of_command hd]
    refine ⟨step_of_commandError hport hd, fun hok => ?_⟩
    obtain ⟨t, info, payload, hexec, hsent⟩ := exec_status i (s.withPort rest)
    rw [commandError_withPort, hok] at hsent
    exact ⟨t, _, payload, (step_of_command hport hd).trans hexec, hsent, responseHeader_low _ _ _⟩

/-- Settles O5: such a frame is `IllegalCommand` (`decode_illegalCommand_iff`), and the answer echoes its header's opcode. -/
theorem undefinedOpcodeIsIllegalCommand : Obligations.UndefinedOpcodeIsIllegalCommand := by
  intro h rest s p hundefined hport
  have hd : decode (h :: rest) = .error .illegalCommand := (decode_illegalCommand_iff _).2 ⟨h, rest, rfl, hundefined⟩
  rw [step_of_decodeError hport hd, List.headD_cons]
  rfl

/-- Settles O14: the status byte is the command's first error, which is in its row of the table. -/
theorem statusesOfEachCommand : Obligations.StatusesOfEachCommand := by
  intro i s
  obtain ⟨t, info, payload, hexec, hsent⟩ := exec_status i s
  exact ⟨t, _, payload, _, hexec, hsent, responseHeader_status _ _ _, commandError_mem_possibleStatuses i s⟩

/-- Settles O27: the sketch check comes before every other check (`exec_of_noSketch`). -/
theorem noSketchIsRefused : Obligations.NoSketchIsRefused := by
  intro i s hneeds hv
  rw [Refuses, exec_of_noSketch hneeds hv, raise_eq, responseHeader_zero_eq]
  rfl

end Sys2Proof.Machine

/-! PROOFS of the statements of 70_reset_and_hazards.md. -/

namespace Sys2Proof.Machine

/-! ## Every frame is answered (R242) -/

/-- A command does not touch the command stream. -/
theorem exec_port {i : Instr} {s t : State} (h : exec i s = .next t) : t.port = s.port := by
  obtain ⟨st, -, rfl⟩ | ⟨-, info, payload, d, rfl, -⟩ := exec_cases h
  · rfl
  · exact (okState_streams i s).1

/-! ## Before the first construction (R232) -/

/-- A step at a command that needs a sketch, where there is none, answers the one word of `NoSketch`. -/
theorem step_of_noSketch {s : State} {ws : Frame} {rest : List HostEvent} {i : Instr} (hport : s.port = .frame ws :: rest)
    (hd : decode ws = .ok i) (hneeds : i.needsSketch = true) (hv : s.valid = false) :
    step s = .next ((s.withPort rest).send [((ws.headD 0) >>> 24 <<< 24) ||| 0x10]) := by
  have he : commandError i s = .noSketch := commandError_of_noSketch hneeds hv
  rw [step_of_commandError hport hd (by rw [he]; decide), he]
  rfl

/-! ## Runs of two blocks that are alike (R231) -/

/-- A run takes one step, then the rest. -/
theorem run_succ {n : Nat} {s t : State} (h : step s = .next t) : core.run (n + 1) s = core.run n t := by
  have hcore : core.step s = .next t := h
  simp only [Host.Core.run, hcore]

/-- Any number of steps keeps two blocks alike. -/
theorem Alike.outcomes_run {s t : State} (h : Alike s t) (n : Nat) : OutcomesAlike (core.run n s) (core.run n t) := by
  induction n generalizing s t with
  | zero => exact ⟨s, t, rfl, rfl, h⟩
  | succ n ih =>
    obtain ⟨s', t', hs, ht, h'⟩ := h.outcomes_step
    rw [run_succ hs, run_succ ht]
    exact ih h'

/-- Two blocks without a sketch and with the same streams and counter are alike, whatever `K`, `SEED` and the cells are. -/
theorem Alike.of_noSketch {s : State} (hv : s.valid = false) (hs : Memory.wf s.store = true) (k : BitVec 5) (seed : Word) {m : Memory}
    (hm : Memory.wf m = true) : Alike s { s with k := k, seed := seed, store := m } :=
  ⟨hs, hm, rfl, rfl, rfl, rfl, fun hvalid => absurd hvalid (by simp [hv])⟩

/-! ## The obligations -/

/-- Settles O12: a command's answer and that of a frame that is no command both carry a header that echoes the opcode
(`responseHeader_shift`), and nothing but the step's fetch takes from the port. -/
theorem everyFrameIsAnsweredOnce : Obligations.EveryFrameIsAnsweredOnce := by
  intro s ws rest hport
  cases hd : decode ws with
  | ok i =>
    obtain ⟨t, info, payload, hexec, hsent⟩ := exec_status i (s.withPort rest)
    refine ⟨t, _, payload, (step_of_command hport hd).trans hexec, exec_port hexec, hsent, ?_⟩
    rw [responseHeader_shift, ← frameOpc_of_decode hd, frameOpc_word]
  | error e =>
    refine ⟨_, _, [], step_of_rejected hport hd, rfl, rfl, ?_⟩
    rw [responseHeader_shift, frameOpc_word]

/-- Settles O17: INIT checks its precision only (O28), HASH answers in every state (O39), and every other command finds no sketch first
(`step_of_noSketch`). -/
theorem answersBeforeConstruction : Obligations.AnswersBeforeConstruction := by
  intro s ws rest hv hport
  cases hd : decode ws with
  | ok i =>
    cases i with
    | init k seed =>
      dsimp only
      split
      next hk =>
        obtain ⟨hmin, hmax⟩ := hk
        exact ⟨_, (step_of_command hport hd).trans (exec_init_afterInit hmin hmax seed _), rfl, rfl⟩
      next hk =>
        obtain ⟨-, -, -, hrefused⟩ := initConstructsOrIsRefused k seed (s.withPort rest)
        exact (step_of_command hport hd).trans (hrefused (by omega))
    | hash seed d =>
      dsimp only
      rw [step_of_command hport hd, hashAnswersInEveryState, murmur3, hashIsTheSpecsProgram]
    | _ => exact step_of_noSketch hport hd rfl hv
  | error e =>
    cases e with
    | illegalFrame => exact step_of_decodeError hport hd
    | illegalCommand => exact step_of_decodeError hport hd

/-- Settles O19: the two blocks are alike at the start (`Alike.of_noSketch`), so they are after any run (`Alike.outcomes_run`). -/
theorem nothingLeftByResetIsObserved : Obligations.NothingLeftByResetIsObserved := by
  intro n s k seed m hv hs hm
  obtain ⟨s', t', hrun, hrun', hsame⟩ := (Alike.of_noSketch hv hs k seed hm).outcomes_run n
  obtain ⟨-, hresponses, -⟩ := hsame.same
  exact ⟨s', t', hrun, hrun', hresponses⟩

/-- Settles O11: the two cases of a step without a frame (`step_of_reset`, `step_of_nil`). -/
theorem stepResetsOrWaits : Obligations.StepResetsOrWaits :=
  ⟨fun _ _ hport => ⟨_, step_of_reset hport, rfl, rfl, rfl⟩, fun _ hport => step_of_nil hport⟩

end Sys2Proof.Machine
